-- ==== Sys2Proof/Word.lean ====
section
/-! DEFINITION. The word types of the block: the fixed widths of rule R7 (spec/00_scope.md). -/

namespace Sys2Proof

/-- A host command word (R100: one length, 64 bits). -/
abbrev CmdWord := BitVec 64

/-- A MIDI message: status byte 23:16, data byte 1 15:8, data byte 2 7:0 (R82, R114). -/
abbrev MsgWord := BitVec 24

/-- A word of the response port (R50). -/
abbrev RespWord := BitVec 32

/-- One channel value of the audio port, signed Q8.24 (R11, R50). -/
abbrev Sample := BitVec 32

/-- An envelope level, unsigned U2.30 in 31 bits (R11). -/
abbrev Level := BitVec 31

/-- A MIDI note number, 0 to 127 (R33). -/
abbrev Note := BitVec 7

/-- A velocity, 0 to 127, standing for the gain `v / 127` (R11). -/
abbrev Velocity := BitVec 7

/-- A key field: a note number, or NONE (R33; spec/93 I20 lets a model type the field so that the
encodings 0x80 to 0xFE cannot be held). -/
abbrev Key := Option Note

end Sys2Proof
end

