-- ==== Sys2Proof/Config.lean ====
section
/-! DEFINITION. The configuration of rule R6 (spec/00_scope.md) and the free values of the model. -/

namespace Sys2Proof

/-- The wavetable read mode, parameter LOOKUP (R6). -/
inductive Lookup where
  | nearest
  | linear
  deriving DecidableEq, Repr

/-- The policy for a note-on whose key is already bound, parameter RETRIG (R6). -/
inductive Retrig where
  | reallocate
  | retrigger
  deriving DecidableEq, Repr

/-- The synthesis-time parameters of R6. `table` lists the samples the configuration gives, index 0
first; an index it does not list reads `Config.freeSample` (log entry 2). -/
structure Config where
  /-- P, the number of voices. -/
  P : Nat
  /-- W, the wavetable address width; the table length is `2 ^ W`. -/
  W : Nat
  /-- TABLE, signed Q2.22 samples; of a list longer than `2 ^ W` the rest is never read (DESIGN CHOICE, log
  entry 2). -/
  table : List (BitVec 24)
  /-- LOOKUP. -/
  lookup : Lookup
  /-- RETRIG. -/
  retrig : Retrig
  /-- BRIDGE_VEL. -/
  bridgeVel : Velocity
  deriving DecidableEq, Repr

/-- The default of every parameter of R6. TABLE has no default, so no sample is given. -/
def Config.default : Config where
  P := 16
  W := 10
  table := []
  lookup := .linear
  retrig := .reallocate
  bridgeVel := 127#7

/-- FREE VALUE (DESIGN CHOICE, log entry 2): the sample at an index the configuration gives none for. R6: "none; a
model must be given it". Nothing can be proved about it but that it is a 24-bit sample. -/
opaque Config.freeSample : Nat → BitVec 24

/-- FREE VALUE (DESIGN CHOICE, log entry 3): whether the `k`-th choice between two non-empty host streams takes the
audio thread's word (R330: "The merge is free"). -/
opaque Config.audioFirst : Nat → Bool

/-- The open parameter CMD_BYTE_ORDER of a byte-wide transport, outside the block (R82, D38). -/
inductive ByteOrder where
  | big
  | little
  deriving DecidableEq, Repr

end Sys2Proof
end

