-- ==== Sys2Proof/Syntax.lean ====
section
/-! DEFINITION. The instructions: one constructor per row of spec/opcode_table.json. -/

namespace Sys2Proof

/-- The parameter ids of PARAM (R103): 0 ATTACK, 1 DECAY, 2 SUSTAIN, 3 RELEASE. -/
inductive ParamId where
  | attack
  | decay
  | sustain
  | release
  deriving DecidableEq, Repr

/-- The nine commands (R101) and the ten MIDI message-class rows (R114). A field of a constructor is
a field of its row, or, for a message class, the bits its row leaves open. -/
inductive Instr where
  /-- RESET (R102): BS[47:32], SR[23:0]. -/
  | reset (bs : BitVec 16) (sr : BitVec 24)
  /-- PARAM (R103): PID[39:32], VALUE[31:0]. -/
  | param (pid : ParamId) (value : BitVec 32)
  /-- MIDI (R104): OFS[47:32], ST[23:16], D1[15:8], D2[7:0]. -/
  | midi (ofs : BitVec 16) (st d1 d2 : BitVec 8)
  /-- PROCESS (R105): N[15:0]. -/
  | process (n : BitVec 16)
  /-- SETKEY (R106): KEY[7:0], a note or NONE. -/
  | setkey (key : Key)
  /-- QACTIVE (R107). -/
  | qactive
  /-- QKEY (R108): KEY[6:0]. -/
  | qkey (key : Note)
  /-- RDREG (R109): REG[23:0]. -/
  | rdreg (reg : BitVec 24)
  /-- CLRSTAT (R111): MASK[4:0] the flags, MASK[7] the drop counter. -/
  | clrstat (flags : BitVec 5) (drops : Bool)
  /-- NOT_STATUS (R114): ST 0x00 to 0x7F. -/
  | notStatus (st : BitVec 7) (d1 d2 : BitVec 8)
  /-- NOTE_MALFORMED, first row (R114): ST 0x80 to 0x9F, D1 ≥ 0x80. -/
  | noteMalformedD1 (st : BitVec 5) (d1 : BitVec 7) (d2 : BitVec 8)
  /-- NOTE_MALFORMED, second row (R114): ST 0x80 to 0x9F, D2 ≥ 0x80 (and D1 < 0x80: first match). -/
  | noteMalformedD2 (st : BitVec 5) (d1 d2 : BitVec 7)
  /-- NOTE_OFF (R114): channel `c`, note `n`, velocity `v`. -/
  | noteOff (c : BitVec 4) (n : Note) (v : Velocity)
  /-- NOTE_ON_ZERO (R114): a note-on with velocity 0. -/
  | noteOnZero (c : BitVec 4) (n : Note)
  /-- NOTE_ON (R114): a note-on with velocity 1 to 127. -/
  | noteOn (c : BitVec 4) (n : Note) (v : Velocity)
  /-- PITCH_WHEEL (R114): ST 0xE0 to 0xEF. -/
  | pitchWheel (c : BitVec 4) (d1 d2 : BitVec 8)
  /-- OTHER, first row (R114): ST 0xA0 to 0xBF. -/
  | otherAB (st : BitVec 5) (d1 d2 : BitVec 8)
  /-- OTHER, second row (R114): ST 0xC0 to 0xDF. -/
  | otherCD (st : BitVec 5) (d1 d2 : BitVec 8)
  /-- OTHER, third row (R114): ST 0xF0 to 0xFF. -/
  | otherF (st : BitVec 4) (d1 d2 : BitVec 8)
  deriving DecidableEq, Repr

/-- An encoded instruction: a command word, or a message of a queue entry. -/
inductive CodeWord where
  | cmd (w : CmdWord)
  | msg (m : MsgWord)
  deriving DecidableEq, Repr

/-- Why the decoder rejects a command word: the steps (1) to (3) of R112. -/
inductive Reject where
  /-- Step (1): OPC is 0x00 or 0x0A to 0xFF. -/
  | reservedOpcode
  /-- Step (2): a reserved field is not zero. -/
  | reservedBits
  /-- Step (3): a field holds a value that R103 or R106 calls illegal. -/
  | illegalField
  deriving DecidableEq, Repr

end Sys2Proof
end

