-- ==== Sys2Proof/WellFormed.lean ====
section
/-! DEFINITION. Which instructions are well formed. The types of `Instr` shut out every other illegal
field value, so one check is left: NOTE_ON has a velocity of 1 to 127 (R114). -/

namespace Sys2Proof

/-- The instruction is one that some word encodes. -/
def Instr.wellFormed : Instr → Bool
  | .reset _ _ => true
  | .param _ _ => true
  | .midi _ _ _ _ => true
  | .process _ => true
  | .setkey _ => true
  | .qactive => true
  | .qkey _ => true
  | .rdreg _ => true
  | .clrstat _ _ => true
  | .notStatus _ _ _ => true
  | .noteMalformedD1 _ _ _ => true
  | .noteMalformedD2 _ _ _ => true
  | .noteOff _ _ _ => true
  | .noteOnZero _ _ => true
  | .noteOn _ _ v => v != 0#7
  | .pitchWheel _ _ _ => true
  | .otherAB _ _ _ => true
  | .otherCD _ _ _ => true
  | .otherF _ _ _ => true

end Sys2Proof
end

