-- ==== Sys2Proof/Decode.lean ====
section
/-! DEFINITION. The decoder of rules R102 to R112 and R114 (spec/30_encoding.md), total on every word,
and the encoder written from the same tables. -/

namespace Sys2Proof

/-! ## Operand fields -/

/-- `w[lo + len - 1 : lo]` (R8, R113). -/
def bits {k : Nat} (w : BitVec k) (lo len : Nat) : BitVec len := w.extractLsb' lo len

/-- The parameter named by a PID field, if it is legal (R103). -/
def paramIdOf (pid : BitVec 8) : Option ParamId :=
  if pid = 0x00#8 then some .attack
  else if pid = 0x01#8 then some .decay
  else if pid = 0x02#8 then some .sustain
  else if pid = 0x03#8 then some .release
  else none

/-- The PID field of a parameter (R103). -/
def pidOf : ParamId → BitVec 8
  | .attack => 0x00#8
  | .decay => 0x01#8
  | .sustain => 0x02#8
  | .release => 0x03#8

/-- The key a KEY byte holds, if it is legal: 0 to 127, or 0xFF for NONE (R33, R106). -/
def keyOf (b : BitVec 8) : Option Key :=
  if b = 0xFF#8 then some none
  else if bits b 7 1 = 0#1 then some (some (bits b 0 7))
  else none

/-- The byte that holds a key: NONE is 0xFF (R33). -/
def keyByte : Key → BitVec 8
  | none => 0xFF#8
  | some n => 0#1 ++ n

/-! ## Command words -/

/-- RESET (R102): reserved 55:48 and 31:24. -/
def decodeReset (w : CmdWord) : Except Reject Instr :=
  if bits w 48 8 = 0#8 ∧ bits w 24 8 = 0#8 then .ok (.reset (bits w 32 16) (bits w 0 24))
  else .error .reservedBits

/-- PARAM (R103): reserved 55:40; PID 4 to 255 illegal. -/
def decodeParam (w : CmdWord) : Except Reject Instr :=
  if bits w 40 16 = 0#16 then
    match paramIdOf (bits w 32 8) with
    | some pid => .ok (.param pid (bits w 0 32))
    | none => .error .illegalField
  else .error .reservedBits

/-- MIDI (R104): reserved 55:48 and 31:24. -/
def decodeMidi (w : CmdWord) : Except Reject Instr :=
  if bits w 48 8 = 0#8 ∧ bits w 24 8 = 0#8 then
    .ok (.midi (bits w 32 16) (bits w 16 8) (bits w 8 8) (bits w 0 8))
  else .error .reservedBits

/-- PROCESS (R105): reserved 55:16. -/
def decodeProcess (w : CmdWord) : Except Reject Instr :=
  if bits w 16 40 = 0#40 then .ok (.process (bits w 0 16)) else .error .reservedBits

/-- SETKEY (R106): reserved 55:8; KEY 0x80 to 0xFE illegal. -/
def decodeSetkey (w : CmdWord) : Except Reject Instr :=
  if bits w 8 48 = 0#48 then
    match keyOf (bits w 0 8) with
    | some key => .ok (.setkey key)
    | none => .error .illegalField
  else .error .reservedBits

/-- QACTIVE (R107): reserved 55:0. -/
def decodeQactive (w : CmdWord) : Except Reject Instr :=
  if bits w 0 56 = 0#56 then .ok .qactive else .error .reservedBits

/-- QKEY (R108): reserved 55:7. -/
def decodeQkey (w : CmdWord) : Except Reject Instr :=
  if bits w 7 49 = 0#49 then .ok (.qkey (bits w 0 7)) else .error .reservedBits

/-- RDREG (R109): reserved 55:24. -/
def decodeRdreg (w : CmdWord) : Except Reject Instr :=
  if bits w 24 32 = 0#32 then .ok (.rdreg (bits w 0 24)) else .error .reservedBits

/-- CLRSTAT (R111): reserved 55:8 and mask bits 6:5. -/
def decodeClrstat (w : CmdWord) : Except Reject Instr :=
  if bits w 8 48 = 0#48 ∧ bits w 5 2 = 0#2 then
    .ok (.clrstat (bits w 0 5) (bits w 7 1 == 1#1))
  else .error .reservedBits

/-- The decoder of command words: the opcode map of R101, the checks in the order of R112. -/
def decodeCmd (w : CmdWord) : Except Reject Instr :=
  let opc := bits w 56 8
  if opc = 0x01#8 then decodeReset w
  else if opc = 0x02#8 then decodeParam w
  else if opc = 0x03#8 then decodeMidi w
  else if opc = 0x04#8 then decodeProcess w
  else if opc = 0x05#8 then decodeSetkey w
  else if opc = 0x06#8 then decodeQactive w
  else if opc = 0x07#8 then decodeQkey w
  else if opc = 0x08#8 then decodeRdreg w
  else if opc = 0x09#8 then decodeClrstat w
  else .error .reservedOpcode

/-! ## MIDI messages -/

/-- The class of a message: the rows of R114 in the table's order, the first that matches. -/
def decodeMsg (m : MsgWord) : Instr :=
  if bits m 23 1 = 0#1 then .notStatus (bits m 16 7) (bits m 8 8) (bits m 0 8)
  else if bits m 21 3 = 4#3 ∧ bits m 15 1 = 1#1 then
    .noteMalformedD1 (bits m 16 5) (bits m 8 7) (bits m 0 8)
  else if bits m 21 3 = 4#3 ∧ bits m 7 1 = 1#1 then
    .noteMalformedD2 (bits m 16 5) (bits m 8 7) (bits m 0 7)
  else if bits m 20 4 = 8#4 then .noteOff (bits m 16 4) (bits m 8 7) (bits m 0 7)
  else if bits m 20 4 = 9#4 ∧ bits m 0 7 = 0#7 then .noteOnZero (bits m 16 4) (bits m 8 7)
  else if bits m 20 4 = 9#4 then .noteOn (bits m 16 4) (bits m 8 7) (bits m 0 7)
  else if bits m 20 4 = 14#4 then .pitchWheel (bits m 16 4) (bits m 8 8) (bits m 0 8)
  else if bits m 21 3 = 5#3 then .otherAB (bits m 16 5) (bits m 8 8) (bits m 0 8)
  else if bits m 21 3 = 6#3 then .otherCD (bits m 16 5) (bits m 8 8) (bits m 0 8)
  else .otherF (bits m 16 4) (bits m 8 8) (bits m 0 8)

/-- The message word of three bytes (R82, R114). -/
def msgWord (st d1 d2 : BitVec 8) : MsgWord := st ++ d1 ++ d2

/-! ## Both together -/

/-- The decoder: total, rejecting by name. -/
def decode : CodeWord → Except Reject Instr
  | .cmd w => decodeCmd w
  | .msg m => .ok (decodeMsg m)

/-- The encoder: the word of an instruction, field by field from R102 to R111 and R114. -/
def encode : Instr → CodeWord
  | .reset bs sr => .cmd (0x01#8 ++ 0#8 ++ bs ++ 0#8 ++ sr)
  | .param pid value => .cmd (0x02#8 ++ 0#16 ++ pidOf pid ++ value)
  | .midi ofs st d1 d2 => .cmd (0x03#8 ++ 0#8 ++ ofs ++ 0#8 ++ st ++ d1 ++ d2)
  | .process n => .cmd (0x04#8 ++ 0#40 ++ n)
  | .setkey key => .cmd (0x05#8 ++ 0#48 ++ keyByte key)
  | .qactive => .cmd (0x06#8 ++ 0#56)
  | .qkey key => .cmd (0x07#8 ++ 0#49 ++ key)
  | .rdreg reg => .cmd (0x08#8 ++ 0#32 ++ reg)
  | .clrstat flags drops => .cmd (0x09#8 ++ 0#48 ++ BitVec.ofBool drops ++ 0#2 ++ flags)
  | .notStatus st d1 d2 => .msg (0#1 ++ st ++ d1 ++ d2)
  | .noteMalformedD1 st d1 d2 => .msg (4#3 ++ st ++ 1#1 ++ d1 ++ d2)
  | .noteMalformedD2 st d1 d2 => .msg (4#3 ++ st ++ 0#1 ++ d1 ++ 1#1 ++ d2)
  | .noteOff c n v => .msg (8#4 ++ c ++ 0#1 ++ n ++ 0#1 ++ v)
  | .noteOnZero c n => .msg (9#4 ++ c ++ 0#1 ++ n ++ 0#8)
  | .noteOn c n v => .msg (9#4 ++ c ++ 0#1 ++ n ++ 0#1 ++ v)
  | .pitchWheel c d1 d2 => .msg (14#4 ++ c ++ d1 ++ d2)
  | .otherAB st d1 d2 => .msg (5#3 ++ st ++ d1 ++ d2)
  | .otherCD st d1 d2 => .msg (6#3 ++ st ++ d1 ++ d2)
  | .otherF st d1 d2 => .msg (15#4 ++ st ++ d1 ++ d2)

/-- The code word with bits `w` of a row the opcode table gives `nbits` bits: the message-class rows
have 24 bits, the command rows 64. -/
def codeWordOf (nbits w : Nat) : CodeWord :=
  if nbits ≤ 32 then .msg (BitVec.ofNat 24 w) else .cmd (BitVec.ofNat 64 w)

/-- The instruction the decoder reads from the bits `w` of a row of spec/opcode_table.json. -/
def decodeTableWord (nbits w : Nat) : Option Instr :=
  match decode (codeWordOf nbits w) with
  | .ok i => some i
  | .error _ => none

/-! ## The rows of the opcode table -/

/-- One row of spec/opcode_table.json: a word `w` matches when `w` AND mask is match. -/
structure TableRow where
  mnemonic : String
  pattern : Nat
  mask : Nat
  deriving DecidableEq, Repr

/-- The nine command rows of spec/opcode_table.json. -/
def commandRows : List TableRow :=
  [⟨"RESET", 0x0100000000000000, 0xFFFF0000FF000000⟩,
   ⟨"PARAM", 0x0200000000000000, 0xFFFFFF0000000000⟩,
   ⟨"MIDI", 0x0300000000000000, 0xFFFF0000FF000000⟩,
   ⟨"PROCESS", 0x0400000000000000, 0xFFFFFFFFFFFF0000⟩,
   ⟨"SETKEY", 0x0500000000000000, 0xFFFFFFFFFFFFFF00⟩,
   ⟨"QACTIVE", 0x0600000000000000, 0xFFFFFFFFFFFFFFFF⟩,
   ⟨"QKEY", 0x0700000000000000, 0xFFFFFFFFFFFFFF80⟩,
   ⟨"RDREG", 0x0800000000000000, 0xFFFFFFFFFF000000⟩,
   ⟨"CLRSTAT", 0x0900000000000000, 0xFFFFFFFFFFFFFF60⟩]

/-- The ten message-class rows of spec/opcode_table.json, in its order. -/
def messageRows : List TableRow :=
  [⟨"NOT_STATUS", 0x000000, 0x800000⟩,
   ⟨"NOTE_MALFORMED", 0x808000, 0xE08000⟩,
   ⟨"NOTE_MALFORMED", 0x800080, 0xE00080⟩,
   ⟨"NOTE_OFF", 0x800000, 0xF08080⟩,
   ⟨"NOTE_ON_ZERO", 0x900000, 0xF080FF⟩,
   ⟨"NOTE_ON", 0x900000, 0xF08080⟩,
   ⟨"PITCH_WHEEL", 0xE00000, 0xF00000⟩,
   ⟨"OTHER", 0xA00000, 0xE00000⟩,
   ⟨"OTHER", 0xC00000, 0xE00000⟩,
   ⟨"OTHER", 0xF00000, 0xF00000⟩]

/-- The word matches the row. -/
def TableRow.fits (r : TableRow) (w : Nat) : Bool := w &&& r.mask == r.pattern

/-- The mnemonic of an instruction, as spec/opcode_table.json spells it. -/
def Instr.mnemonic : Instr → String
  | .reset _ _ => "RESET"
  | .param _ _ => "PARAM"
  | .midi _ _ _ _ => "MIDI"
  | .process _ => "PROCESS"
  | .setkey _ => "SETKEY"
  | .qactive => "QACTIVE"
  | .qkey _ => "QKEY"
  | .rdreg _ => "RDREG"
  | .clrstat _ _ => "CLRSTAT"
  | .notStatus _ _ _ => "NOT_STATUS"
  | .noteMalformedD1 _ _ _ => "NOTE_MALFORMED"
  | .noteMalformedD2 _ _ _ => "NOTE_MALFORMED"
  | .noteOff _ _ _ => "NOTE_OFF"
  | .noteOnZero _ _ => "NOTE_ON_ZERO"
  | .noteOn _ _ _ => "NOTE_ON"
  | .pitchWheel _ _ _ => "PITCH_WHEEL"
  | .otherAB _ _ _ => "OTHER"
  | .otherCD _ _ _ => "OTHER"
  | .otherF _ _ _ => "OTHER"

end Sys2Proof
end

