-- ==== Sys2Proof/Machine/State.lean ====
section
/-! DEFINITION. The state of the block (R31, spec/10_state.md), as plain data, and its power-on value
(R350, spec/70_reset_and_hazards.md). -/

namespace Sys2Proof.Machine

/-- The envelope stage (R34): IDLE 0, ATTACK 1, DECAY 2, SUSTAIN 3, RELEASE 4. -/
inductive Stage where
  | idle
  | attack
  | decay
  | sustain
  | release
  deriving DecidableEq, Repr

/-- One voice of the voice file (R32). -/
structure Voice where
  key : Key
  stage : Stage
  vel : Velocity
  phase : BitVec 32
  inc : BitVec 32
  lvl : Level
  rel : Level
  deriving DecidableEq, Repr

/-- A voice at power-on (R350). -/
def Voice.powerOn : Voice where
  key := none
  stage := .idle
  vel := 0#7
  phase := 0#32
  inc := 0#32
  lvl := 0#31
  rel := 0#31

/-- One entry of the MIDI queue (R44): the three bytes as they were given, and the offset. -/
structure Entry where
  st : BitVec 8
  d1 : BitVec 8
  d2 : BitVec 8
  ofs : BitVec 16
  deriving DecidableEq, Repr

/-- One stereo frame of the audio port (R50): channel 0, then channel 1. -/
structure Frame where
  ch0 : Sample
  ch1 : Sample
  deriving DecidableEq, Repr

/-- The flags of STATUS (R40, R322). -/
inductive Flag where
  | qovf
  | ofserr
  | rszdrop
  | cfgerr
  | badcmd
  deriving DecidableEq, Repr

/-- The two host agents (R330). -/
inductive Agent where
  | audio
  | control
  deriving DecidableEq, Repr

/-- The block takes no trap, exception or fault of any kind (R320, R326): there is no fault to
name, so this type has no value. Nothing raises one; safe. -/
inductive Fault where
  deriving DecidableEq, Repr

/-- The reasons a step is refused. -/
inductive Refusal where
  /-- Answered by an arm of `exec` for an instruction that has no meaning yet (none is left). Safe. -/
  | notModelled (mnemonic : String)
  /-- Answered by `step` alone, in a state whose configuration is outside the ranges of R6: "A
  configuration outside these ranges is not a configuration of this hardware, and a model refuses
  it". Safe. -/
  | illegalConfiguration
  deriving DecidableEq, Repr

/-- The state. The spec's own (R31): `voices` to `lastKey`. Four DESIGN CHOICES hold more: the
configuration (R6, log entry 1), `cfg`; the output streams (R50, log entry 4), `resp` and `frames`; the
host agents' streams and the merge counter (R330, log entries 3 and 5); the dispatch slot (log entry
6). -/
structure State where
  /-- The parameters of R6. -/
  cfg : Config
  /-- The voice file, V[0] first (R32). -/
  voices : List Voice
  /-- SR (R37). -/
  sr : BitVec 24
  /-- BS (R38). -/
  bs : BitVec 16
  /-- ATK_T (R39). -/
  atkT : BitVec 32
  /-- DEC_T (R39). -/
  decT : BitVec 32
  /-- SUS (R39). -/
  sus : Level
  /-- REL_T (R39). -/
  relT : BitVec 32
  /-- STATUS (R40). -/
  status : BitVec 32
  /-- DROP_COUNT (R41). -/
  dropCount : BitVec 32
  /-- The MIDI queue, head first (R43). -/
  queue : List Entry
  /-- CUR_KEY (R45). -/
  curKey : Key
  /-- LAST_KEY (R46). -/
  lastKey : Key
  /-- The words placed on the response port, oldest first (R50). -/
  resp : List RespWord
  /-- The frames placed on the audio port, oldest first (R50). -/
  frames : List Frame
  /-- The audio thread's commands not yet taken, oldest first (R330). -/
  audioIn : List CmdWord
  /-- The control thread's commands not yet taken, oldest first (R330). -/
  controlIn : List CmdWord
  /-- How many free merge choices have been made (R330; the model's own field, log entry 3). -/
  merges : Nat
  /-- A message handed straight to the dispatcher of R252 (the model's own field, log entry 6). No
  command fills it. -/
  dispatchSlot : Option MsgWord
  deriving DecidableEq, Repr

/-- The state right after power-on with configuration `c` (R350, R351). -/
def State.powerOn (c : Config) : State where
  cfg := c
  voices := List.replicate c.P Voice.powerOn
  sr := 44100#24
  bs := 512#16
  atkT := 0#32
  decT := 0#32
  sus := 0x40000000#31
  relT := 0#32
  status := 0#32
  dropCount := 0#32
  queue := []
  curKey := none
  lastKey := none
  resp := []
  frames := []
  audioIn := []
  controlIn := []
  merges := 0
  dispatchSlot := none

/-- The machine right after reset: power-on (R352: "Power-on is the only reset") with the default
configuration of R6 (DESIGN CHOICE, log entries 1 and 2). -/
def State.reset : State := State.powerOn Config.default

end Sys2Proof.Machine
end

