-- ==== Sys2Proof/Machine/Flags.lean ====
section
/-! DEFINITION. STATUS and DROP_COUNT: every flag computation of the spec (R10, R40, R41, R287, R322). -/

namespace Sys2Proof.Machine

/-- The number of a flag's STATUS bit (R40); it is the error code of R322. -/
def flagBit : Flag → Nat
  | .qovf => 0
  | .ofserr => 1
  | .rszdrop => 2
  | .cfgerr => 3
  | .badcmd => 4

/-- The flag is set in a STATUS value. -/
def flagIn (f : Flag) (status : BitVec 32) : Bool := status.getLsbD (flagBit f)

/-- `setflag(F)` (R10): the flag is set, the others stay (R323: "A flag already set stays set"). -/
def State.setFlag (f : Flag) (s : State) : State :=
  { s with status := s.status ||| BitVec.ofNat 32 (2 ^ flagBit f) }

/-- `lose(k)` (R10, R41): the drop counter rises by `k`, saturating at `2^32 - 1`. -/
def State.lose (k : Nat) (s : State) : State :=
  { s with dropCount := BitVec.ofNat 32 (min (s.dropCount.toNat + k) (2 ^ 32 - 1)) }

/-- STATUS with the selected flags cleared: `STATUS AND NOT zext_32(m[4:0])` (R287). -/
def State.clearFlags (flags : BitVec 5) (s : State) : State :=
  { s with status := s.status &&& ~~~(flags.setWidth 32) }

/-- DROP_COUNT cleared if selected (R287). -/
def State.clearDrops (drops : Bool) (s : State) : State :=
  { s with dropCount := if drops then 0#32 else s.dropCount }

end Sys2Proof.Machine
end

