-- ==== Sys2Proof/Machine/Operands.lean ====
section
/-! DEFINITION. Operand and number forms: the level format, the rounding, the encodings of keys and
stages, the parameter registers (R11, R12, R33, R34, R39, R113). -/

namespace Sys2Proof.Machine

/-- ONE (R11): the envelope level that stands for 1.0. -/
def ONE : Nat := 2 ^ 30

/-- A number stored as a level: every rule that stores one states that it is at most ONE. -/
def levelOf (n : Nat) : Level := BitVec.ofNat 31 n

/-- `RNE(a / d)` (R12): the nearest integer, a tie going to the even one. -/
def rne (a : Int) (d : Nat) : Int :=
  let q := a / (d : Int)
  let r := a % (d : Int)
  if 2 * r < d then q
  else if (d : Int) < 2 * r then q + 1
  else if q % 2 = 0 then q else q + 1

/-- The code of a stage (R34). -/
def stageCode : Stage → Nat
  | .idle => 0
  | .attack => 1
  | .decay => 2
  | .sustain => 3
  | .release => 4

/-- The code of LOOKUP (R6). -/
def lookupBit : Lookup → BitVec 1
  | .nearest => 0#1
  | .linear => 1#1

/-- The code of RETRIG (R6). -/
def retrigBit : Retrig → BitVec 1
  | .reallocate => 0#1
  | .retrigger => 1#1

/-- The value PARAM stores for SUSTAIN: `min(val, ONE)` (R282). -/
def susOf (value : BitVec 32) : Level := levelOf (min value.toNat ONE)

/-- One envelope parameter register written (R39, R282). -/
def State.setParam (pid : ParamId) (value : BitVec 32) (s : State) : State :=
  match pid with
  | .attack => { s with atkT := value }
  | .decay => { s with decT := value }
  | .sustain => { s with sus := susOf value }
  | .release => { s with relT := value }

/-- SR and BS written (R281). -/
def State.setRates (bs : BitVec 16) (sr : BitVec 24) (s : State) : State :=
  { s with bs := bs, sr := sr }

end Sys2Proof.Machine
end

