-- ==== Sys2Proof/Machine/Ops.lean ====
section
/-! DEFINITION. The named operations over the ports and the register fields. The block takes no
exception (R320, R326): what another machine has as taking an exception is here the rejection of a
word, `State.reject` (R110); there is nothing to return from. -/

namespace Sys2Proof.Machine

/-! ## The configuration -/

/-- The configuration is one of this hardware (R6): P 1 to 32, W 1 to 16, BRIDGE_VEL 1 to 127. A table list
of any length is accepted; an entry past the first `2 ^ W` is never read (DESIGN CHOICE, log entry 2). -/
def configLegal (c : Config) : Bool :=
  decide (1 ≤ c.P) && decide (c.P ≤ 32) && decide (1 ≤ c.W) && decide (c.W ≤ 16) &&
    c.bridgeVel != 0#7

/-- `TableRead(i)` (R81): the signed sample at index `i`; free where the configuration gives none (log
entry 2). -/
def tableRead (c : Config) (i : Nat) : Int :=
  match c.table[i]? with
  | some x => x.toInt
  | none => (Config.freeSample i).toInt

/-! ## The output ports -/

/-- `respond(w)` (R10). -/
def State.respond (w : RespWord) (s : State) : State := { s with resp := s.resp ++ [w] }

/-- `emit(a, b)` for each frame of a list, in order (R10). -/
def State.emit (fs : List Frame) (s : State) : State := { s with frames := s.frames ++ fs }

/-! ## The rest of the state, written whole -/

/-- The voice file written. -/
def State.setVoices (vs : List Voice) (s : State) : State := { s with voices := vs }

/-- The queue written. -/
def State.setQueue (q : List Entry) (s : State) : State := { s with queue := q }

/-- CUR_KEY written (R285). -/
def State.setCurKey (k : Key) (s : State) : State := { s with curKey := k }

/-- LAST_KEY written (R251). -/
def State.setLastKey (k : Key) (s : State) : State := { s with lastKey := k }

/-- The dispatch slot written (log entry 6). -/
def State.setSlot (m : Option MsgWord) (s : State) : State := { s with dispatchSlot := m }

/-- The host streams and the merge counter written (R330). -/
def State.setStreams (audio control : List CmdWord) (k : Nat) (s : State) : State :=
  { s with audioIn := audio, controlIn := control, merges := k }

/-! ## Rejected words -/

/-- The opcode is QACTIVE's, QKEY's or RDREG's (R110). -/
def isQueryOpc (opc : BitVec 8) : Bool := opc == 0x06#8 || opc == 0x07#8 || opc == 0x08#8

/-- A rejected command word (R110): STATUS.BADCMD, and one response 0 for OPC 0x06 to 0x08. -/
def State.reject (w : CmdWord) (s : State) : State :=
  if isQueryOpc (bits w 56 8) then (s.setFlag .badcmd).respond 0#32 else s.setFlag .badcmd

/-! ## The command port -/

/-- A host agent's own step (R330): it appends a command word to its own stream. -/
def State.issue (a : Agent) (w : CmdWord) (s : State) : State :=
  match a with
  | .audio => s.setStreams (s.audioIn ++ [w]) s.controlIn s.merges
  | .control => s.setStreams s.audioIn (s.controlIn ++ [w]) s.merges

/-- The next command word and the state once it is taken (R330): from the stream that is not empty;
when neither is, the choice is free (log entry 3). -/
def State.takeCommand (s : State) : Option (CmdWord × State) :=
  match s.audioIn, s.controlIn with
  | [], [] => none
  | w :: ws, [] => some (w, s.setStreams ws [] s.merges)
  | [], w :: ws => some (w, s.setStreams [] ws s.merges)
  | a :: as, c :: cs =>
    if Config.audioFirst s.merges then some (a, s.setStreams as (c :: cs) (s.merges + 1))
    else some (c, s.setStreams (a :: as) cs (s.merges + 1))

/-! ## Derived reads -/

/-- A voice is busy when its stage is not IDLE (R35). -/
def Voice.busy (v : Voice) : Bool := v.stage != .idle

/-- ACTIVE (R49): the number of busy voices. -/
def State.activeCount (s : State) : Nat := s.voices.countP Voice.busy

end Sys2Proof.Machine
end

