-- ==== Sys2Proof/Machine/Queue.lean ====
section
/-! DEFINITION. The MIDI event queue (spec/43_midi_queue.md, R220 to R229). -/

namespace Sys2Proof.Machine

/-- The queue with `e` inserted after every entry whose offset is at most its own (R221). -/
def qInsert (e : Entry) (q : List Entry) : List Entry :=
  let k := q.countP (fun x => decide (x.ofs.toNat ≤ e.ofs.toNat))
  q.take k ++ e :: q.drop k

/-- `QAdd(e)` (R221): a full queue drops the message, sets QOVF and counts it. -/
def State.qAdd (e : Entry) (s : State) : State :=
  if s.bs.toNat ≤ s.queue.length then (s.setFlag .qovf).lose 1
  else s.setQueue (qInsert e s.queue)

/-- `QPeek()` (R222): the earliest entry; `none` on an empty queue, where it is never performed
(DESIGN CHOICE, log entry 10). -/
def State.qPeek (s : State) : Option Entry := s.queue.head?

/-- `QRemove()` (R223). -/
def State.qRemove (s : State) : State := s.setQueue s.queue.tail

/-- `QEmpty()` (R224). -/
def State.qEmpty (s : State) : Bool := s.queue.isEmpty

/-- The entries a resize to `n` keeps (R226): the first `n` of those with offset below `n`, in order. -/
def resized (n : Nat) (q : List Entry) : List Entry :=
  (q.filter (fun e => decide (e.ofs.toNat < n))).take n

/-- `QResize(n)` (R226). -/
def State.qResize (n : Nat) (s : State) : State :=
  let kept := resized n s.queue
  let k := s.queue.length - kept.length
  if 0 < k then ((s.setFlag .rszdrop).lose k).setQueue kept else s.setQueue kept

/-- The entry moved `n` samples earlier (R227). -/
def Entry.earlier (n : Nat) (e : Entry) : Entry := { e with ofs := BitVec.ofNat 16 (e.ofs.toNat - n) }

/-- The queue after a block of `n` frames (R227). -/
def flushed (n : Nat) (q : List Entry) : List Entry :=
  (q.filter (fun e => decide (n ≤ e.ofs.toNat))).map (Entry.earlier n)

/-- `QFlush(n)` (R227). -/
def State.qFlush (n : Nat) (s : State) : State := s.setQueue (flushed n s.queue)

end Sys2Proof.Machine
end

