-- ==== Sys2Proof/Machine/Registers.lean ====
section
/-! DEFINITION. The register-number map of RDREG (R83, spec/20_memory.md). -/

namespace Sys2Proof.Machine

/-- CFGID (R48, D32): `{0, BRIDGE_VEL, 6'b0, RETRIG, LOOKUP, 3'b0, W, 2'b0, P}`. -/
def cfgId (c : Config) : BitVec 32 :=
  0#1 ++ c.bridgeVel ++ 0#6 ++ retrigBit c.retrig ++ lookupBit c.lookup ++ 0#3 ++
    BitVec.ofNat 5 c.W ++ 0#2 ++ BitVec.ofNat 6 c.P

/-- Field `f` of a voice, zero-extended: 0 key, 1 stage, 2 vel, 3 phase, 4 inc, 5 lvl, 6 rel (R83). -/
def voiceField (v : Voice) (f : Nat) : Option (BitVec 32) :=
  match f with
  | 0 => some ((keyByte v.key).setWidth 32)
  | 1 => some (BitVec.ofNat 32 (stageCode v.stage))
  | 2 => some (v.vel.setWidth 32)
  | 3 => some v.phase
  | 4 => some v.inc
  | 5 => some (v.lvl.setWidth 32)
  | 6 => some (v.rel.setWidth 32)
  | _ => none

/-- The two words of a queue entry (R83): 0 the message `{0x00, ST, D1, D2}`, 1 the offset. -/
def entryField (e : Entry) (f : Nat) : BitVec 32 :=
  if f = 0 then (msgWord e.st e.d1 e.d2).setWidth 32 else e.ofs.setWidth 32

/-- The global registers 0x000 to 0x00C (R83). -/
def globalReg (s : State) (r : Nat) : Option (BitVec 32) :=
  match r with
  | 0x0 => some (s.sr.setWidth 32)
  | 0x1 => some (s.bs.setWidth 32)
  | 0x2 => some s.atkT
  | 0x3 => some s.decT
  | 0x4 => some (s.sus.setWidth 32)
  | 0x5 => some s.relT
  | 0x6 => some s.status
  | 0x7 => some s.dropCount
  | 0x8 => some (BitVec.ofNat 32 s.queue.length)
  | 0x9 => some (BitVec.ofNat 32 s.activeCount)
  | 0xA => some ((keyByte s.curKey).setWidth 32)
  | 0xB => some ((keyByte s.lastKey).setWidth 32)
  | 0xC => some (cfgId s.cfg)
  | _ => none

/-- The value of register number `r` (R83), or none for a number that names no register. The voice numbers
start at 0x100, the queue numbers at 0x100000; with at most 32 voices the ranges do not meet. -/
def readReg (s : State) (r : Nat) : Option (BitVec 32) :=
  if r < 0x100 then globalReg s r
  else if r < 0x100000 then
    match s.voices[(r - 0x100) / 8]? with
    | some v => voiceField v ((r - 0x100) % 8)
    | none => none
  else
    match s.queue[(r - 0x100000) / 2]? with
    | some e => some (entryField e ((r - 0x100000) % 2))
    | none => none

end Sys2Proof.Machine
end

