-- ==== Sys2Proof/Machine/Envelope.lean ====
section
/-! DEFINITION. The ADSR envelope generator (spec/41_envelope.md, R160 to R170). -/

namespace Sys2Proof.Machine

/-- `samples(t_us, sr)` (R161): the stage time in whole samples, rounded half up. -/
def samples (t sr : Nat) : Nat := (t * sr + 500000) / 1000000

/-- N_A (R161). -/
def State.attackSamples (s : State) : Nat := samples s.atkT.toNat s.sr.toNat

/-- N_D (R161). -/
def State.decaySamples (s : State) : Nat := samples s.decT.toNat s.sr.toNat

/-- N_R (R161). -/
def State.releaseSamples (s : State) : Nat := samples s.relT.toNat s.sr.toNat

/-- The step of a ramp over `d` in `n` samples (R162): ONE for a ramp of no samples, else at least 1. -/
def rampStep (d n : Nat) : Nat := if n = 0 then ONE else max 1 (d / n)

/-- A_INC (R162). -/
def State.attackInc (s : State) : Nat := rampStep ONE s.attackSamples

/-- D_DEC (R162). -/
def State.decayDec (s : State) : Nat := rampStep (ONE - s.sus.toNat) s.decaySamples

/-- R_DEC(i) (R162), from the voice's own release start level. -/
def State.releaseDec (s : State) (v : Voice) : Nat := rampStep v.rel.toNat s.releaseSamples

/-- `EnvProcess` in ATTACK (R163). -/
def envAttack (s : State) (v : Voice) : Voice :=
  if ONE ≤ v.lvl.toNat + s.attackInc then { v with lvl := levelOf ONE, stage := .decay }
  else { v with lvl := levelOf (v.lvl.toNat + s.attackInc) }

/-- `EnvProcess` in DECAY (R164). -/
def envDecay (s : State) (v : Voice) : Voice :=
  if v.lvl.toNat ≤ s.sus.toNat + s.decayDec then { v with lvl := s.sus, stage := .sustain }
  else { v with lvl := levelOf (v.lvl.toNat - s.decayDec) }

/-- `EnvProcess` in SUSTAIN (R165). -/
def envSustain (s : State) (v : Voice) : Voice := { v with lvl := s.sus }

/-- `EnvProcess` in RELEASE (R166). -/
def envRelease (s : State) (v : Voice) : Voice :=
  if v.lvl.toNat ≤ s.releaseDec v then { v with lvl := levelOf 0, stage := .idle }
  else { v with lvl := levelOf (v.lvl.toNat - s.releaseDec v) }

/-- `EnvProcess` (R163 to R167): the voice after the call; the level it returns is the new `lvl` (R169). It
is never called on an IDLE voice, which it would leave alone (R167; DESIGN CHOICE, log entry 10). -/
def envProcess (s : State) (v : Voice) : Voice :=
  match v.stage with
  | .idle => v
  | .attack => envAttack s v
  | .decay => envDecay s v
  | .sustain => envSustain s v
  | .release => envRelease s v

end Sys2Proof.Machine
end

