-- ==== Sys2Proof/Machine/Oscillator.lean ====
section
/-! DEFINITION. The wavetable oscillator (spec/40_oscillator.md, R140 to R147). -/

namespace Sys2Proof.Machine

/-! ## PitchInc

R140's increment is `RNE(x) mod 2^32` for the real `x = 2^32 * 440 * 2^((n - 69) / 12) / sr`. Whether an
integer `m` is at most `2 x` is a comparison of naturals: `m * sr ≤ 2^33 * 440 * 2^((n - 69) / 12)`, both
sides raised to the twelfth power and multiplied by `2^69`. So the rounding is computed exactly
(DEDUCED, log entry 8). -/

/-- `m ≤ 2 x`, for the `x` of note `n` at sample rate `sr`. -/
def atMostTwice (n sr m : Nat) : Bool := decide ((m * sr) ^ 12 * 2 ^ 69 ≤ (2 ^ 33 * 440) ^ 12 * 2 ^ n)

/-- `m = 2 x`. -/
def isTwice (n sr m : Nat) : Bool := decide ((m * sr) ^ 12 * 2 ^ 69 = (2 ^ 33 * 440) ^ 12 * 2 ^ n)

/-- The greatest `a + k` with `k < 2 ^ b` that passes a test that only small numbers pass, bit by bit
from the top. -/
def greatest (p : Nat → Bool) : Nat → Nat → Nat
  | 0, a => a
  | b + 1, a => if p (a + 2 ^ b) then greatest p b (a + 2 ^ b) else greatest p b a

/-- `floor(2 x)`; at the highest note and the lowest rate `2 x < 2^48`. -/
def floorTwice (n sr : Nat) : Nat := greatest (atMostTwice n sr) 48 0

/-- `RNE(x)` (R12) from `f = floor(2 x)`: an even `f` rounds down, an odd one up, unless `x` is exactly
halfway, when it goes to the even neighbour. -/
def pitchRne (n sr : Nat) : Nat :=
  let f := floorTwice n sr
  if f % 2 = 0 then f / 2
  else if isTwice n sr f && f / 2 % 2 == 0 then f / 2
  else f / 2 + 1

/-- `PitchInc(n, sr)` (R140), the configuration function `incOf` of R141. -/
def incOf (n : Note) (sr : BitVec 24) : BitVec 32 := BitVec.ofNat 32 (pitchRne n.toNat sr.toNat)

/-! ## Lookup -/

/-- `F = 32 - W` (R142, R143). -/
def fracBits (c : Config) : Nat := 32 - c.W

/-- `OscSample` for LOOKUP = NEAREST (R142). -/
def sampleNearest (c : Config) (phase : BitVec 32) : Int :=
  let f := fracBits c
  tableRead c ((phase.toNat + 2 ^ (f - 1)) % 2 ^ 32 / 2 ^ f)

/-- `OscSample` for LOOKUP = LINEAR (R143). -/
def sampleLinear (c : Config) (phase : BitVec 32) : Int :=
  let f := fracBits c
  let j := phase.toNat / 2 ^ f
  let r := phase.toNat % 2 ^ f
  let a := tableRead c j
  let b := tableRead c ((j + 1) % 2 ^ c.W)
  a + (b - a) * r / 2 ^ f

/-- `OscSample` by LOOKUP (R142, R143). -/
def oscSample (c : Config) (phase : BitVec 32) : Int :=
  match c.lookup with
  | .nearest => sampleNearest c phase
  | .linear => sampleLinear c phase

/-- The phase advance of `OscProcess` (R144): modulo `2^32`. -/
def oscAdvance (v : Voice) : Voice := { v with phase := v.phase + v.inc }

end Sys2Proof.Machine
end

