-- ==== Sys2Proof/Machine/Pool.lean ====
section
/-! DEFINITION. The polyphonic voice pool and allocator (spec/42_voice_pool.md, R190 to R198). -/

namespace Sys2Proof.Machine

/-- The gain `G(i) = lvl * vel` of a voice, exact (R168). -/
def Voice.gain (v : Voice) : Nat := v.lvl.toNat * v.vel.toNat

/-- The scan of R190's second loop: from voice number `i` on, with the best so far `best` of gain `g`. -/
def quietestFrom : List Voice → Nat → Nat → Nat → Nat
  | [], _, best, _ => best
  | v :: vs, i, best, g =>
    if v.gain < g then quietestFrom vs (i + 1) i v.gain else quietestFrom vs (i + 1) best g

/-- The index of the quietest voice, the lowest index winning ties (R190). -/
def quietest : List Voice → Nat
  | [] => 0
  | v :: vs => quietestFrom vs 1 0 v.gain

/-- `FindFreeVoice()` (R190): the first IDLE voice, else the quietest. -/
def findFreeVoice (vs : List Voice) : Nat :=
  match vs.findIdx? (fun v => !v.busy) with
  | some i => i
  | none => quietest vs

/-- `FirstBound(n)` (R194): the lowest index of a busy voice bound to `n`. -/
def firstBound (n : Note) (vs : List Voice) : Option Nat :=
  vs.findIdx? (fun v => v.key == some n && v.busy)

/-- `Release(i)` on the voice itself (R193). A voice in RELEASE or IDLE is never given to it and would not
change (spec/93 I25; DESIGN CHOICE, log entry 10). -/
def releaseVoice (v : Voice) : Voice :=
  match v.stage with
  | .idle => v
  | .release => v
  | .attack => { v with key := none, rel := v.lvl, stage := .release }
  | .decay => { v with key := none, rel := v.lvl, stage := .release }
  | .sustain => { v with key := none, rel := v.lvl, stage := .release }

/-- The voice a note-on writes (R191): all seven fields. -/
def startedVoice (n : Note) (vel : Velocity) (sr : BitVec 24) : Voice where
  key := some n
  stage := .attack
  vel := vel
  phase := 0#32
  inc := incOf n sr
  lvl := 0#31
  rel := 0#31

/-- `Release(j)` (R193). -/
def State.releaseAt (j : Nat) (s : State) : State := s.setVoices (s.voices.modify j releaseVoice)

/-- The writes of R191 to voice `i`. -/
def State.startAt (i : Nat) (n : Note) (vel : Velocity) (s : State) : State :=
  s.setVoices (s.voices.set i (startedVoice n vel s.sr))

/-- A note-on that allocates a voice (R191). -/
def State.allocate (n : Note) (vel : Velocity) (s : State) : State :=
  s.startAt (findFreeVoice s.voices) n vel

/-- `NoteOn(n, v)` (R191). -/
def State.noteOn (n : Note) (vel : Velocity) (s : State) : State :=
  match firstBound n s.voices with
  | none => s.allocate n vel
  | some j =>
    match s.cfg.retrig with
    | .retrigger => s.startAt j n vel
    | .reallocate => (s.releaseAt j).allocate n vel

/-- `NoteOff(n)` (R192). -/
def State.noteOff (n : Note) (s : State) : State :=
  match firstBound n s.voices with
  | none => s
  | some j => s.releaseAt j

/-- `KeyPlaying(n)` (R198). -/
def State.keyPlaying (n : Note) (s : State) : BitVec 32 :=
  match firstBound n s.voices with
  | none => 0#32
  | some _ => 1#32

end Sys2Proof.Machine
end

