-- ==== Sys2Proof/Machine/Render.lean ====
section
/-! DEFINITION. The audio render engine (spec/44_render.md, R250 to R264). -/

namespace Sys2Proof.Machine

/-! ## The bridge -/

/-- The note-off the bridge makes for key `k` (R251). -/
def bridgeOff (k : Note) : Entry := ⟨0x80#8, k.setWidth 8, 0#8, 0#16⟩

/-- The note-on the bridge makes for key `k` (R251). -/
def bridgeOn (vel : Velocity) (k : Note) : Entry := ⟨0x90#8, k.setWidth 8, vel.setWidth 8, 0#16⟩

/-- The message made from a key, if it is not NONE, added to the queue (R251). -/
def State.addForKey (make : Note → Entry) (k : Key) (s : State) : State :=
  match k with
  | none => s
  | some n => s.qAdd (make n)

/-- `Bridge()` (R251): the note-off for the old key, then the note-on for the new one, then LAST_KEY. -/
def State.bridge (s : State) : State :=
  if s.curKey = s.lastKey then s
  else ((s.addForKey bridgeOff s.lastKey).addForKey (bridgeOn s.cfg.bridgeVel) s.curKey).setLastKey
    s.curKey

/-! ## Dispatch -/

/-- `Dispatch(e)` (R252), by the class of the message (R114). A message never decodes to a command. -/
def State.dispatch (e : Entry) (s : State) : State :=
  match decodeMsg (msgWord e.st e.d1 e.d2) with
  | .noteOn _ n v => s.noteOn n v
  | .noteOff _ n _ => s.noteOff n
  | .noteOnZero _ n => s.noteOff n
  | .pitchWheel _ _ _ => s
  | .notStatus _ _ _ => s
  | .noteMalformedD1 _ _ _ => s
  | .noteMalformedD2 _ _ _ => s
  | .otherAB _ _ _ => s
  | .otherCD _ _ _ => s
  | .otherF _ _ _ => s
  | .reset _ _ => s
  | .param _ _ => s
  | .midi _ _ _ _ => s
  | .process _ => s
  | .setkey _ => s
  | .qactive => s
  | .qkey _ => s
  | .rdreg _ => s
  | .clrstat _ _ => s

/-- The loop of `DispatchDue(t)` (R253) over a queue: an entry is removed, then dispatched. No dispatch
reads or writes the queue, so the loop runs down the list (DEDUCED, log entry 11). -/
def dispatchLoop (t : Nat) : List Entry → State → State
  | [], s => s.setQueue []
  | e :: q, s =>
    if e.ofs.toNat ≤ t then dispatchLoop t q ((s.setQueue q).dispatch e) else s.setQueue (e :: q)

/-- `DispatchDue(t)` (R253): every message due at frame `t`. -/
def State.dispatchDue (t : Nat) (s : State) : State := dispatchLoop t s.queue s

/-! ## The voice sum and the output -/

/-- One voice in one frame (R254): a busy voice's sample, its phase advanced, its envelope stepped. -/
def stepVoice (s : State) (v : Voice) : Voice :=
  if v.busy then envProcess s (oscAdvance v) else v

/-- The term of one voice in the sum of a frame (R254, R255): `x * lvl * vel` with the level the envelope
step returns; an IDLE voice adds nothing. -/
def voiceTerm (s : State) (v : Voice) : Int :=
  if v.busy then oscSample s.cfg v.phase * (stepVoice s v).lvl.toNat * v.vel.toNat else 0

/-- `VoiceSum()` (R254, R255): the exact sum over the voice file. -/
def voiceSum (s : State) : Int := (s.voices.map (voiceTerm s)).sum

/-- The output value of a sum (R256): `RNE(acc / (2^28 * 635))`. -/
def outValue (acc : Int) : Int := rne acc (2 ^ 28 * 635)

/-- `OutSample(acc)` (R256): the same word on both channels. -/
def outFrame (acc : Int) : Frame := ⟨BitVec.ofInt 32 (outValue acc), BitVec.ofInt 32 (outValue acc)⟩

/-- Steps 3b to 3d of R250: sum, output, and every voice stepped. -/
def State.soundFrame (s : State) : State :=
  (s.setVoices (s.voices.map (stepVoice s))).emit [outFrame (voiceSum s)]

/-- Step 3 of R250 for frame `t`. -/
def State.renderFrame (t : Nat) (s : State) : State := (s.dispatchDue t).soundFrame

/-- Step 3 of R250 for `k` frames from frame `t` on. -/
def renderLoop : Nat → Nat → State → State
  | 0, _, s => s
  | k + 1, t, s => renderLoop k (t + 1) (s.renderFrame t)

/-- The silent frame. -/
def silence : Frame := ⟨0#32, 0#32⟩

/-- `Render(n)` (R250): bridge, fast path (R258), frames, flush. -/
def State.render (n : Nat) (s : State) : State :=
  let b := s.bridge
  if b.activeCount = 0 ∧ b.qEmpty then b.emit (List.replicate n silence)
  else (renderLoop n 0 b).qFlush n

end Sys2Proof.Machine
end

