-- ==== Sys2Proof/Machine/Commands.lean ====
section
/-! DEFINITION. The meanings of the nine host commands (spec/45_commands.md, R281 to R289). -/

namespace Sys2Proof.Machine

/-- RESET (R281): CFGERR for a zero field, else SR and BS written and the queue resized. -/
def execReset (bs : BitVec 16) (sr : BitVec 24) (s : State) : Host.Outcome State Fault Refusal :=
  if sr = 0#24 ∨ bs = 0#16 then .next (s.setFlag .cfgerr)
  else .next ((s.setRates bs sr).qResize bs.toNat)

/-- PARAM (R282). -/
def execParam (pid : ParamId) (value : BitVec 32) (s : State) : Host.Outcome State Fault Refusal :=
  .next (s.setParam pid value)

/-- MIDI (R283): an offset not below BS drops the message, else it is queued. -/
def execMidi (ofs : BitVec 16) (st d1 d2 : BitVec 8) (s : State) : Host.Outcome State Fault Refusal :=
  if s.bs.toNat ≤ ofs.toNat then .next ((s.setFlag .ofserr).lose 1)
  else .next (s.qAdd ⟨st, d1, d2, ofs⟩)

/-- PROCESS (R284). -/
def execProcess (n : BitVec 16) (s : State) : Host.Outcome State Fault Refusal :=
  .next (s.render n.toNat)

/-- SETKEY (R285). -/
def execSetkey (key : Key) (s : State) : Host.Outcome State Fault Refusal := .next (s.setCurKey key)

/-- QACTIVE (R288). -/
def execQactive (s : State) : Host.Outcome State Fault Refusal :=
  .next (s.respond (BitVec.ofNat 32 s.activeCount))

/-- QKEY (R289). -/
def execQkey (key : Note) (s : State) : Host.Outcome State Fault Refusal :=
  .next (s.respond (s.keyPlaying key))

/-- RDREG (R286): an unmapped number sets BADCMD and responds 0. -/
def execRdreg (reg : BitVec 24) (s : State) : Host.Outcome State Fault Refusal :=
  match readReg s reg.toNat with
  | some v => .next (s.respond v)
  | none => .next ((s.setFlag .badcmd).respond 0#32)

/-- CLRSTAT (R287). -/
def execClrstat (flags : BitVec 5) (drops : Bool) (s : State) : Host.Outcome State Fault Refusal :=
  .next ((s.clearFlags flags).clearDrops drops)

end Sys2Proof.Machine
end

