-- ==== Sys2Proof/Machine/Messages.lean ====
section
/-! DEFINITION. The meanings of the ten MIDI message-class rows (R114, R252): what the dispatch of a
message of the class does. -/

namespace Sys2Proof.Machine

/-- NOT_STATUS: nothing (R252). -/
def execNotStatus (_st : BitVec 7) (_d1 _d2 : BitVec 8) (s : State) : Host.Outcome State Fault Refusal :=
  .next s

/-- NOTE_MALFORMED by D1: nothing (R252). -/
def execNoteMalformedD1 (_st : BitVec 5) (_d1 : BitVec 7) (_d2 : BitVec 8) (s : State) :
    Host.Outcome State Fault Refusal :=
  .next s

/-- NOTE_MALFORMED by D2: nothing (R252). -/
def execNoteMalformedD2 (_st : BitVec 5) (_d1 _d2 : BitVec 7) (s : State) :
    Host.Outcome State Fault Refusal :=
  .next s

/-- NOTE_OFF: `NoteOff(n)`; the channel and the velocity are ignored (R115, R192, R252). -/
def execNoteOff (_c : BitVec 4) (n : Note) (_v : Velocity) (s : State) : Host.Outcome State Fault Refusal :=
  .next (s.noteOff n)

/-- NOTE_ON_ZERO: `NoteOff(n)` (R192, R252). -/
def execNoteOnZero (_c : BitVec 4) (n : Note) (s : State) : Host.Outcome State Fault Refusal :=
  .next (s.noteOff n)

/-- NOTE_ON: `NoteOn(n, v)`; the channel is ignored (R115, R191, R252). -/
def execNoteOn (_c : BitVec 4) (n : Note) (v : Velocity) (s : State) : Host.Outcome State Fault Refusal :=
  .next (s.noteOn n v)

/-- PITCH_WHEEL: nothing (R252, R261). -/
def execPitchWheel (_c : BitVec 4) (_d1 _d2 : BitVec 8) (s : State) : Host.Outcome State Fault Refusal :=
  .next s

/-- OTHER, ST 0xA0 to 0xBF: nothing (R252). -/
def execOtherAB (_st : BitVec 5) (_d1 _d2 : BitVec 8) (s : State) : Host.Outcome State Fault Refusal :=
  .next s

/-- OTHER, ST 0xC0 to 0xDF: nothing (R252). -/
def execOtherCD (_st : BitVec 5) (_d1 _d2 : BitVec 8) (s : State) : Host.Outcome State Fault Refusal :=
  .next s

/-- OTHER, ST 0xF0 to 0xFF: nothing (R252). -/
def execOtherF (_st : BitVec 4) (_d1 _d2 : BitVec 8) (s : State) : Host.Outcome State Fault Refusal :=
  .next s

end Sys2Proof.Machine
end

