-- ==== Sys2Proof/Machine/Dispatch.lean ====
section
/-! DEFINITION. The meaning of an instruction: one arm per constructor. -/

namespace Sys2Proof.Machine

def exec (i : Instr) (s : State) : Host.Outcome State Fault Refusal :=
  match i with
  | .reset bs sr => Sys2Proof.Machine.execReset bs sr s
  | .param pid value => Sys2Proof.Machine.execParam pid value s
  | .midi ofs st d1 d2 => Sys2Proof.Machine.execMidi ofs st d1 d2 s
  | .process n => Sys2Proof.Machine.execProcess n s
  | .setkey key => Sys2Proof.Machine.execSetkey key s
  | .qactive => Sys2Proof.Machine.execQactive s
  | .qkey key => Sys2Proof.Machine.execQkey key s
  | .rdreg reg => Sys2Proof.Machine.execRdreg reg s
  | .clrstat flags drops => Sys2Proof.Machine.execClrstat flags drops s
  | .notStatus st d1 d2 => Sys2Proof.Machine.execNotStatus st d1 d2 s
  | .noteMalformedD1 st d1 d2 => Sys2Proof.Machine.execNoteMalformedD1 st d1 d2 s
  | .noteMalformedD2 st d1 d2 => Sys2Proof.Machine.execNoteMalformedD2 st d1 d2 s
  | .noteOff c n v => Sys2Proof.Machine.execNoteOff c n v s
  | .noteOnZero c n => Sys2Proof.Machine.execNoteOnZero c n s
  | .noteOn c n v => Sys2Proof.Machine.execNoteOn c n v s
  | .pitchWheel c d1 d2 => Sys2Proof.Machine.execPitchWheel c d1 d2 s
  | .otherAB st d1 d2 => Sys2Proof.Machine.execOtherAB st d1 d2 s
  | .otherCD st d1 d2 => Sys2Proof.Machine.execOtherCD st d1 d2 s
  | .otherF st d1 d2 => Sys2Proof.Machine.execOtherF st d1 d2 s

end Sys2Proof.Machine
end

