-- ==== Sys2Proof/Machine/Step.lean ====
section
/-! DEFINITION. One step of the block (R280, spec/45_commands.md). -/

namespace Sys2Proof.Machine

/-- One command word, executed or rejected (R280). -/
def runCommand (w : CmdWord) (s : State) : Host.Outcome State Fault Refusal :=
  match decodeCmd w with
  | .ok i => exec i s
  | .error _ => .next (s.reject w)

/-- One step: an illegal configuration is refused (R6); a message in the dispatch slot is dispatched (log
entry 6); else the next command word is taken and runs as one atomic step (R280); with no word waiting,
nothing changes (DESIGN CHOICE, log entry 7). -/
def step (s : State) : Host.Outcome State Fault Refusal :=
  if configLegal s.cfg then
    match s.dispatchSlot with
    | some m => exec (decodeMsg m) (s.setSlot none)
    | none =>
      match s.takeCommand with
      | some (w, t) => runCommand w t
      | none => .next s
  else .refused .illegalConfiguration

/-- `s` with the instruction of an opcode-table row, bits `w`, where the next step fetches it: a command
word at the head of the audio thread's stream, with the control thread's stream empty so that the merge
has no choice; a message in the dispatch slot. A program comes to run from outside the machine, through
`State.issue` (log entry 6). -/
def State.withFetchWord (s : State) (nbits w : Nat) : State :=
  match codeWordOf nbits w with
  | .cmd c => (s.setStreams (c :: s.audioIn) [] s.merges).setSlot none
  | .msg m => s.setSlot (some m)

end Sys2Proof.Machine
end

