-- ==== Sys2Proof/Machine/Assembler.lean ====
section
/-! DEFINITION. The assembler of R116 and the pseudo-instructions of R117 (spec/30_encoding.md), outside
the block: from a line of text to a command word. What R116 leaves open of the text is a DESIGN
CHOICE (log entry 14). -/

namespace Sys2Proof.Machine

/-! ## Statements -/

/-- A statement of R116, with its operands as numbers. -/
inductive CoreLine where
  | reset (sr bs : Nat)
  | param (pid : ParamId) (value : Nat)
  | midi (st d1 d2 ofs : Nat)
  | process (n : Nat)
  | setkey (k : Nat)
  | qactive
  | qkey (k : Nat)
  | rdreg (r : Nat)
  | clrstat (m : Nat)
  deriving DecidableEq, Repr

/-- A line of R116 and R117: a statement, a pseudo-instruction or a raw word. -/
inductive AsmLine where
  | core (c : CoreLine)
  | noteon (k v ofs : Nat)
  | noteoff (k ofs : Nat)
  | pwheel (lsb msb ofs : Nat)
  | rdstat
  | rddrop
  | rdvoice (i f : Nat)
  | rdq (j : Nat)
  | rdqofs (j : Nat)
  | clrall
  | word64 (w : Nat)
  deriving DecidableEq, Repr

/-- An operand as a field of `len` bits: one that does not fit is refused (R116). -/
def fieldOf (len n : Nat) : Option (BitVec len) :=
  if n < 2 ^ len then some (BitVec.ofNat len n) else none

/-- The word of a statement, field by field (R116), before R112's check. -/
def coreWord : CoreLine → Option CmdWord
  | .reset sr bs => do
    let bs ← fieldOf 16 bs
    let sr ← fieldOf 24 sr
    return 0x01#8 ++ 0#8 ++ bs ++ 0#8 ++ sr
  | .param pid value => do
    let value ← fieldOf 32 value
    return 0x02#8 ++ 0#16 ++ pidOf pid ++ value
  | .midi st d1 d2 ofs => do
    let ofs ← fieldOf 16 ofs
    let st ← fieldOf 8 st
    let d1 ← fieldOf 8 d1
    let d2 ← fieldOf 8 d2
    return 0x03#8 ++ 0#8 ++ ofs ++ 0#8 ++ st ++ d1 ++ d2
  | .process n => do
    let n ← fieldOf 16 n
    return 0x04#8 ++ 0#40 ++ n
  | .setkey k => do
    let k ← fieldOf 8 k
    return 0x05#8 ++ 0#48 ++ k
  | .qactive => some (0x06#8 ++ 0#56)
  | .qkey k => do
    let k ← fieldOf 7 k
    return 0x07#8 ++ 0#49 ++ k
  | .rdreg r => do
    let r ← fieldOf 24 r
    return 0x08#8 ++ 0#32 ++ r
  | .clrstat m => do
    let m ← fieldOf 8 m
    return 0x09#8 ++ 0#48 ++ m

/-- A statement assembled: a word that R112 would reject is refused (R116). -/
def assembleCore (c : CoreLine) : Option CmdWord :=
  match coreWord c with
  | none => none
  | some w =>
    match decodeCmd w with
    | .ok _ => some w
    | .error _ => none

/-- The statement a pseudo-instruction expands to (R117). -/
def expand : AsmLine → Option CoreLine
  | .core c => some c
  | .noteon k v ofs => some (.midi 0x90 k v ofs)
  | .noteoff k ofs => some (.midi 0x80 k 0 ofs)
  | .pwheel lsb msb ofs => some (.midi 0xE0 lsb msb ofs)
  | .rdstat => some (.rdreg 0x6)
  | .rddrop => some (.rdreg 0x7)
  | .rdvoice i f => some (.rdreg (0x100 + 8 * i + f))
  | .rdq j => some (.rdreg (0x100000 + 2 * j))
  | .rdqofs j => some (.rdreg (0x100000 + 2 * j + 1))
  | .clrall => some (.clrstat 0x9F)
  | .word64 _ => none

/-- A line assembled; `.word64` gives any 64-bit word (R116). -/
def assemble : AsmLine → Option CmdWord
  | .word64 w => fieldOf 64 w
  | a => (expand a).bind assembleCore

/-! ## Text -/

/-- The value of a digit in a base; a letter is a hexadecimal digit. -/
def digitOf (base : Nat) (c : Char) : Option Nat :=
  let n := c.toNat
  let d := if 48 ≤ n ∧ n ≤ 57 then n - 48
    else if 65 ≤ n ∧ n ≤ 70 then n - 55
    else if 97 ≤ n ∧ n ≤ 102 then n - 87
    else base
  if d < base then some d else none

/-- The digits of a numeral read on from the value `acc`; `_` only groups digits (R8). -/
def digitsFrom (base : Nat) : Nat → List Char → Option Nat
  | acc, [] => some acc
  | acc, c :: cs =>
    if c = '_' then digitsFrom base acc cs
    else match digitOf base c with
      | some d => digitsFrom base (acc * base + d) cs
      | none => none

/-- A number: decimal, or hexadecimal with `0x` (R116). -/
def number (tok : List Char) : Option Nat :=
  match tok with
  | '0' :: 'x' :: d :: ds => if (digitOf 16 d).isSome then digitsFrom 16 0 (d :: ds) else none
  | d :: ds => if (digitOf 10 d).isSome then digitsFrom 10 0 (d :: ds) else none
  | [] => none

/-- A token under construction (reversed) closed and put before the tokens found so far. -/
def closeToken (cur : List Char) (toks : List (List Char)) : List (List Char) :=
  if cur = [] then toks else cur.reverse :: toks

/-- The tokens of a line, in reverse: words, commas and `@`; `;` starts a comment (R116). -/
def tokensFrom : List Char → List Char → List (List Char) → List (List Char)
  | [], cur, toks => closeToken cur toks
  | c :: cs, cur, toks =>
    if c = ';' then closeToken cur toks
    else if c = ' ' ∨ c = '\t' then tokensFrom cs [] (closeToken cur toks)
    else if c = ',' ∨ c = '@' then tokensFrom cs [] ([c] :: closeToken cur toks)
    else tokensFrom cs (c :: cur) toks

/-- The mnemonic and the operand tokens of a line. -/
def tokens (line : String) : List (List Char) := (tokensFrom line.toList [] []).reverse

/-- Operands separated by commas, as numbers, and what stands after them. A comma after the last of
them is let pass (DESIGN CHOICE, log entry 14). -/
def operands : List (List Char) → List Nat × List (List Char)
  | [] => ([], [])
  | [tok] =>
    match number tok with
    | some n => ([n], [])
    | none => ([], [tok])
  | tok :: sep :: rest =>
    match number tok with
    | some n =>
      if sep = [','] then
        let (ns, after) := operands rest
        (n :: ns, after)
      else ([n], sep :: rest)
    | none => ([], tok :: sep :: rest)

/-- The `@ ofs` of a message, 0 when it is left out (R117). -/
def offsetOf : List (List Char) → Option Nat
  | [] => some 0
  | [['@'], tok] => number tok
  | _ => none

/-- The parameter a name stands for (R116). -/
def paramNamed (tok : List Char) : Option ParamId :=
  match String.ofList tok with
  | "ATTACK" => some .attack
  | "DECAY" => some .decay
  | "SUSTAIN" => some .sustain
  | "RELEASE" => some .release
  | _ => none

/-- A line read, from its mnemonic, its numeric operands and its offset. -/
def lineOf (name : String) (ns : List Nat) (ofs : Option Nat) (atEnd : Bool) : Option AsmLine :=
  match name, ns, ofs, atEnd with
  | "RESET", [sr, bs], _, true => some (.core (.reset sr bs))
  | "MIDI", [st, d1, d2], some o, _ => some (.core (.midi st d1 d2 o))
  | "PROCESS", [n], _, true => some (.core (.process n))
  | "SETKEY", [k], _, true => some (.core (.setkey k))
  | "QACTIVE", [], _, true => some (.core .qactive)
  | "QKEY", [k], _, true => some (.core (.qkey k))
  | "RDREG", [r], _, true => some (.core (.rdreg r))
  | "CLRSTAT", [m], _, true => some (.core (.clrstat m))
  | "NOTEON", [k, v], some o, _ => some (.noteon k v o)
  | "NOTEOFF", [k], some o, _ => some (.noteoff k o)
  | "PWHEEL", [l, m], some o, _ => some (.pwheel l m o)
  | "RDSTAT", [], _, true => some .rdstat
  | "RDDROP", [], _, true => some .rddrop
  | "RDVOICE", [i, f], _, true => some (.rdvoice i f)
  | "RDQ", [j], _, true => some (.rdq j)
  | "RDQOFS", [j], _, true => some (.rdqofs j)
  | "CLRALL", [], _, true => some .clrall
  | ".word64", [w], _, true => some (.word64 w)
  | _, _, _, _ => none

/-- A line of text read (R116, R117): `none` for a line the assembler refuses, `some none` for one that
holds no command. The two operands that are names, PARAM's and SETKEY NONE, are read here, and
a comma after the last operand of such a line is refused (DESIGN CHOICE, log entry 14). -/
def parseLine (line : String) : Option (Option AsmLine) :=
  match tokens line with
  | [] => some none
  | [name, arg] =>
    if String.ofList name = "SETKEY" ∧ String.ofList arg = "NONE" then
      some (some (.core (.setkey 0xFF)))
    else
      let (ns, after) := operands [arg]
      (lineOf (String.ofList name) ns (offsetOf after) (after == [])).map some
  | [name, par, sep, value] =>
    if String.ofList name = "PARAM" ∧ sep = [','] then
      match paramNamed par, number value with
      | some pid, some n => some (some (.core (.param pid n)))
      | _, _ => none
    else
      let (ns, after) := operands [par, sep, value]
      (lineOf (String.ofList name) ns (offsetOf after) (after == [])).map some
  | name :: args =>
    let (ns, after) := operands args
    (lineOf (String.ofList name) ns (offsetOf after) (after == [])).map some

/-- A line of text assembled: the words it gives, none or one. -/
def assembleLine (line : String) : Option (List CmdWord) :=
  match parseLine line with
  | none => none
  | some none => some []
  | some (some a) => (assemble a).map (fun w => [w])

/-- A command stream assembled, line by line. -/
def assembleText : List String → Option (List CmdWord)
  | [] => some []
  | line :: rest =>
    match assembleLine line, assembleText rest with
    | some ws, some more => some (ws ++ more)
    | _, _ => none

end Sys2Proof.Machine
end

