-- ==== Sys2Proof/Machine/Transport.lean ====
section
/-! DEFINITION. A byte-wide transport of command and response words, outside the block, with the open
parameter CMD_BYTE_ORDER as an argument (R82, D38; DESIGN CHOICE, log entry 13). -/

namespace Sys2Proof.Machine

/-- Bytes listed from the most significant down, in the order the transport sends them. -/
def inByteOrder (o : ByteOrder) (bytes : List (BitVec 8)) : List (BitVec 8) :=
  match o with
  | .big => bytes
  | .little => bytes.reverse

/-- The 8 bytes of a command word, in the order a transport sends them. -/
def cmdBytes (o : ByteOrder) (w : CmdWord) : List (BitVec 8) :=
  inByteOrder o [bits w 56 8, bits w 48 8, bits w 40 8, bits w 32 8, bits w 24 8, bits w 16 8,
    bits w 8 8, bits w 0 8]

/-- The 4 bytes of a response word, in the order a transport sends them. -/
def respBytes (o : ByteOrder) (w : RespWord) : List (BitVec 8) :=
  inByteOrder o [bits w 24 8, bits w 16 8, bits w 8 8, bits w 0 8]

/-- The command word of 8 bytes received. -/
def cmdOfBytes (o : ByteOrder) (bytes : List (BitVec 8)) : Option CmdWord :=
  match inByteOrder o bytes with
  | [a, b, c, d, e, f, g, h] => some (a ++ b ++ c ++ d ++ e ++ f ++ g ++ h)
  | _ => none

/-- The response word of 4 bytes received. -/
def respOfBytes (o : ByteOrder) (bytes : List (BitVec 8)) : Option RespWord :=
  match inByteOrder o bytes with
  | [a, b, c, d] => some (a ++ b ++ c ++ d)
  | _ => none

end Sys2Proof.Machine
end

