-- ==== Sys2Proof/Safety.lean ====
section
/-! DEFINITION. What counts as a safe run: the invariants of R36 and R229, and runs that never stop. -/

namespace Sys2Proof.Machine

/-- The invariants of one voice: R36 (i), (ii), (iii) and (v), and that a voice in RELEASE is unbound
(DEDUCED from R160, log entry 12). -/
def Voice.Ok (v : Voice) : Prop :=
  v.lvl.toNat ≤ ONE ∧ v.rel.toNat ≤ ONE ∧
  (v.stage = .idle → v.lvl = 0#31 ∧ v.key = none) ∧
  (v.key ≠ none → v.stage ≠ .idle) ∧
  (v.stage = .release → v.key = none) ∧
  (v.stage ≠ .idle → v.vel ≠ 0#7)

/-- Two voices are not bound to one key (R36 (iv)). -/
def NotBothBound (a b : Voice) : Prop := a.key = none ∨ a.key ≠ b.key

/-- The voice file meets its invariants (R32, R36). -/
def VoicesOk (c : Config) (vs : List Voice) : Prop :=
  vs.length = c.P ∧ (∀ v ∈ vs, v.Ok) ∧ vs.Pairwise NotBothBound

/-- The queue meets its invariants (R43, R220, R229): at most BS entries, every offset below BS, in
non-decreasing order. -/
def QueueOk (bs : BitVec 16) (q : List Entry) : Prop :=
  q.length ≤ bs.toNat ∧ (∀ e ∈ q, e.ofs.toNat < bs.toNat) ∧
  q.Pairwise (fun a b => a.ofs.toNat ≤ b.ofs.toNat)

/-- The invariant of the block: a legal configuration (R6), the voice file (R36), the queue (R229), SR and
BS not 0 (R37, R38), SUS at most ONE (R39), STATUS bits 31:5 zero (R40). -/
def State.Inv (s : State) : Prop :=
  configLegal s.cfg = true ∧ VoicesOk s.cfg s.voices ∧ QueueOk s.bs s.queue ∧
  s.sr ≠ 0#24 ∧ s.bs ≠ 0#16 ∧ s.sus.toNat ≤ ONE ∧ s.status.toNat < 32

/-- A run of `k` steps from `s` that neither faults nor is refused, and ends in a state that meets the
invariant. -/
def RunsSafely (k : Nat) (s : State) : Prop := ∃ t, core.run k s = .next t ∧ t.Inv

end Sys2Proof.Machine
end

