-- ==== Sys2Proof/Certificates/Slice0/Obligations.lean ====
section
/-! DEFINITION. The statements about the model, for the provers. Each docstring names the rule of spec/ it
formalises; a value that is the model's own choice is named by its log entry. -/

open Sys2Proof Sys2Proof.Machine

/-! ## Reset, configuration, steps -/

/-- R350: "A model's initial state is this table", for every configuration, and with a legal one it meets the
invariants of R36 and R229, and that a voice in RELEASE is unbound (log entry 12, DEDUCED from R160). That the
machine's reset is power-on with the default configuration of R6, where TABLE gives no sample, is the model's
choice (log entries 1 and 2). -/
def Obligations.PowerOnIsTheTableOfR350 : Prop :=
  (∀ c : Config,
    (State.powerOn c).cfg = c ∧ (State.powerOn c).voices.length = c.P ∧
    (∀ v ∈ (State.powerOn c).voices, v.key = none ∧ v.stage = .idle ∧ v.vel.toNat = 0 ∧
      v.phase.toNat = 0 ∧ v.inc.toNat = 0 ∧ v.lvl.toNat = 0 ∧ v.rel.toNat = 0) ∧
    (State.powerOn c).sr.toNat = 44100 ∧ (State.powerOn c).bs.toNat = 512 ∧
    (State.powerOn c).atkT.toNat = 0 ∧ (State.powerOn c).decT.toNat = 0 ∧
    (State.powerOn c).relT.toNat = 0 ∧ (State.powerOn c).sus.toNat = 2 ^ 30 ∧
    (State.powerOn c).status.toNat = 0 ∧ (State.powerOn c).dropCount.toNat = 0 ∧
    (State.powerOn c).queue = [] ∧ (State.powerOn c).curKey = none ∧
    (State.powerOn c).lastKey = none ∧
    (configLegal c = true → VoicesOk c (State.powerOn c).voices ∧
      QueueOk (State.powerOn c).bs (State.powerOn c).queue)) ∧
  core.reset = State.powerOn Config.default

/-- R350: "This state satisfies every invariant of `10_state.md` rule R36 and `43_midi_queue.md` rule R229", for
every legal configuration. The invariant of the block also says that the configuration is legal (R6), that SR and
BS are not 0 (R37, R38), that SUS is at most ONE (R39), that STATUS bits 31:5 are 0 (R40), and that a voice in
RELEASE is unbound (log entry 12, DEDUCED from R160). -/
def Obligations.PowerOnMeetsTheInvariant : Prop :=
  ∀ c : Config, configLegal c = true → (State.powerOn c).Inv

/-- R6: the legal ranges, and that a step refuses exactly the configurations outside them. Every other step answers
a next state; that it does so with no word waiting, or with a message in the dispatch slot, is the model's choice
(log entries 7 and 6), and so is that no length of the table list is refused (log entry 2). -/
def Obligations.OnlyAnIllegalConfigurationIsRefused : Prop :=
  ∀ s : State,
    (configLegal s.cfg = true ↔
      1 ≤ s.cfg.P ∧ s.cfg.P ≤ 32 ∧ 1 ≤ s.cfg.W ∧ s.cfg.W ≤ 16 ∧
        1 ≤ s.cfg.bridgeVel.toNat ∧ s.cfg.bridgeVel.toNat ≤ 127) ∧
    (configLegal s.cfg = false → step s = .refused .illegalConfiguration) ∧
    (configLegal s.cfg = true → ∃ t, step s = .next t)

/-- Every step, from any state that meets the invariant, keeps it: a legal configuration (R6), the voices (R36), the
queue (R43, R229), SR and BS not 0 (R37, R38), SUS at most ONE (R39), STATUS bits 31:5 zero (R40), and a voice in
RELEASE unbound (log entry 12, DEDUCED from R160). -/
def Obligations.StepKeepsTheInvariant : Prop :=
  ∀ s t : State, s.Inv → step s = .next t → t.Inv

/-- R320: nothing stops the block. From every state that meets the invariant, whatever words wait on the
port, a run of any length goes on and ends in a state that meets it. The run has no host step inside (the
model's choice, log entry 5) and its steps with no word waiting change nothing (the model's choice, log entry 7);
the invariant holds the clause of log entry 12 (a voice in RELEASE is unbound, DEDUCED from R160). -/
def Obligations.NoWordStopsTheBlock : Prop :=
  ∀ (k : Nat) (s : State), s.Inv → RunsSafely k s

/-- R280: a step takes the next command word and, when it decodes, runs that instruction, and adds nothing
around it: the state it runs in is the one with the word taken off its stream. -/
def Obligations.StepRunsTheDecodedInstruction : Prop :=
  ∀ (s t : State) (w : CmdWord) (i : Instr),
    configLegal s.cfg = true → s.dispatchSlot = none → s.takeCommand = some (w, t) →
    decodeCmd w = .ok i → step s = exec i t

/-- R330: the block takes the oldest word of a stream that is not empty, and a host agent's own step appends
to its own stream. Which of two waiting words goes first is free (log entry 3), so the statement names
no order; that an idle step changes nothing is the model's choice (log entry 7). -/
def Obligations.CommandsAreTakenInStreamOrder : Prop :=
  (∀ (s t : State) (w : CmdWord), s.takeCommand = some (w, t) →
    (∃ ws, s.audioIn = w :: ws ∧ t = { s with audioIn := ws, merges := t.merges }) ∨
    (∃ ws, s.controlIn = w :: ws ∧ t = { s with controlIn := ws, merges := t.merges })) ∧
  (∀ s : State, s.takeCommand = none ↔ s.audioIn = [] ∧ s.controlIn = []) ∧
  (∀ (s : State) (w : CmdWord),
    s.issue .audio w = { s with audioIn := s.audioIn ++ [w] } ∧
    s.issue .control w = { s with controlIn := s.controlIn ++ [w] }) ∧
  (∀ s : State, configLegal s.cfg = true → s.dispatchSlot = none → s.audioIn = [] → s.controlIn = [] →
    step s = .next s)

/-- The model's own dispatch slot (log entry 6): a message in it is dispatched as R252 says, by the meaning
of its class, and the dispatch inside PROCESS does the same to the state. -/
def Obligations.DispatchIsTheMeaningOfTheClass : Prop :=
  (∀ (s : State) (m : MsgWord), configLegal s.cfg = true → s.dispatchSlot = some m →
    step s = exec (decodeMsg m) { s with dispatchSlot := none }) ∧
  (∀ (s : State) (e : Entry), exec (decodeMsg (msgWord e.st e.d1 e.d2)) s = .next (s.dispatch e))

/-! ## Encodings -/

/-- R102 to R111, R114: decoding the word of a well-formed instruction gives it back, with every operand. -/
def Obligations.DecodeUndoesEncode : Prop :=
  ∀ i : Instr, i.wellFormed = true → decode (encode i) = .ok i

/-- R102 to R112, R114: an accepted word is the word of the instruction it decodes to, so no reserved bit and
no field is dropped, and what is decoded is well formed. -/
def Obligations.EncodeUndoesDecode : Prop :=
  ∀ (cw : CodeWord) (i : Instr), decode cw = .ok i → i.wellFormed = true ∧ encode i = cw

/-- R118: the worked encodings: the word each statement assembles to, the instruction the word decodes to, and
the word that instruction encodes to. -/
def Obligations.WorkedEncodingsOfR118 : Prop :=
  ∀ p ∈ ([(.core (.reset 44100 512), 0x0100_0200_0000_AC44#64, .reset 512#16 44100#24),
    (.core (.param .attack 10000), 0x0200_0000_0000_2710#64, .param .attack 10000#32),
    (.core (.param .sustain 0x2000_0000), 0x0200_0002_2000_0000#64, .param .sustain 0x2000_0000#32),
    (.noteon 69 127 0, 0x0300_0000_0090_457F#64, .midi 0#16 0x90#8 69#8 127#8),
    (.noteoff 69 100, 0x0300_0064_0080_4500#64, .midi 100#16 0x80#8 69#8 0#8),
    (.core (.process 512), 0x0400_0000_0000_0200#64, .process 512#16),
    (.core (.setkey 60), 0x0500_0000_0000_003C#64, .setkey (some 60#7)),
    (.core (.setkey 0xFF), 0x0500_0000_0000_00FF#64, .setkey none),
    (.core .qactive, 0x0600_0000_0000_0000#64, .qactive),
    (.core (.qkey 69), 0x0700_0000_0000_0045#64, .qkey 69#7),
    (.rdstat, 0x0800_0000_0000_0006#64, .rdreg 6#24),
    (.clrall, 0x0900_0000_0000_009F#64, .clrstat 31#5 true)] : List (AsmLine × CmdWord × Instr)),
  assemble p.1 = some p.2.1 ∧ decodeCmd p.2.1 = .ok p.2.2 ∧ encode p.2.2 = .cmd p.2.1

/-- spec/opcode_table.json: an accepted command word matches its own row and no earlier one; a word matches no
row exactly when its opcode is reserved or a reserved field is not 0; a message has the class of the
first row that matches (R114). -/
def Obligations.DecodeFollowsTheOpcodeTable : Prop :=
  (∀ (w : CmdWord) (i : Instr), decodeCmd w = .ok i →
    (commandRows.find? (fun r => r.fits w.toNat)).map TableRow.mnemonic = some i.mnemonic) ∧
  (∀ w : CmdWord, commandRows.find? (fun r => r.fits w.toNat) = none ↔
    decodeCmd w = .error .reservedOpcode ∨ decodeCmd w = .error .reservedBits) ∧
  (∀ m : MsgWord,
    (messageRows.find? (fun r => r.fits m.toNat)).map TableRow.mnemonic = some (decodeMsg m).mnemonic)

/-- R112, R103, R106: which words are rejected at step (1) and which at step (3). That a CLRSTAT word with a mask bit
6:5 set (R111) is none of the latter, but rejected at step (2) with the same effect, is the model's reading (log
entry 15, DEDUCED). -/
def Obligations.RejectionReasonsOfR112 : Prop :=
  ∀ w : CmdWord,
    (decodeCmd w = .error .reservedOpcode ↔
      (bits w 56 8).toNat = 0 ∨ 0x0A ≤ (bits w 56 8).toNat) ∧
    (decodeCmd w = .error .illegalField ↔
      ((bits w 56 8).toNat = 2 ∧ (bits w 40 16).toNat = 0 ∧ 4 ≤ (bits w 32 8).toNat) ∨
      ((bits w 56 8).toNat = 5 ∧ (bits w 8 48).toNat = 0 ∧
        0x80 ≤ (bits w 0 8).toNat ∧ (bits w 0 8).toNat ≤ 0xFE))

/-- R110: a rejected word sets STATUS.BADCMD (bit 4) and has no other effect on state; it makes one response
word 0 if its opcode is 6, 7 or 8, else none. Every reserved opcode is rejected. -/
def Obligations.RejectedWordSetsOnlyBadcmd : Prop :=
  (∀ w : CmdWord, (bits w 56 8).toNat = 0 ∨ 0x0A ≤ (bits w 56 8).toNat → ∃ r, decodeCmd w = .error r) ∧
  ∀ (s t : State) (w : CmdWord) (r : Reject),
    configLegal s.cfg = true → s.dispatchSlot = none → s.takeCommand = some (w, t) →
    decodeCmd w = .error r →
    ((bits w 56 8).toNat ∈ [6, 7, 8] →
      step s = .next { t with status := t.status ||| 0x10#32, resp := t.resp ++ [0#32] }) ∧
    ((bits w 56 8).toNat ∉ [6, 7, 8] → step s = .next { t with status := t.status ||| 0x10#32 })

/-- R114, R115, R252: the class of a message by its bytes, and what its dispatch does, on every channel. -/
def Obligations.MessageClassesOfR114 : Prop :=
  ∀ (st d1 d2 : BitVec 8) (s : State),
    let i := decodeMsg (msgWord st d1 d2)
    let a := st.toNat
    let wellMade := d1.toNat < 0x80 ∧ d2.toNat < 0x80
    (a < 0x80 → i.mnemonic = "NOT_STATUS" ∧ exec i s = .next s) ∧
    (0x80 ≤ a → a < 0xA0 → ¬wellMade → i.mnemonic = "NOTE_MALFORMED" ∧ exec i s = .next s) ∧
    (0x80 ≤ a → a < 0x90 → wellMade →
      i.mnemonic = "NOTE_OFF" ∧ exec i s = .next (s.noteOff (bits d1 0 7))) ∧
    (0x90 ≤ a → a < 0xA0 → wellMade → d2.toNat = 0 →
      i.mnemonic = "NOTE_ON_ZERO" ∧ exec i s = .next (s.noteOff (bits d1 0 7))) ∧
    (0x90 ≤ a → a < 0xA0 → wellMade → 1 ≤ d2.toNat →
      i.mnemonic = "NOTE_ON" ∧ exec i s = .next (s.noteOn (bits d1 0 7) (bits d2 0 7))) ∧
    (0xE0 ≤ a → a < 0xF0 → i.mnemonic = "PITCH_WHEEL" ∧ exec i s = .next s) ∧
    ((0xA0 ≤ a ∧ a < 0xE0) ∨ 0xF0 ≤ a → i.mnemonic = "OTHER" ∧ exec i s = .next s)

/-! ## The commands -/

/-- R281, R226: RESET with a zero field sets CFGERR (bit 3) and nothing else; otherwise it writes SR and BS,
keeps the first BS of the entries whose offset is below BS, and for `k > 0` entries discarded sets RSZDROP
(bit 2) and adds `k` to the drop counter, saturating. Every other register, the voices among them, is as
it was. -/
def Obligations.ResetReconfiguresRatesAndQueue : Prop :=
  ∀ (bs : BitVec 16) (sr : BitVec 24) (s : State),
    (sr = 0#24 ∨ bs = 0#16 → exec (.reset bs sr) s = .next { s with status := s.status ||| 0x8#32 }) ∧
    (sr ≠ 0#24 → bs ≠ 0#16 →
      let keep := s.queue.filter (fun e => decide (e.ofs.toNat < bs.toNat))
      let kept := keep.take (min keep.length bs.toNat)
      let k := s.queue.length - kept.length
      exec (.reset bs sr) s = .next
        { s with
          sr := sr
          bs := bs
          queue := kept
          status := if 0 < k then s.status ||| 0x4#32 else s.status
          dropCount := BitVec.ofNat 32 (min (s.dropCount.toNat + k) (2 ^ 32 - 1)) })

/-- R226: with a block size at least the old one nothing is discarded, so RESET writes only SR and BS; with
the values it already has it changes nothing (R324 (c)). -/
def Obligations.ResetToALargerBlockKeepsTheQueue : Prop :=
  ∀ (bs : BitVec 16) (sr : BitVec 24) (s : State), s.Inv → sr ≠ 0#24 → s.bs.toNat ≤ bs.toNat →
    exec (.reset bs sr) s = .next { s with sr := sr, bs := bs } ∧
    exec (.reset s.bs s.sr) s = .next s

/-- R282, R39: PARAM writes one register, SUSTAIN clamped to ONE, and nothing else. -/
def Obligations.ParamWritesOneEnvelopeRegister : Prop :=
  ∀ (value : BitVec 32) (s : State),
    exec (.param .attack value) s = .next { s with atkT := value } ∧
    exec (.param .decay value) s = .next { s with decT := value } ∧
    exec (.param .release value) s = .next { s with relT := value } ∧
    ∃ level : Level, level.toNat = min value.toNat (2 ^ 30) ∧
      exec (.param .sustain value) s = .next { s with sus := level }

/-- R283, R221: MIDI drops a message with an offset not below BS (OFSERR, bit 1) or for a full queue (QOVF, bit
0), counting it; else it inserts the message after every entry with an offset at most its own. -/
def Obligations.MidiQueuesOrDropsOneMessage : Prop :=
  ∀ (ofs : BitVec 16) (st d1 d2 : BitVec 8) (s : State),
    let lost := BitVec.ofNat 32 (min (s.dropCount.toNat + 1) (2 ^ 32 - 1))
    (s.bs.toNat ≤ ofs.toNat →
      exec (.midi ofs st d1 d2) s = .next { s with status := s.status ||| 0x2#32, dropCount := lost }) ∧
    (ofs.toNat < s.bs.toNat → s.bs.toNat ≤ s.queue.length →
      exec (.midi ofs st d1 d2) s = .next { s with status := s.status ||| 0x1#32, dropCount := lost }) ∧
    (ofs.toNat < s.bs.toNat → s.queue.length < s.bs.toNat → QueueOk s.bs s.queue →
      exec (.midi ofs st d1 d2) s = .next
        { s with queue :=
            s.queue.filter (fun e => decide (e.ofs.toNat ≤ ofs.toNat)) ++
              ⟨st, d1, d2, ofs⟩ :: s.queue.filter (fun e => decide (ofs.toNat < e.ofs.toNat)) })

/-- R285, R358: SETKEY writes CUR_KEY and nothing else; of several, the last alone counts. -/
def Obligations.SetkeyWritesOnlyCurKey : Prop :=
  ∀ (k : Key) (s : State),
    exec (.setkey k) s = .next { s with curKey := k } ∧
    ∀ (j : Key) (t : State), exec (.setkey j) s = .next t → exec (.setkey k) t = exec (.setkey k) s

/-- R288, R35, R49: QACTIVE responds the number of voices whose stage is not IDLE, which is at most P, and
changes no state. -/
def Obligations.QactiveCountsTheBusyVoices : Prop :=
  ∀ s : State, s.Inv →
    let busy := (s.voices.filter (fun v => decide (v.stage ≠ .idle))).length
    busy ≤ s.cfg.P ∧ (BitVec.ofNat 32 busy).toNat = busy ∧
    exec .qactive s = .next { s with resp := s.resp ++ [BitVec.ofNat 32 busy] }

/-- R289, R198: QKEY responds 1 if a busy voice is bound to the key, else 0, and changes no state. -/
def Obligations.QkeyAsksForABusyBoundVoice : Prop :=
  ∀ (k : Note) (s : State),
    ((∃ v ∈ s.voices, v.key = some k ∧ v.stage ≠ .idle) →
      exec (.qkey k) s = .next { s with resp := s.resp ++ [1#32] }) ∧
    ((∀ v ∈ s.voices, v.key = some k → v.stage = .idle) →
      exec (.qkey k) s = .next { s with resp := s.resp ++ [0#32] })

/-- R286, R83, R48: the value RDREG responds for every register of the map; it changes no state. -/
def Obligations.RdregReadsTheRegisterMap : Prop :=
  ∀ s : State, s.Inv →
    let reads := fun (r : Nat) (v : BitVec 32) =>
      exec (.rdreg (BitVec.ofNat 24 r)) s = .next { s with resp := s.resp ++ [v] }
    let keyWord := fun (k : Key) =>
      match k with
      | none => 0xFF#32
      | some n => n.setWidth 32
    let stageWord := fun (g : Stage) =>
      match g with
      | .idle => 0#32
      | .attack => 1#32
      | .decay => 2#32
      | .sustain => 3#32
      | .release => 4#32
    reads 0x0 (s.sr.setWidth 32) ∧ reads 0x1 (s.bs.setWidth 32) ∧ reads 0x2 s.atkT ∧
    reads 0x3 s.decT ∧ reads 0x4 (s.sus.setWidth 32) ∧ reads 0x5 s.relT ∧ reads 0x6 s.status ∧
    reads 0x7 s.dropCount ∧ reads 0x8 (BitVec.ofNat 32 s.queue.length) ∧
    reads 0x9 (BitVec.ofNat 32 (s.voices.filter (fun v => decide (v.stage ≠ .idle))).length) ∧
    reads 0xA (keyWord s.curKey) ∧ reads 0xB (keyWord s.lastKey) ∧
    reads 0xC (BitVec.ofNat 32 (s.cfg.P + s.cfg.W * 2 ^ 8 +
      (if s.cfg.lookup = .linear then 2 ^ 16 else 0) +
      (if s.cfg.retrig = .retrigger then 2 ^ 17 else 0) + s.cfg.bridgeVel.toNat * 2 ^ 24)) ∧
    (∀ (i : Nat) (v : Voice), s.voices[i]? = some v →
      reads (0x100 + 8 * i) (keyWord v.key) ∧ reads (0x100 + 8 * i + 1) (stageWord v.stage) ∧
      reads (0x100 + 8 * i + 2) (v.vel.setWidth 32) ∧ reads (0x100 + 8 * i + 3) v.phase ∧
      reads (0x100 + 8 * i + 4) v.inc ∧ reads (0x100 + 8 * i + 5) (v.lvl.setWidth 32) ∧
      reads (0x100 + 8 * i + 6) (v.rel.setWidth 32)) ∧
    (∀ (j : Nat) (e : Entry), s.queue[j]? = some e →
      reads (0x100000 + 2 * j)
        (BitVec.ofNat 32 (e.st.toNat * 2 ^ 16 + e.d1.toNat * 2 ^ 8 + e.d2.toNat)) ∧
      reads (0x100000 + 2 * j + 1) (e.ofs.setWidth 32))

/-- R286, R83: a number that names no register sets BADCMD, responds 0 and changes nothing else. -/
def Obligations.RdregRejectsUnmappedNumbers : Prop :=
  ∀ (reg : BitVec 24) (s : State), s.Inv →
    let r := reg.toNat
    (0xD ≤ r ∧ r < 0x100) ∨
    (0x100 ≤ r ∧ r < 0x100000 ∧ ((r - 0x100) % 8 = 7 ∨ s.cfg.P ≤ (r - 0x100) / 8)) ∨
    (0x100000 ≤ r ∧ s.queue.length ≤ (r - 0x100000) / 2) →
    exec (.rdreg reg) s = .next { s with status := s.status ||| 0x10#32, resp := s.resp ++ [0#32] }

/-- R287: CLRSTAT clears the selected flags and, if selected, the drop counter, and nothing else. -/
def Obligations.ClrstatClearsWhatItSelects : Prop :=
  ∀ (flags : BitVec 5) (drops : Bool) (s : State),
    ∃ st : BitVec 32,
      (∀ b : Nat, st.getLsbD b = (s.status.getLsbD b && !(flags.getLsbD b))) ∧
      exec (.clrstat flags drops) s = .next
        { s with status := st, dropCount := if drops then 0#32 else s.dropCount }

/-! ## The voice pool -/

/-- R190, R196: FindFreeVoice gives a voice of the pool: the first IDLE one, and with none IDLE the first of
least gain `lvl * vel`. -/
def Obligations.FindFreeVoicePicksFirstIdleElseQuietest : Prop :=
  ∀ vs : List Voice, vs ≠ [] →
    ∃ v, vs[findFreeVoice vs]? = some v ∧
      ((∃ u ∈ vs, u.stage = .idle) → v.stage = .idle ∧
        ∀ (j : Nat) (u : Voice), j < findFreeVoice vs → vs[j]? = some u → u.stage ≠ .idle) ∧
      ((∀ u ∈ vs, u.stage ≠ .idle) →
        (∀ u ∈ vs, v.lvl.toNat * v.vel.toNat ≤ u.lvl.toNat * u.vel.toNat) ∧
        ∀ (j : Nat) (u : Voice), j < findFreeVoice vs → vs[j]? = some u →
          v.lvl.toNat * v.vel.toNat < u.lvl.toNat * u.vel.toNat)

/-- R191, R193, R194: what a note-on writes, in its three cases: the note is unbound; it is bound and RETRIG is
RETRIGGER; it is bound and RETRIG is REALLOCATE. Nothing else changes. -/
def Obligations.NoteOnStartsOneVoice : Prop :=
  ∀ (c : BitVec 4) (n : Note) (v : Velocity) (s : State), s.Inv →
    let fresh : Voice := ⟨some n, .attack, v, 0#32, incOf n s.sr, 0#31, 0#31⟩
    ((∀ u ∈ s.voices, u.key ≠ some n) →
      exec (.noteOn c n v) s = .next
        { s with voices := s.voices.set (findFreeVoice s.voices) fresh }) ∧
    (∀ (j : Nat) (u : Voice), s.voices[j]? = some u → u.key = some n →
      (s.cfg.retrig = .retrigger →
        exec (.noteOn c n v) s = .next { s with voices := s.voices.set j fresh }) ∧
      (s.cfg.retrig = .reallocate →
        let released := s.voices.set j { u with key := none, rel := u.lvl, stage := .release }
        exec (.noteOn c n v) s = .next
          { s with voices := released.set (findFreeVoice released) fresh }))

/-- R191, R36 (iv): after a note-on exactly one voice is bound to its note, and that voice is in ATTACK at level
0 and phase 0 with the note's increment and velocity. -/
def Obligations.NoteOnBindsExactlyOneVoice : Prop :=
  ∀ (c : BitVec 4) (n : Note) (v : Velocity) (s : State), s.Inv →
    ∃ t, exec (.noteOn c n v) s = .next t ∧
      t.voices.filter (fun u => decide (u.key = some n)) =
        [⟨some n, .attack, v, 0#32, incOf n s.sr, 0#31, 0#31⟩]

/-- R192, R193: a note-off, or a note-on with velocity 0, releases the voice bound to its note from its current
level; with no such voice it changes nothing. The channel and the velocity have no effect. -/
def Obligations.NoteOffReleasesTheBoundVoice : Prop :=
  ∀ (c : BitVec 4) (n : Note) (v : Velocity) (s : State), s.Inv →
    ((∀ u ∈ s.voices, u.key ≠ some n) →
      exec (.noteOff c n v) s = .next s ∧ exec (.noteOnZero c n) s = .next s) ∧
    (∀ (j : Nat) (u : Voice), s.voices[j]? = some u → u.key = some n →
      let t := { s with
        voices := s.voices.set j { u with key := none, rel := u.lvl, stage := .release } }
      exec (.noteOff c n v) s = .next t ∧ exec (.noteOnZero c n) s = .next t)

/-- R252, R261, R324 (b): a message of any other class changes nothing. -/
def Obligations.OtherMessagesDoNothing : Prop :=
  ∀ s : State,
    (∀ st d1 d2, exec (.notStatus st d1 d2) s = .next s) ∧
    (∀ st d1 d2, exec (.noteMalformedD1 st d1 d2) s = .next s) ∧
    (∀ st d1 d2, exec (.noteMalformedD2 st d1 d2) s = .next s) ∧
    (∀ c d1 d2, exec (.pitchWheel c d1 d2) s = .next s) ∧
    (∀ st d1 d2, exec (.otherAB st d1 d2) s = .next s) ∧
    (∀ st d1 d2, exec (.otherCD st d1 d2) s = .next s) ∧
    (∀ st d1 d2, exec (.otherF st d1 d2) s = .next s)

/-- R195: a note-on for `n` leaves the voice of another note `m` exactly as it was, or steals it: then nothing of
`m` is kept, no voice is bound to `m`, and a later note-off for `m` changes nothing. A note-on writes the voice
file alone, so no flag is set. With every voice busy and `n` unbound, the voice FindFreeVoice gives is stolen. -/
def Obligations.StolenNoteIsGone : Prop :=
  ∀ (c c' : BitVec 4) (n m : Note) (v v' : Velocity) (s : State) (i : Nat) (u : Voice), s.Inv →
    m ≠ n → s.voices[i]? = some u → u.key = some m →
    let fresh : Voice := ⟨some n, .attack, v, 0#32, incOf n s.sr, 0#31, 0#31⟩
    ∃ vs : List Voice, exec (.noteOn c n v) s = .next { s with voices := vs } ∧
      (vs[i]? = some u ∨
        vs[i]? = some fresh ∧ (∀ x ∈ vs, x.key ≠ some m) ∧
          exec (.noteOff c' m v') { s with voices := vs } = .next { s with voices := vs }) ∧
      ((∀ x ∈ s.voices, x.stage ≠ .idle) → (∀ x ∈ s.voices, x.key ≠ some n) →
        findFreeVoice s.voices = i → vs = s.voices.set i fresh)

/-- R197, for every P: from an all-IDLE pool, P note-ons of distinct notes take voices 0 to P - 1 in order, and
one more distinct note, before any frame, takes voice 0 and leaves the others. -/
def Obligations.OneNoteTooManyStealsVoiceZero : Prop :=
  ∀ (s : State) (notes : List (Note × Velocity)) (n : Note) (v : Velocity), s.Inv →
    (∀ u ∈ s.voices, u.stage = .idle) → notes.length = s.cfg.P →
    (n :: notes.map Prod.fst).Nodup →
    let full := notes.foldl (fun a p => a.noteOn p.1 p.2) s
    full.voices = notes.map (fun p => ⟨some p.1, .attack, p.2, 0#32, incOf p.1 s.sr, 0#31, 0#31⟩) ∧
    (full.noteOn n v).voices =
      full.voices.set 0 ⟨some n, .attack, v, 0#32, incOf n s.sr, 0#31, 0#31⟩

/-! ## The oscillator -/

/-- R140: the increment is the exact real `2^32 * 440 * 2^((n - 69) / 12) / sr`, rounded to nearest, ties to even,
modulo `2^32`. -/
def Obligations.PitchIncIsTheRoundedRealIncrement : Prop :=
  ∀ (n : Note) (sr : BitVec 24), sr ≠ 0#24 →
    let x : ℝ := 2 ^ 32 * (440 * (2 : ℝ) ^ (((n.toNat : ℝ) - 69) / 12)) / sr.toNat
    ∃ m : Nat, incOf n sr = BitVec.ofNat 32 m ∧ |x - m| ≤ 1 / 2 ∧ (|x - m| = 1 / 2 → m % 2 = 0)

/-- R81: TableRead gives the sample the configuration lists at its index, as a signed number; an index it lists none
for reads a free value (log entry 2), of which nothing is said. R142, R143: every table index is below the table's
length; NEAREST reads the nearest index, LINEAR the floor of the interpolation, which lies between its two
neighbours; every sample fits Q2.22. -/
def Obligations.LookupStaysInTheTable : Prop :=
  ∀ (c : Config) (phase : BitVec 32), 1 ≤ c.W → c.W ≤ 16 →
    let f := 32 - c.W
    let near := (phase.toNat + 2 ^ (f - 1)) % 2 ^ 32 / 2 ^ f
    let j := phase.toNat / 2 ^ f
    let a := tableRead c j
    let b := tableRead c ((j + 1) % 2 ^ c.W)
    near < 2 ^ c.W ∧ j < 2 ^ c.W ∧ (j + 1) % 2 ^ c.W < 2 ^ c.W ∧
    (c.lookup = .nearest → oscSample c phase = tableRead c near) ∧
    (c.lookup = .linear →
      oscSample c phase = a + (b - a) * ((phase.toNat % 2 ^ f : Nat) : Int) / (2 ^ f : Nat) ∧
      min a b ≤ oscSample c phase ∧ oscSample c phase ≤ max a b) ∧
    -(2 ^ 23) ≤ oscSample c phase ∧ oscSample c phase < 2 ^ 23 ∧
    ∀ (i : Nat) (x : BitVec 24), c.table[i]? = some x → tableRead c i = x.toInt

/-- R145: after `k` advances the phase is `(p0 + k * inc) mod 2^32`, exactly, for every `k`. -/
def Obligations.PhaseNeverDrifts : Prop :=
  ∀ (v : Voice) (k : Nat),
    (oscAdvance^[k] v).phase.toNat = (v.phase.toNat + k * v.inc.toNat) % 2 ^ 32 ∧
    (oscAdvance^[k] v).inc = v.inc

/-! ## The envelope -/

/-- R161 to R166: one envelope step in each stage, the stage counts and step sizes written out. -/
def Obligations.EnvelopeStepOfEachStage : Prop :=
  ∀ (s : State) (v : Voice), s.Inv → v.Ok →
    let count := fun (t : BitVec 32) => (t.toNat * s.sr.toNat + 500000) / 1000000
    let ramp := fun (d n : Nat) => if n = 0 then 2 ^ 30 else max 1 (d / n)
    let aInc := ramp (2 ^ 30) (count s.atkT)
    let dDec := ramp (2 ^ 30 - s.sus.toNat) (count s.decT)
    let rDec := ramp v.rel.toNat (count s.relT)
    let u := envProcess s v
    (u.key = v.key ∧ u.vel = v.vel ∧ u.phase = v.phase ∧ u.inc = v.inc ∧ u.rel = v.rel) ∧
    (v.stage = .attack → 2 ^ 30 ≤ v.lvl.toNat + aInc → u.lvl.toNat = 2 ^ 30 ∧ u.stage = .decay) ∧
    (v.stage = .attack → v.lvl.toNat + aInc < 2 ^ 30 →
      u.lvl.toNat = v.lvl.toNat + aInc ∧ u.stage = .attack) ∧
    (v.stage = .decay → v.lvl.toNat ≤ s.sus.toNat + dDec → u.lvl = s.sus ∧ u.stage = .sustain) ∧
    (v.stage = .decay → s.sus.toNat + dDec < v.lvl.toNat →
      u.lvl.toNat = v.lvl.toNat - dDec ∧ u.stage = .decay) ∧
    (v.stage = .sustain → u.lvl = s.sus ∧ u.stage = .sustain) ∧
    (v.stage = .release → v.lvl.toNat ≤ rDec → u.lvl.toNat = 0 ∧ u.stage = .idle) ∧
    (v.stage = .release → rDec < v.lvl.toNat →
      u.lvl.toNat = v.lvl.toNat - rDec ∧ u.stage = .release)

/-- R163, R171: from level 0 the attack rises by A_INC a call and ends, at ONE and in DECAY, on call number
`ceil(ONE / A_INC)`. -/
def Obligations.AttackEndsOnItsLastCall : Prop :=
  ∀ (s : State) (v : Voice), v.stage = .attack → v.lvl = 0#31 →
    let k := (2 ^ 30 + s.attackInc - 1) / s.attackInc
    (∀ j < k, ((envProcess s)^[j] v).lvl.toNat = j * s.attackInc ∧
      ((envProcess s)^[j] v).stage = .attack) ∧
    ((envProcess s)^[k] v).lvl.toNat = 2 ^ 30 ∧ ((envProcess s)^[k] v).stage = .decay

/-- R164, R171: from ONE the decay falls by D_DEC a call and ends, at SUS and in SUSTAIN, on call number
`max(1, ceil((ONE - SUS) / D_DEC))`. -/
def Obligations.DecayEndsOnItsLastCall : Prop :=
  ∀ (s : State) (v : Voice), s.sus.toNat ≤ 2 ^ 30 → v.stage = .decay → v.lvl.toNat = 2 ^ 30 →
    let k := max 1 ((2 ^ 30 - s.sus.toNat + s.decayDec - 1) / s.decayDec)
    (∀ j < k, ((envProcess s)^[j] v).lvl.toNat = 2 ^ 30 - j * s.decayDec ∧
      ((envProcess s)^[j] v).stage = .decay) ∧
    ((envProcess s)^[k] v).lvl = s.sus ∧ ((envProcess s)^[k] v).stage = .sustain

/-- R166, R171: a release from `rel` falls by R_DEC a call and ends, at 0 and IDLE, on call number
`max(1, ceil(rel / R_DEC))`. -/
def Obligations.ReleaseEndsOnItsLastCall : Prop :=
  ∀ (s : State) (v : Voice), v.stage = .release → v.lvl = v.rel →
    let k := max 1 ((v.rel.toNat + s.releaseDec v - 1) / s.releaseDec v)
    (∀ j < k, ((envProcess s)^[j] v).lvl.toNat = v.rel.toNat - j * s.releaseDec v ∧
      ((envProcess s)^[j] v).stage = .release) ∧
    ((envProcess s)^[k] v).lvl.toNat = 0 ∧ ((envProcess s)^[k] v).stage = .idle

/-- R171 (a) to (d): how many calls a ramp over `d` in `N` samples takes. -/
def Obligations.RampDurationBounds : Prop :=
  ∀ d n : Nat, d ≤ 2 ^ 30 →
    let k := max 1 ((d + rampStep d n - 1) / rampStep d n)
    (n = 0 → k = 1) ∧ (1 ≤ n → n ≤ d → n ≤ k) ∧ (1 ≤ n → n ^ 2 ≤ d → k ≤ n + 1) ∧
    (d < n → rampStep d n = 1 ∧ k = max 1 d)

/-! ## The queue -/

/-- R225: offsets 5, 2, 8, 2 inserted into an empty queue with room come out as 2 (first inserted), 2, 5, 8. -/
def Obligations.QueueRoundTripOfR225 : Prop :=
  ∀ (s : State) (a b c d : Entry), s.queue = [] → 4 ≤ s.bs.toNat →
    a.ofs.toNat = 5 → b.ofs.toNat = 2 → c.ofs.toNat = 8 → d.ofs.toNat = 2 →
    let t := (((s.qAdd a).qAdd b).qAdd c).qAdd d
    t.qPeek = some b ∧ t.qRemove.qPeek = some d ∧ t.qRemove.qRemove.qPeek = some a ∧
    t.qRemove.qRemove.qRemove.qPeek = some c ∧ t.qRemove.qRemove.qRemove.qRemove.qEmpty = true

/-- R228 (a) to (c): flushing everything, flushing by 0, and two flushes as one. -/
def Obligations.FlushPropertiesOfR228 : Prop :=
  ∀ s : State,
    (∀ n : Nat, (∀ e ∈ s.queue, e.ofs.toNat < n) → (s.qFlush n).queue = []) ∧
    s.qFlush 0 = s ∧
    (∀ a b : Nat, (s.qFlush a).qFlush b = s.qFlush (a + b))

/-- R253: the dispatch loop of a frame is the loop of QEmpty, QPeek, QRemove and Dispatch. -/
def Obligations.DispatchDueIsTheLoopOfR253 : Prop :=
  ∀ (s : State) (t : Nat),
    (s.qEmpty = true → s.dispatchDue t = s) ∧
    (∀ e : Entry, s.qPeek = some e →
      (e.ofs.toNat ≤ t → s.dispatchDue t = (s.qRemove.dispatch e).dispatchDue t) ∧
      (t < e.ofs.toNat → s.dispatchDue t = s))

/-! ## The render engine -/

/-- R250, R264, R284: PROCESS always completes, emits exactly N frames, both channels equal, and changes no
register but the voices, the queue, LAST_KEY (which becomes CUR_KEY), QOVF and DROP_COUNT. -/
def Obligations.ProcessEmitsExactlyNFrames : Prop :=
  ∀ (n : BitVec 16) (s : State), ∃ (t : State) (out : List Frame),
    exec (.process n) s = .next t ∧ out.length = n.toNat ∧ (∀ f ∈ out, f.ch0 = f.ch1) ∧
    t = { s with
      voices := t.voices
      queue := t.queue
      lastKey := s.curKey
      status := t.status
      dropCount := t.dropCount
      frames := s.frames ++ out } ∧
    t.voices.length = s.voices.length ∧
    (t.status = s.status ∨ t.status = s.status ||| 0x1#32)

/-- R250 to R256, R227: one frame in full. With no key change, PROCESS 1 dispatches the messages at offset 0 in
queue order, gives one frame that is the rounded scaled sum over the busy voices, advances each busy
voice's phase and envelope once, and moves the other messages one sample earlier. -/
def Obligations.ProcessOneRendersOneFrame : Prop :=
  ∀ s : State, s.Inv → s.curKey = s.lastKey →
    let d := (s.queue.filter (fun e => decide (e.ofs.toNat = 0))).foldl (fun a e => a.dispatch e) s
    let stepped := fun (v : Voice) =>
      if v.stage = .idle then v else envProcess s { v with phase := v.phase + v.inc }
    let term := fun (v : Voice) =>
      if v.stage = .idle then (0 : Int)
      else oscSample s.cfg v.phase * (stepped v).lvl.toNat * v.vel.toNat
    let o := BitVec.ofInt 32 (rne ((d.voices.map term).sum) (2 ^ 28 * 635))
    exec (.process 1#16) s = .next
      { s with
        voices := d.voices.map stepped
        queue := (s.queue.filter (fun e => decide (e.ofs.toNat ≠ 0))).map
          (fun e => { e with ofs := e.ofs - 1#16 })
        frames := s.frames ++ [⟨o, o⟩] }

/-- R256, R12: the output value is the nearest integer to `acc / (2^28 * 635)`, a tie going to the even one, and
negative sums round the same way. -/
def Obligations.OutputIsRoundedToNearestEven : Prop :=
  ∀ acc : Int,
    let o := outValue acc
    let den : Int := 2 ^ 28 * 635
    2 * |acc - o * den| ≤ den ∧ (2 * |acc - o * den| = den → o % 2 = 0) ∧ outValue (-acc) = -o

/-- R260, R255: with at most P voices within their formats the output value is at most `P * 6710886.4 + 0.5`, so it
fits the 32-bit word, which stands for exactly that value. -/
def Obligations.OutputAlwaysFits : Prop :=
  ∀ s : State, s.Inv →
    let o := outValue (voiceSum s)
    10 * |o| ≤ (s.cfg.P : Int) * 67108864 + 5 ∧
    (outFrame (voiceSum s)).ch0.toInt = o ∧ (outFrame (voiceSum s)).ch1.toInt = o

/-- R258: with no busy voice and an empty queue after the bridge step, PROCESS emits N frames of (0, 0) and
changes no state, and the frame loop and the flush give the same. -/
def Obligations.FastPathEqualsTheLoop : Prop :=
  ∀ (n : BitVec 16) (s : State), s.bs ≠ 0#16 →
    (∀ v ∈ s.bridge.voices, v.stage = .idle) → s.bridge.queue = [] →
    exec (.process n) s =
      .next { s with frames := s.frames ++ List.replicate n.toNat ⟨0#32, 0#32⟩ } ∧
    (renderLoop n.toNat 0 s.bridge).qFlush n.toNat =
      { s with frames := s.frames ++ List.replicate n.toNat ⟨0#32, 0#32⟩ }

/-- R251, seen through PROCESS 0 (R250: "N = 0 runs the bridge, emits nothing"): a change of the current key
queues a note-off for the old key and a note-on for the new one at offset 0, after every message already
there; what does not fit is dropped, counted and flagged; LAST_KEY is updated either way. -/
def Obligations.BridgeQueuesAKeyChange : Prop :=
  ∀ s : State, s.Inv →
    (s.curKey = s.lastKey → exec (.process 0#16) s = .next s) ∧
    (s.curKey ≠ s.lastKey →
      let off := s.lastKey.toList.map (fun k => (⟨0x80#8, k.setWidth 8, 0#8, 0#16⟩ : Entry))
      let on := s.curKey.toList.map
        (fun k => (⟨0x90#8, k.setWidth 8, s.cfg.bridgeVel.setWidth 8, 0#16⟩ : Entry))
      let room := s.bs.toNat - s.queue.length
      let lost := (off ++ on).length - room
      exec (.process 0#16) s = .next
        { s with
          queue := s.queue.filter (fun e => decide (e.ofs.toNat = 0)) ++ (off ++ on).take room ++
            s.queue.filter (fun e => decide (e.ofs.toNat ≠ 0))
          lastKey := s.curKey
          status := if 0 < lost then s.status ||| 0x1#32 else s.status
          dropCount := BitVec.ofNat 32 (min (s.dropCount.toNat + lost) (2 ^ 32 - 1)) })

/-- R257, R227: after a block of N ≥ 1 frames the queue holds the messages that had offset N or more, in order,
each N samples earlier, so it is empty when N ≥ BS. -/
def Obligations.QueueAfterABlock : Prop :=
  ∀ (n : BitVec 16) (s : State), s.Inv → n ≠ 0#16 →
    ∃ t, exec (.process n) s = .next t ∧
      t.queue = (s.queue.filter (fun e => decide (n.toNat ≤ e.ofs.toNat))).map
        (fun e => { e with ofs := e.ofs - n }) ∧
      (s.bs.toNat ≤ n.toNat → t.queue = [])

/-- R262: from an all-IDLE pool, with no key change, a first note-on at offset k gives k silent frames, and frame k
is the note's first sample: TABLE[0] at the level of the first attack step, scaled and rounded. -/
def Obligations.NoteSoundsFromItsFrame : Prop :=
  ∀ (s : State) (k n : BitVec 16) (c : BitVec 4) (note : Note) (v : Velocity), s.Inv →
    (∀ u ∈ s.voices, u.stage = .idle) → s.curKey = s.lastKey → v ≠ 0#7 →
    s.queue = [⟨9#4 ++ c, note.setWidth 8, v.setWidth 8, k⟩] → k.toNat < n.toNat →
    ∃ (t : State) (rest : List Frame), exec (.process n) s = .next t ∧
      t.frames = s.frames ++ List.replicate k.toNat ⟨0#32, 0#32⟩ ++
        outFrame (tableRead s.cfg 0 * (min (2 ^ 30) s.attackInc : Nat) * v.toNat) :: rest

/-- R355, R257: a block rendered in two pieces gives the same frames and the same state as the whole block. -/
def Obligations.ABlockSplitsInTwo : Prop :=
  ∀ (a b : Nat) (s : State), s.Inv → a + b < 2 ^ 16 →
    ∃ t u, exec (.process (BitVec.ofNat 16 a)) s = .next t ∧
      exec (.process (BitVec.ofNat 16 b)) t = .next u ∧
      exec (.process (BitVec.ofNat 16 (a + b))) s = .next u

/-- R115: the channel nibbles of the queued messages have no effect on the voices, the frames, the flags or the
counter. -/
def Obligations.ChannelsDoNotMatter : Prop :=
  ∀ (n : BitVec 16) (s : State) (q : List Entry),
    let same := fun (a b : Entry) =>
      bits a.st 4 4 = bits b.st 4 4 ∧ a.d1 = b.d1 ∧ a.d2 = b.d2 ∧ a.ofs = b.ofs
    List.Forall₂ same s.queue q →
    ∃ t u, exec (.process n) s = .next t ∧ exec (.process n) { s with queue := q } = .next u ∧
      List.Forall₂ same t.queue u.queue ∧ { u with queue := t.queue } = t

/-- R252, R261, R324 (b): messages that are no well-made note message take a place in the queue and nothing else:
without them a block gives the same frames, voices, flags and counter. -/
def Obligations.IgnoredMessagesAreSilent : Prop :=
  ∀ (n : BitVec 16) (s : State), s.Inv → s.curKey = s.lastKey →
    let acts := fun (e : Entry) =>
      decide (0x80 ≤ e.st.toNat ∧ e.st.toNat < 0xA0 ∧ e.d1.toNat < 0x80 ∧ e.d2.toNat < 0x80)
    ∃ t, exec (.process n) s = .next t ∧
      exec (.process n) { s with queue := s.queue.filter acts } =
        .next { t with queue := t.queue.filter acts }

/-! ## The whole machine -/

/-- R290 (and R37, R38, R39, R45, R46): what no command but the named ones writes. No instruction changes the
configuration (R47, R351), nor the fields of the model's own choice: the host streams (log entry 5), the merge
counter (log entry 3) and the dispatch slot (log entry 6); the output fields are the model's too (log entry 4). -/
def Obligations.WhatEachCommandWrites : Prop :=
  ∀ (i : Instr) (s t : State), exec i s = .next t →
    let isReset := ∃ bs sr, i = .reset bs sr
    let isParam := ∃ p x, i = .param p x
    let isMidi := ∃ o st d1 d2, i = .midi o st d1 d2
    let isProcess := ∃ n, i = .process n
    let isSetkey := ∃ k, i = .setkey k
    let isQuery := i = .qactive ∨ (∃ k, i = .qkey k) ∨ ∃ r, i = .rdreg r
    let isRdreg := ∃ r, i = .rdreg r
    let isClrstat := ∃ f d, i = .clrstat f d
    let isNote := (∃ c n v, i = .noteOn c n v) ∨ (∃ c n v, i = .noteOff c n v) ∨
      ∃ c n, i = .noteOnZero c n
    (t.cfg = s.cfg ∧ t.audioIn = s.audioIn ∧ t.controlIn = s.controlIn ∧ t.merges = s.merges ∧
      t.dispatchSlot = s.dispatchSlot) ∧
    (¬isProcess → ¬isNote → t.voices = s.voices) ∧
    (¬isReset → t.sr = s.sr ∧ t.bs = s.bs) ∧
    (¬isParam → t.atkT = s.atkT ∧ t.decT = s.decT ∧ t.sus = s.sus ∧ t.relT = s.relT) ∧
    (¬isReset → ¬isMidi → ¬isProcess → t.queue = s.queue) ∧
    (¬isSetkey → t.curKey = s.curKey) ∧ (¬isProcess → t.lastKey = s.lastKey) ∧
    (¬isReset → ¬isMidi → ¬isProcess → ¬isRdreg → ¬isClrstat → t.status = s.status) ∧
    (¬isReset → ¬isMidi → ¬isProcess → ¬isClrstat → t.dropCount = s.dropCount) ∧
    (¬isQuery → t.resp = s.resp) ∧ (¬isProcess → t.frames = s.frames)

/-- R323, R322: the flags one command can set, never two at once, and by how much one command can raise the
drop counter. -/
def Obligations.FlagsOneCommandCanSet : Prop :=
  ∀ (i : Instr) (s t : State), exec i s = .next t → (∀ f d, i ≠ .clrstat f d) →
    (t.status = s.status ∨
      ((∃ o st d1 d2, i = .midi o st d1 d2) ∨ (∃ n, i = .process n)) ∧
        t.status = s.status ||| 0x1#32 ∨
      (∃ o st d1 d2, i = .midi o st d1 d2) ∧ t.status = s.status ||| 0x2#32 ∨
      (∃ bs sr, i = .reset bs sr) ∧ (t.status = s.status ||| 0x4#32 ∨ t.status = s.status ||| 0x8#32) ∨
      (∃ r, i = .rdreg r) ∧ t.status = s.status ||| 0x10#32) ∧
    s.dropCount.toNat ≤ t.dropCount.toNat ∧
    ((∃ n, i = .process n) → t.dropCount.toNat ≤ s.dropCount.toNat + 2) ∧
    ((∃ o st d1 d2, i = .midi o st d1 d2) → t.dropCount.toNat ≤ s.dropCount.toNat + 1)

/-! ## Around the block -/

/-- R116, R117: a statement whose operands fit their fields and whose word the block accepts assembles to the word of
R116's table, and every other statement is refused; so the assembler gives only words the block accepts, but for
`.word64`; a pseudo-instruction is the statement it expands to. -/
def Obligations.AssemblerMakesAcceptedWords : Prop :=
  (let gives := fun (c : CoreLine) (ok : Prop) (word : Nat) =>
      (ok → assemble (.core c) = some (BitVec.ofNat 64 word)) ∧ (¬ok → assemble (.core c) = none)
    ∀ a b c o : Nat,
      gives (.reset a b) (a < 2 ^ 24 ∧ b < 2 ^ 16) (1 * 2 ^ 56 + b * 2 ^ 32 + a) ∧
      gives (.param .attack a) (a < 2 ^ 32) (2 * 2 ^ 56 + a) ∧
      gives (.param .decay a) (a < 2 ^ 32) (2 * 2 ^ 56 + 1 * 2 ^ 32 + a) ∧
      gives (.param .sustain a) (a < 2 ^ 32) (2 * 2 ^ 56 + 2 * 2 ^ 32 + a) ∧
      gives (.param .release a) (a < 2 ^ 32) (2 * 2 ^ 56 + 3 * 2 ^ 32 + a) ∧
      gives (.midi a b c o) (a < 2 ^ 8 ∧ b < 2 ^ 8 ∧ c < 2 ^ 8 ∧ o < 2 ^ 16)
        (3 * 2 ^ 56 + o * 2 ^ 32 + a * 2 ^ 16 + b * 2 ^ 8 + c) ∧
      gives (.process a) (a < 2 ^ 16) (4 * 2 ^ 56 + a) ∧
      gives (.setkey a) (a < 0x80 ∨ a = 0xFF) (5 * 2 ^ 56 + a) ∧
      gives .qactive True (6 * 2 ^ 56) ∧
      gives (.qkey a) (a < 0x80) (7 * 2 ^ 56 + a) ∧
      gives (.rdreg a) (a < 2 ^ 24) (8 * 2 ^ 56 + a) ∧
      gives (.clrstat a) (a < 2 ^ 8 ∧ a / 2 ^ 5 % 4 = 0) (9 * 2 ^ 56 + a)) ∧
  (∀ (a : AsmLine) (w : CmdWord), assemble a = some w → (∀ n, a ≠ .word64 n) →
    ∃ i, decodeCmd w = .ok i) ∧
  (∀ w : CmdWord, assemble (.word64 w.toNat) = some w) ∧
  (∀ k v o : Nat, assemble (.noteon k v o) = assemble (.core (.midi 0x90 k v o)) ∧
    assemble (.noteoff k o) = assemble (.core (.midi 0x80 k 0 o)) ∧
    assemble (.pwheel k v o) = assemble (.core (.midi 0xE0 k v o)) ∧
    assemble .rdstat = assemble (.core (.rdreg 0x6)) ∧
    assemble .rddrop = assemble (.core (.rdreg 0x7)) ∧
    assemble (.rdvoice k v) = assemble (.core (.rdreg (0x100 + 8 * k + v))) ∧
    assemble (.rdq k) = assemble (.core (.rdreg (0x100000 + 2 * k))) ∧
    assemble (.rdqofs k) = assemble (.core (.rdreg (0x100000 + 2 * k + 1))) ∧
    assemble .clrall = assemble (.core (.clrstat 0x9F)))

/-- R82, D38: for either CMD_BYTE_ORDER, a word sent as bytes is the word received; BIG sends its bytes from the most
significant down, so bits 63:56 of a command and 31:24 of a response first, and LITTLE from the least significant
up, so bits 7:0 first. That the transport is functions outside the machine is the model's choice (log entry 13). -/
def Obligations.TransportRoundTrip : Prop :=
  (∀ o : ByteOrder,
    (∀ w : CmdWord, cmdOfBytes o (cmdBytes o w) = some w) ∧
    (∀ w : RespWord, respOfBytes o (respBytes o w) = some w)) ∧
  (∀ w : CmdWord, (cmdBytes .big w).length = 8 ∧ (cmdBytes .little w).length = 8 ∧
    ∀ i : Fin 8,
      (cmdBytes .big w)[i.val]?.map BitVec.toNat = some (w.toNat / 2 ^ (8 * (7 - i.val)) % 256) ∧
      (cmdBytes .little w)[i.val]?.map BitVec.toNat = some (w.toNat / 2 ^ (8 * i.val) % 256)) ∧
  (∀ w : RespWord, (respBytes .big w).length = 4 ∧ (respBytes .little w).length = 4 ∧
    ∀ i : Fin 4,
      (respBytes .big w)[i.val]?.map BitVec.toNat = some (w.toNat / 2 ^ (8 * (3 - i.val)) % 256) ∧
      (respBytes .little w)[i.val]?.map BitVec.toNat = some (w.toNat / 2 ^ (8 * i.val) % 256))
end

