-- ==== Sys2Proof/Laws/Assembler.lean ====
section
/-! SUPPORT. What the assembler can answer for an operand and for a statement. -/

namespace Sys2Proof.Machine

/-- An operand that fits its field (R116). -/
theorem fieldOf_of_lt {len n : Nat} (h : n < 2 ^ len) : fieldOf len n = some (BitVec.ofNat len n) :=
  if_pos h

/-- An operand that does not fit its field (R116). -/
theorem fieldOf_of_ge {len n : Nat} (h : ¬n < 2 ^ len) : fieldOf len n = none := if_neg h

/-- A statement assembles to a word exactly when it is the word of its fields and R112 accepts it. -/
theorem assembleCore_eq_some {c : CoreLine} {w : CmdWord} :
    assembleCore c = some w ↔ coreWord c = some w ∧ ∃ i, decodeCmd w = .ok i := by
  unfold assembleCore
  cases coreWord c with
  | none => simp
  | some v =>
    cases h : decodeCmd v with
    | ok i =>
      simp only [h, Option.some.injEq]
      exact ⟨fun e => ⟨e, i, e ▸ h⟩, fun e => e.1⟩
    | error r =>
      simp only [h, Option.some.injEq, reduceCtorEq, false_iff]
      rintro ⟨rfl, i, hi⟩
      exact absurd (h.symm.trans hi) (by simp)

/-- A statement is refused exactly when an operand does not fit or R112 rejects its word. -/
theorem assembleCore_eq_none {c : CoreLine} :
    assembleCore c = none ↔ ∀ w, coreWord c = some w → ∃ r, decodeCmd w = .error r := by
  unfold assembleCore
  cases coreWord c with
  | none => simp
  | some v => cases h : decodeCmd v <;> simp [h]

end Sys2Proof.Machine
end

