-- ==== Sys2Proof/Laws/Codec.lean ====
section
/-! SUPPORT. Fields and concatenations as numbers, so that every question about an encoding is one of
linear arithmetic. -/

namespace Sys2Proof

theorem bits_toNat {k : Nat} (w : BitVec k) (lo len : Nat) :
    (bits w lo len).toNat = w.toNat / 2 ^ lo % 2 ^ len := by
  simp [bits, Nat.shiftRight_eq_div_pow]

theorem append_toNat {m n : Nat} (x : BitVec m) (y : BitVec n) :
    (x ++ y).toNat = x.toNat * 2 ^ n + y.toNat := by
  rw [BitVec.toNat_append, ← Nat.shiftLeft_add_eq_or_of_lt y.isLt, Nat.shiftLeft_eq]

/-- A field equals a constant when their numbers do. -/
theorem bits_eq_iff {k : Nat} (w : BitVec k) (lo len : Nat) (c : BitVec len) :
    bits w lo len = c ↔ w.toNat / 2 ^ lo % 2 ^ len = c.toNat := by
  rw [← BitVec.toNat_inj, bits_toNat]

theorem paramIdOf_pidOf (p : ParamId) : paramIdOf (pidOf p) = some p := by cases p <;> decide

theorem paramIdOf_eq_some {b : BitVec 8} {p : ParamId} (h : paramIdOf b = some p) : pidOf p = b := by
  unfold paramIdOf at h
  split_ifs at h <;> simp_all [pidOf] <;> (subst h; rfl)

theorem paramIdOf_eq_none (b : BitVec 8) : paramIdOf b = none ↔ 4 ≤ b.toNat := by
  have h : ∀ c : BitVec 8, b = c ↔ b.toNat = c.toNat := fun c => BitVec.toNat_inj.symm
  unfold paramIdOf
  simp only [h]
  split_ifs <;> simp_all; omega

theorem keyOf_keyByte (k : Key) : keyOf (keyByte k) = some k := by
  cases k with
  | none => decide
  | some n =>
    have hn := n.isLt
    have h1 : keyByte (some n) ≠ 0xFF#8 := by
      rw [Ne, ← BitVec.toNat_inj, keyByte, append_toNat]
      simp; omega
    have h2 : bits (keyByte (some n)) 7 1 = 0#1 := by
      rw [bits_eq_iff, keyByte, append_toNat]; simp; omega
    have h3 : bits (keyByte (some n)) 0 7 = n := by
      rw [bits_eq_iff, keyByte, append_toNat]; simp; omega
    simp [keyOf, h1, h2, h3]

theorem keyOf_eq_some {b : BitVec 8} {k : Key} (h : keyOf b = some k) : keyByte k = b := by
  unfold keyOf at h
  split_ifs at h with h1 h2
  · cases h; simp [keyByte, h1]
  · cases h
    rw [bits_eq_iff] at h2
    apply BitVec.eq_of_toNat_eq
    rw [keyByte, append_toNat, bits_toNat]
    simp at h2 ⊢; omega

theorem keyOf_eq_none (b : BitVec 8) : keyOf b = none ↔ 0x80 ≤ b.toNat ∧ b.toNat ≤ 0xFE := by
  have hb := b.isLt
  have h : ∀ c : BitVec 8, b = c ↔ b.toNat = c.toNat := fun c => BitVec.toNat_inj.symm
  unfold keyOf
  simp only [h, bits_eq_iff]
  split_ifs <;> simp_all <;> omega

/-! ## Which format a word has -/

theorem bits_ne_of_toNat {k : Nat} {w : BitVec k} {lo len : Nat} {c : BitVec len}
    (h : w.toNat / 2 ^ lo % 2 ^ len ≠ c.toNat) : bits w lo len ≠ c := fun e => h ((bits_eq_iff ..).1 e)

/-- The opcode map of R101: the decoder of a word with a given opcode. -/
theorem decodeCmd_of_opc (w : CmdWord) :
    ((bits w 56 8).toNat = 1 → decodeCmd w = decodeReset w) ∧
    ((bits w 56 8).toNat = 2 → decodeCmd w = decodeParam w) ∧
    ((bits w 56 8).toNat = 3 → decodeCmd w = decodeMidi w) ∧
    ((bits w 56 8).toNat = 4 → decodeCmd w = decodeProcess w) ∧
    ((bits w 56 8).toNat = 5 → decodeCmd w = decodeSetkey w) ∧
    ((bits w 56 8).toNat = 6 → decodeCmd w = decodeQactive w) ∧
    ((bits w 56 8).toNat = 7 → decodeCmd w = decodeQkey w) ∧
    ((bits w 56 8).toNat = 8 → decodeCmd w = decodeRdreg w) ∧
    ((bits w 56 8).toNat = 9 → decodeCmd w = decodeClrstat w) ∧
    ((bits w 56 8).toNat = 0 ∨ 10 ≤ (bits w 56 8).toNat → decodeCmd w = .error .reservedOpcode) := by
  have h : ∀ c : BitVec 8, bits w 56 8 = c ↔ (bits w 56 8).toNat = c.toNat :=
    fun c => BitVec.toNat_inj.symm
  refine ⟨?_, ?_, ?_, ?_, ?_, ?_, ?_, ?_, ?_, ?_⟩ <;> intro e <;> simp only [decodeCmd, h]
  case refine_10 =>
    repeat rw [if_neg (by simp; omega)]
  all_goals simp [e]

/-! ## The round trip, one lemma per command format -/

theorem decodeCmd_reset (bs : BitVec 16) (sr : BitVec 24) :
    decodeCmd (0x01#8 ++ 0#8 ++ bs ++ 0#8 ++ sr) = .ok (.reset bs sr) := by
  have h_bs := bs.isLt
  have h_sr := sr.isLt
  set w : CmdWord := 0x01#8 ++ 0#8 ++ bs ++ 0#8 ++ sr with hw
  have hw : w.toNat = 1 * 2 ^ 56 + bs.toNat * 2 ^ 32 + sr.toNat := by
    rw [hw]; simp only [append_toNat]; simp; omega
  have e0 : bits w 32 16 = bs := by rw [bits_eq_iff, hw]; omega
  have e1 : bits w 0 24 = sr := by rw [bits_eq_iff, hw]; omega
  rw [(decodeCmd_of_opc w).1 (by rw [bits_toNat, hw]; omega), decodeReset,
    if_pos (by simp only [bits_eq_iff, hw]; simp; omega)]
  rw [e0, e1]

theorem decodeCmd_param (pid : ParamId) (value : BitVec 32) :
    decodeCmd (0x02#8 ++ 0#16 ++ pidOf pid ++ value) = .ok (.param pid value) := by
  have h_pid := (pidOf pid).isLt
  have h_value := value.isLt
  set w : CmdWord := 0x02#8 ++ 0#16 ++ pidOf pid ++ value with hw
  have hw : w.toNat = 2 * 2 ^ 56 + (pidOf pid).toNat * 2 ^ 32 + value.toNat := by
    rw [hw]; simp only [append_toNat]; simp; omega
  have e0 : bits w 32 8 = pidOf pid := by rw [bits_eq_iff, hw]; omega
  have e1 : bits w 0 32 = value := by rw [bits_eq_iff, hw]; omega
  rw [(decodeCmd_of_opc w).2.1 (by rw [bits_toNat, hw]; omega), decodeParam,
    if_pos (by simp only [bits_eq_iff, hw]; simp; omega)]
  simp only [e0, e1, paramIdOf_pidOf]

theorem decodeCmd_midi (ofs : BitVec 16) (st d1 d2 : BitVec 8) :
    decodeCmd (0x03#8 ++ 0#8 ++ ofs ++ 0#8 ++ st ++ d1 ++ d2) = .ok (.midi ofs st d1 d2) := by
  have h_ofs := ofs.isLt
  have h_st := st.isLt
  have h_d1 := d1.isLt
  have h_d2 := d2.isLt
  set w : CmdWord := 0x03#8 ++ 0#8 ++ ofs ++ 0#8 ++ st ++ d1 ++ d2 with hw
  have hw : w.toNat = 3 * 2 ^ 56 + ofs.toNat * 2 ^ 32 + st.toNat * 2 ^ 16 + d1.toNat * 2 ^ 8 + d2.toNat := by
    rw [hw]; simp only [append_toNat]; simp; omega
  have e0 : bits w 32 16 = ofs := by rw [bits_eq_iff, hw]; omega
  have e1 : bits w 16 8 = st := by rw [bits_eq_iff, hw]; omega
  have e2 : bits w 8 8 = d1 := by rw [bits_eq_iff, hw]; omega
  have e3 : bits w 0 8 = d2 := by rw [bits_eq_iff, hw]; omega
  rw [(decodeCmd_of_opc w).2.2.1 (by rw [bits_toNat, hw]; omega), decodeMidi,
    if_pos (by simp only [bits_eq_iff, hw]; simp; omega)]
  rw [e0, e1, e2, e3]

theorem decodeCmd_process (n : BitVec 16) :
    decodeCmd (0x04#8 ++ 0#40 ++ n) = .ok (.process n) := by
  have h_n := n.isLt
  set w : CmdWord := 0x04#8 ++ 0#40 ++ n with hw
  have hw : w.toNat = 4 * 2 ^ 56 + n.toNat := by
    rw [hw]; simp only [append_toNat]; simp
  have e0 : bits w 0 16 = n := by rw [bits_eq_iff, hw]; omega
  rw [(decodeCmd_of_opc w).2.2.2.1 (by rw [bits_toNat, hw]; omega), decodeProcess,
    if_pos (by simp only [bits_eq_iff, hw]; simp; omega)]
  rw [e0]

theorem decodeCmd_setkey (key : Key) :
    decodeCmd (0x05#8 ++ 0#48 ++ keyByte key) = .ok (.setkey key) := by
  have h_key := (keyByte key).isLt
  set w : CmdWord := 0x05#8 ++ 0#48 ++ keyByte key with hw
  have hw : w.toNat = 5 * 2 ^ 56 + (keyByte key).toNat := by
    rw [hw]; simp only [append_toNat]; simp
  have e0 : bits w 0 8 = keyByte key := by rw [bits_eq_iff, hw]; omega
  rw [(decodeCmd_of_opc w).2.2.2.2.1 (by rw [bits_toNat, hw]; omega), decodeSetkey,
    if_pos (by simp only [bits_eq_iff, hw]; simp; omega)]
  simp only [e0, keyOf_keyByte]

theorem decodeCmd_qactive : decodeCmd (0x06#8 ++ 0#56) = .ok .qactive := by decide

theorem decodeCmd_qkey (key : Note) :
    decodeCmd (0x07#8 ++ 0#49 ++ key) = .ok (.qkey key) := by
  have h_key := key.isLt
  set w : CmdWord := 0x07#8 ++ 0#49 ++ key with hw
  have hw : w.toNat = 7 * 2 ^ 56 + key.toNat := by
    rw [hw]; simp only [append_toNat]; simp
  have e0 : bits w 0 7 = key := by rw [bits_eq_iff, hw]; omega
  rw [(decodeCmd_of_opc w).2.2.2.2.2.2.1 (by rw [bits_toNat, hw]; omega), decodeQkey,
    if_pos (by simp only [bits_eq_iff, hw]; simp; omega)]
  rw [e0]

theorem decodeCmd_rdreg (reg : BitVec 24) :
    decodeCmd (0x08#8 ++ 0#32 ++ reg) = .ok (.rdreg reg) := by
  have h_reg := reg.isLt
  set w : CmdWord := 0x08#8 ++ 0#32 ++ reg with hw
  have hw : w.toNat = 8 * 2 ^ 56 + reg.toNat := by
    rw [hw]; simp only [append_toNat]; simp
  have e0 : bits w 0 24 = reg := by rw [bits_eq_iff, hw]; omega
  rw [(decodeCmd_of_opc w).2.2.2.2.2.2.2.1 (by rw [bits_toNat, hw]; omega), decodeRdreg,
    if_pos (by simp only [bits_eq_iff, hw]; simp; omega)]
  rw [e0]

theorem decodeCmd_clrstat (flags : BitVec 5) (drops : Bool) :
    decodeCmd (0x09#8 ++ 0#48 ++ BitVec.ofBool drops ++ 0#2 ++ flags) = .ok (.clrstat flags drops) := by
  have h_flags := flags.isLt
  have h_drops := drops.toNat_lt
  set w : CmdWord := 0x09#8 ++ 0#48 ++ BitVec.ofBool drops ++ 0#2 ++ flags with hw
  have hw : w.toNat = 9 * 2 ^ 56 + drops.toNat * 2 ^ 7 + flags.toNat := by
    rw [hw]; simp only [append_toNat]; simp; omega
  have e0 : bits w 0 5 = flags := by rw [bits_eq_iff, hw]; omega
  have e1 : bits w 7 1 = BitVec.ofBool drops := by rw [bits_eq_iff, hw, BitVec.toNat_ofBool]; omega
  rw [(decodeCmd_of_opc w).2.2.2.2.2.2.2.2.1 (by rw [bits_toNat, hw]; omega), decodeClrstat,
    if_pos (by simp only [bits_eq_iff, hw]; simp; omega)]
  rw [e0, e1]
  cases drops <;> rfl

/-! ## The round trip, one lemma per message class -/

/-- A message never decodes to a note-on with velocity 0 (R114). -/
theorem decodeMsg_wellFormed (m : MsgWord) : (decodeMsg m).wellFormed = true := by
  unfold decodeMsg
  split_ifs with h1 h2 h3 h4 h5 h6 <;> first | rfl | (simpa [Instr.wellFormed, h6] using h5)

theorem decodeMsg_notStatus (st : BitVec 7) (d1 d2 : BitVec 8) :
    decodeMsg (0#1 ++ st ++ d1 ++ d2) = .notStatus st d1 d2 := by
  have h_st := st.isLt
  have h_d1 := d1.isLt
  have h_d2 := d2.isLt
  set m : MsgWord := 0#1 ++ st ++ d1 ++ d2 with hm
  have hm : m.toNat = st.toNat * 2 ^ 16 + d1.toNat * 2 ^ 8 + d2.toNat := by
    rw [hm]; simp only [append_toNat]; simp; omega
  have e0 : bits m 16 7 = st := by rw [bits_eq_iff, hm]; omega
  have e1 : bits m 8 8 = d1 := by rw [bits_eq_iff, hm]; omega
  have e2 : bits m 0 8 = d2 := by rw [bits_eq_iff, hm]; omega
  rw [decodeMsg]

  rw [if_pos (by simp only [bits_eq_iff, hm]; simp; omega)]
  rw [e0, e1, e2]

theorem decodeMsg_noteMalformedD1 (st : BitVec 5) (d1 : BitVec 7) (d2 : BitVec 8) :
    decodeMsg (4#3 ++ st ++ 1#1 ++ d1 ++ d2) = .noteMalformedD1 st d1 d2 := by
  have h_st := st.isLt
  have h_d1 := d1.isLt
  have h_d2 := d2.isLt
  set m : MsgWord := 4#3 ++ st ++ 1#1 ++ d1 ++ d2 with hm
  have hm : m.toNat = 4 * 2 ^ 21 + st.toNat * 2 ^ 16 + 2 ^ 15 + d1.toNat * 2 ^ 8 + d2.toNat := by
    rw [hm]; simp only [append_toNat]; simp; omega
  have e0 : bits m 16 5 = st := by rw [bits_eq_iff, hm]; omega
  have e1 : bits m 8 7 = d1 := by rw [bits_eq_iff, hm]; omega
  have e2 : bits m 0 8 = d2 := by rw [bits_eq_iff, hm]; omega
  rw [decodeMsg]
  rw [if_neg (by simp only [bits_eq_iff, hm]; simp; omega)]
  rw [if_pos (by simp only [bits_eq_iff, hm]; simp; omega)]
  rw [e0, e1, e2]

theorem decodeMsg_noteMalformedD2 (st : BitVec 5) (d1 d2 : BitVec 7) :
    decodeMsg (4#3 ++ st ++ 0#1 ++ d1 ++ 1#1 ++ d2) = .noteMalformedD2 st d1 d2 := by
  have h_st := st.isLt
  have h_d1 := d1.isLt
  have h_d2 := d2.isLt
  set m : MsgWord := 4#3 ++ st ++ 0#1 ++ d1 ++ 1#1 ++ d2 with hm
  have hm : m.toNat = 4 * 2 ^ 21 + st.toNat * 2 ^ 16 + d1.toNat * 2 ^ 8 + 2 ^ 7 + d2.toNat := by
    rw [hm]; simp only [append_toNat]; simp; omega
  have e0 : bits m 16 5 = st := by rw [bits_eq_iff, hm]; omega
  have e1 : bits m 8 7 = d1 := by rw [bits_eq_iff, hm]; omega
  have e2 : bits m 0 7 = d2 := by rw [bits_eq_iff, hm]; omega
  rw [decodeMsg]
  rw [if_neg (by simp only [bits_eq_iff, hm]; simp; omega)]
  rw [if_neg (by simp only [bits_eq_iff, hm]; simp; omega)]
  rw [if_pos (by simp only [bits_eq_iff, hm]; simp; omega)]
  rw [e0, e1, e2]

theorem decodeMsg_noteOff (c : BitVec 4) (n : Note) (v : Velocity) :
    decodeMsg (8#4 ++ c ++ 0#1 ++ n ++ 0#1 ++ v) = .noteOff c n v := by
  have h_c := c.isLt
  have h_n := n.isLt
  have h_v := v.isLt
  set m : MsgWord := 8#4 ++ c ++ 0#1 ++ n ++ 0#1 ++ v with hm
  have hm : m.toNat = 8 * 2 ^ 20 + c.toNat * 2 ^ 16 + n.toNat * 2 ^ 8 + v.toNat := by
    rw [hm]; simp only [append_toNat]; simp; omega
  have e0 : bits m 16 4 = c := by rw [bits_eq_iff, hm]; omega
  have e1 : bits m 8 7 = n := by rw [bits_eq_iff, hm]; omega
  have e2 : bits m 0 7 = v := by rw [bits_eq_iff, hm]; omega
  rw [decodeMsg]
  rw [if_neg (by simp only [bits_eq_iff, hm]; simp; omega)]
  rw [if_neg (by simp only [bits_eq_iff, hm]; simp; omega)]
  rw [if_neg (by simp only [bits_eq_iff, hm]; simp; omega)]
  rw [if_pos (by simp only [bits_eq_iff, hm]; simp; omega)]
  rw [e0, e1, e2]

theorem decodeMsg_noteOnZero (c : BitVec 4) (n : Note) :
    decodeMsg (9#4 ++ c ++ 0#1 ++ n ++ 0#8) = .noteOnZero c n := by
  have h_c := c.isLt
  have h_n := n.isLt
  set m : MsgWord := 9#4 ++ c ++ 0#1 ++ n ++ 0#8 with hm
  have hm : m.toNat = 9 * 2 ^ 20 + c.toNat * 2 ^ 16 + n.toNat * 2 ^ 8 := by
    rw [hm]; simp only [append_toNat]; simp; omega
  have e0 : bits m 16 4 = c := by rw [bits_eq_iff, hm]; omega
  have e1 : bits m 8 7 = n := by rw [bits_eq_iff, hm]; omega
  rw [decodeMsg]
  rw [if_neg (by simp only [bits_eq_iff, hm]; simp; omega)]
  rw [if_neg (by simp only [bits_eq_iff, hm]; simp; omega)]
  rw [if_neg (by simp only [bits_eq_iff, hm]; simp; omega)]
  rw [if_neg (by simp only [bits_eq_iff, hm]; simp; omega)]
  rw [if_pos (by simp only [bits_eq_iff, hm]; simp; omega)]
  rw [e0, e1]

theorem decodeMsg_noteOn (c : BitVec 4) (n : Note) (v : Velocity) (hv : v ≠ 0#7) :
    decodeMsg (9#4 ++ c ++ 0#1 ++ n ++ 0#1 ++ v) = .noteOn c n v := by
  have h_c := c.isLt
  have h_n := n.isLt
  have h_v := v.isLt
  have hv0 : v.toNat ≠ 0 := fun e => hv (BitVec.eq_of_toNat_eq e)
  set m : MsgWord := 9#4 ++ c ++ 0#1 ++ n ++ 0#1 ++ v with hm
  have hm : m.toNat = 9 * 2 ^ 20 + c.toNat * 2 ^ 16 + n.toNat * 2 ^ 8 + v.toNat := by
    rw [hm]; simp only [append_toNat]; simp; omega
  have e0 : bits m 16 4 = c := by rw [bits_eq_iff, hm]; omega
  have e1 : bits m 8 7 = n := by rw [bits_eq_iff, hm]; omega
  have e2 : bits m 0 7 = v := by rw [bits_eq_iff, hm]; omega
  rw [decodeMsg]
  rw [if_neg (by simp only [bits_eq_iff, hm]; simp; omega)]
  rw [if_neg (by simp only [bits_eq_iff, hm]; simp; omega)]
  rw [if_neg (by simp only [bits_eq_iff, hm]; simp; omega)]
  rw [if_neg (by simp only [bits_eq_iff, hm]; simp; omega)]
  rw [if_neg (by simp only [bits_eq_iff, hm]; simp; omega)]
  rw [if_pos (by simp only [bits_eq_iff, hm]; simp; omega)]
  rw [e0, e1, e2]

theorem decodeMsg_pitchWheel (c : BitVec 4) (d1 d2 : BitVec 8) :
    decodeMsg (14#4 ++ c ++ d1 ++ d2) = .pitchWheel c d1 d2 := by
  have h_c := c.isLt
  have h_d1 := d1.isLt
  have h_d2 := d2.isLt
  set m : MsgWord := 14#4 ++ c ++ d1 ++ d2 with hm
  have hm : m.toNat = 14 * 2 ^ 20 + c.toNat * 2 ^ 16 + d1.toNat * 2 ^ 8 + d2.toNat := by
    rw [hm]; simp only [append_toNat]; simp; omega
  have e0 : bits m 16 4 = c := by rw [bits_eq_iff, hm]; omega
  have e1 : bits m 8 8 = d1 := by rw [bits_eq_iff, hm]; omega
  have e2 : bits m 0 8 = d2 := by rw [bits_eq_iff, hm]; omega
  rw [decodeMsg]
  rw [if_neg (by simp only [bits_eq_iff, hm]; simp; omega)]
  rw [if_neg (by simp only [bits_eq_iff, hm]; simp; omega)]
  rw [if_neg (by simp only [bits_eq_iff, hm]; simp; omega)]
  rw [if_neg (by simp only [bits_eq_iff, hm]; simp; omega)]
  rw [if_neg (by simp only [bits_eq_iff, hm]; simp; omega)]
  rw [if_neg (by simp only [bits_eq_iff, hm]; simp; omega)]
  rw [if_pos (by simp only [bits_eq_iff, hm]; simp; omega)]
  rw [e0, e1, e2]

theorem decodeMsg_otherAB (st : BitVec 5) (d1 d2 : BitVec 8) :
    decodeMsg (5#3 ++ st ++ d1 ++ d2) = .otherAB st d1 d2 := by
  have h_st := st.isLt
  have h_d1 := d1.isLt
  have h_d2 := d2.isLt
  set m : MsgWord := 5#3 ++ st ++ d1 ++ d2 with hm
  have hm : m.toNat = 5 * 2 ^ 21 + st.toNat * 2 ^ 16 + d1.toNat * 2 ^ 8 + d2.toNat := by
    rw [hm]; simp only [append_toNat]; simp; omega
  have e0 : bits m 16 5 = st := by rw [bits_eq_iff, hm]; omega
  have e1 : bits m 8 8 = d1 := by rw [bits_eq_iff, hm]; omega
  have e2 : bits m 0 8 = d2 := by rw [bits_eq_iff, hm]; omega
  rw [decodeMsg]
  rw [if_neg (by simp only [bits_eq_iff, hm]; simp; omega)]
  rw [if_neg (by simp only [bits_eq_iff, hm]; simp; omega)]
  rw [if_neg (by simp only [bits_eq_iff, hm]; simp; omega)]
  rw [if_neg (by simp only [bits_eq_iff, hm]; simp; omega)]
  rw [if_neg (by simp only [bits_eq_iff, hm]; simp; omega)]
  rw [if_neg (by simp only [bits_eq_iff, hm]; simp; omega)]
  rw [if_neg (by simp only [bits_eq_iff, hm]; simp; omega)]
  rw [if_pos (by simp only [bits_eq_iff, hm]; simp; omega)]
  rw [e0, e1, e2]

theorem decodeMsg_otherCD (st : BitVec 5) (d1 d2 : BitVec 8) :
    decodeMsg (6#3 ++ st ++ d1 ++ d2) = .otherCD st d1 d2 := by
  have h_st := st.isLt
  have h_d1 := d1.isLt
  have h_d2 := d2.isLt
  set m : MsgWord := 6#3 ++ st ++ d1 ++ d2 with hm
  have hm : m.toNat = 6 * 2 ^ 21 + st.toNat * 2 ^ 16 + d1.toNat * 2 ^ 8 + d2.toNat := by
    rw [hm]; simp only [append_toNat]; simp; omega
  have e0 : bits m 16 5 = st := by rw [bits_eq_iff, hm]; omega
  have e1 : bits m 8 8 = d1 := by rw [bits_eq_iff, hm]; omega
  have e2 : bits m 0 8 = d2 := by rw [bits_eq_iff, hm]; omega
  rw [decodeMsg]
  rw [if_neg (by simp only [bits_eq_iff, hm]; simp; omega)]
  rw [if_neg (by simp only [bits_eq_iff, hm]; simp; omega)]
  rw [if_neg (by simp only [bits_eq_iff, hm]; simp; omega)]
  rw [if_neg (by simp only [bits_eq_iff, hm]; simp; omega)]
  rw [if_neg (by simp only [bits_eq_iff, hm]; simp; omega)]
  rw [if_neg (by simp only [bits_eq_iff, hm]; simp; omega)]
  rw [if_neg (by simp only [bits_eq_iff, hm]; simp; omega)]
  rw [if_neg (by simp only [bits_eq_iff, hm]; simp; omega)]
  rw [if_pos (by simp only [bits_eq_iff, hm]; simp; omega)]
  rw [e0, e1, e2]

theorem decodeMsg_otherF (st : BitVec 4) (d1 d2 : BitVec 8) :
    decodeMsg (15#4 ++ st ++ d1 ++ d2) = .otherF st d1 d2 := by
  have h_st := st.isLt
  have h_d1 := d1.isLt
  have h_d2 := d2.isLt
  set m : MsgWord := 15#4 ++ st ++ d1 ++ d2 with hm
  have hm : m.toNat = 15 * 2 ^ 20 + st.toNat * 2 ^ 16 + d1.toNat * 2 ^ 8 + d2.toNat := by
    rw [hm]; simp only [append_toNat]; simp; omega
  have e0 : bits m 16 4 = st := by rw [bits_eq_iff, hm]; omega
  have e1 : bits m 8 8 = d1 := by rw [bits_eq_iff, hm]; omega
  have e2 : bits m 0 8 = d2 := by rw [bits_eq_iff, hm]; omega
  rw [decodeMsg]
  rw [if_neg (by simp only [bits_eq_iff, hm]; simp; omega)]
  rw [if_neg (by simp only [bits_eq_iff, hm]; simp; omega)]
  rw [if_neg (by simp only [bits_eq_iff, hm]; simp; omega)]
  rw [if_neg (by simp only [bits_eq_iff, hm]; simp; omega)]
  rw [if_neg (by simp only [bits_eq_iff, hm]; simp; omega)]
  rw [if_neg (by simp only [bits_eq_iff, hm]; simp; omega)]
  rw [if_neg (by simp only [bits_eq_iff, hm]; simp; omega)]
  rw [if_neg (by simp only [bits_eq_iff, hm]; simp; omega)]
  rw [if_neg (by simp only [bits_eq_iff, hm]; simp; omega)]
  rw [e0, e1, e2]

end Sys2Proof
end

