-- ==== Sys2Proof/Laws/State.lean ====
section
/-! SUPPORT. One lemma per field per state update, true by rfl, so that no later proof unfolds a record
update. -/

namespace Sys2Proof.Machine

variable (s : State)

/-! ### setFlag -/

@[simp] theorem State.setFlag_cfg (f : Flag) : (s.setFlag f).cfg = s.cfg := rfl
@[simp] theorem State.setFlag_voices (f : Flag) : (s.setFlag f).voices = s.voices := rfl
@[simp] theorem State.setFlag_sr (f : Flag) : (s.setFlag f).sr = s.sr := rfl
@[simp] theorem State.setFlag_bs (f : Flag) : (s.setFlag f).bs = s.bs := rfl
@[simp] theorem State.setFlag_atkT (f : Flag) : (s.setFlag f).atkT = s.atkT := rfl
@[simp] theorem State.setFlag_decT (f : Flag) : (s.setFlag f).decT = s.decT := rfl
@[simp] theorem State.setFlag_sus (f : Flag) : (s.setFlag f).sus = s.sus := rfl
@[simp] theorem State.setFlag_relT (f : Flag) : (s.setFlag f).relT = s.relT := rfl
@[simp] theorem State.setFlag_status (f : Flag) : (s.setFlag f).status = s.status ||| BitVec.ofNat 32 (2 ^ flagBit f) := rfl
@[simp] theorem State.setFlag_dropCount (f : Flag) : (s.setFlag f).dropCount = s.dropCount := rfl
@[simp] theorem State.setFlag_queue (f : Flag) : (s.setFlag f).queue = s.queue := rfl
@[simp] theorem State.setFlag_curKey (f : Flag) : (s.setFlag f).curKey = s.curKey := rfl
@[simp] theorem State.setFlag_lastKey (f : Flag) : (s.setFlag f).lastKey = s.lastKey := rfl
@[simp] theorem State.setFlag_resp (f : Flag) : (s.setFlag f).resp = s.resp := rfl
@[simp] theorem State.setFlag_frames (f : Flag) : (s.setFlag f).frames = s.frames := rfl
@[simp] theorem State.setFlag_audioIn (f : Flag) : (s.setFlag f).audioIn = s.audioIn := rfl
@[simp] theorem State.setFlag_controlIn (f : Flag) : (s.setFlag f).controlIn = s.controlIn := rfl
@[simp] theorem State.setFlag_merges (f : Flag) : (s.setFlag f).merges = s.merges := rfl
@[simp] theorem State.setFlag_dispatchSlot (f : Flag) : (s.setFlag f).dispatchSlot = s.dispatchSlot := rfl

/-! ### lose -/

@[simp] theorem State.lose_cfg (k : Nat) : (s.lose k).cfg = s.cfg := rfl
@[simp] theorem State.lose_voices (k : Nat) : (s.lose k).voices = s.voices := rfl
@[simp] theorem State.lose_sr (k : Nat) : (s.lose k).sr = s.sr := rfl
@[simp] theorem State.lose_bs (k : Nat) : (s.lose k).bs = s.bs := rfl
@[simp] theorem State.lose_atkT (k : Nat) : (s.lose k).atkT = s.atkT := rfl
@[simp] theorem State.lose_decT (k : Nat) : (s.lose k).decT = s.decT := rfl
@[simp] theorem State.lose_sus (k : Nat) : (s.lose k).sus = s.sus := rfl
@[simp] theorem State.lose_relT (k : Nat) : (s.lose k).relT = s.relT := rfl
@[simp] theorem State.lose_status (k : Nat) : (s.lose k).status = s.status := rfl
@[simp] theorem State.lose_dropCount (k : Nat) : (s.lose k).dropCount = BitVec.ofNat 32 (min (s.dropCount.toNat + k) (2 ^ 32 - 1)) := rfl
@[simp] theorem State.lose_queue (k : Nat) : (s.lose k).queue = s.queue := rfl
@[simp] theorem State.lose_curKey (k : Nat) : (s.lose k).curKey = s.curKey := rfl
@[simp] theorem State.lose_lastKey (k : Nat) : (s.lose k).lastKey = s.lastKey := rfl
@[simp] theorem State.lose_resp (k : Nat) : (s.lose k).resp = s.resp := rfl
@[simp] theorem State.lose_frames (k : Nat) : (s.lose k).frames = s.frames := rfl
@[simp] theorem State.lose_audioIn (k : Nat) : (s.lose k).audioIn = s.audioIn := rfl
@[simp] theorem State.lose_controlIn (k : Nat) : (s.lose k).controlIn = s.controlIn := rfl
@[simp] theorem State.lose_merges (k : Nat) : (s.lose k).merges = s.merges := rfl
@[simp] theorem State.lose_dispatchSlot (k : Nat) : (s.lose k).dispatchSlot = s.dispatchSlot := rfl

/-! ### clearFlags -/

@[simp] theorem State.clearFlags_cfg (fl : BitVec 5) : (s.clearFlags fl).cfg = s.cfg := rfl
@[simp] theorem State.clearFlags_voices (fl : BitVec 5) : (s.clearFlags fl).voices = s.voices := rfl
@[simp] theorem State.clearFlags_sr (fl : BitVec 5) : (s.clearFlags fl).sr = s.sr := rfl
@[simp] theorem State.clearFlags_bs (fl : BitVec 5) : (s.clearFlags fl).bs = s.bs := rfl
@[simp] theorem State.clearFlags_atkT (fl : BitVec 5) : (s.clearFlags fl).atkT = s.atkT := rfl
@[simp] theorem State.clearFlags_decT (fl : BitVec 5) : (s.clearFlags fl).decT = s.decT := rfl
@[simp] theorem State.clearFlags_sus (fl : BitVec 5) : (s.clearFlags fl).sus = s.sus := rfl
@[simp] theorem State.clearFlags_relT (fl : BitVec 5) : (s.clearFlags fl).relT = s.relT := rfl
@[simp] theorem State.clearFlags_status (fl : BitVec 5) : (s.clearFlags fl).status = s.status &&& ~~~(fl.setWidth 32) := rfl
@[simp] theorem State.clearFlags_dropCount (fl : BitVec 5) : (s.clearFlags fl).dropCount = s.dropCount := rfl
@[simp] theorem State.clearFlags_queue (fl : BitVec 5) : (s.clearFlags fl).queue = s.queue := rfl
@[simp] theorem State.clearFlags_curKey (fl : BitVec 5) : (s.clearFlags fl).curKey = s.curKey := rfl
@[simp] theorem State.clearFlags_lastKey (fl : BitVec 5) : (s.clearFlags fl).lastKey = s.lastKey := rfl
@[simp] theorem State.clearFlags_resp (fl : BitVec 5) : (s.clearFlags fl).resp = s.resp := rfl
@[simp] theorem State.clearFlags_frames (fl : BitVec 5) : (s.clearFlags fl).frames = s.frames := rfl
@[simp] theorem State.clearFlags_audioIn (fl : BitVec 5) : (s.clearFlags fl).audioIn = s.audioIn := rfl
@[simp] theorem State.clearFlags_controlIn (fl : BitVec 5) : (s.clearFlags fl).controlIn = s.controlIn := rfl
@[simp] theorem State.clearFlags_merges (fl : BitVec 5) : (s.clearFlags fl).merges = s.merges := rfl
@[simp] theorem State.clearFlags_dispatchSlot (fl : BitVec 5) : (s.clearFlags fl).dispatchSlot = s.dispatchSlot := rfl

/-! ### clearDrops -/

@[simp] theorem State.clearDrops_cfg (b : Bool) : (s.clearDrops b).cfg = s.cfg := rfl
@[simp] theorem State.clearDrops_voices (b : Bool) : (s.clearDrops b).voices = s.voices := rfl
@[simp] theorem State.clearDrops_sr (b : Bool) : (s.clearDrops b).sr = s.sr := rfl
@[simp] theorem State.clearDrops_bs (b : Bool) : (s.clearDrops b).bs = s.bs := rfl
@[simp] theorem State.clearDrops_atkT (b : Bool) : (s.clearDrops b).atkT = s.atkT := rfl
@[simp] theorem State.clearDrops_decT (b : Bool) : (s.clearDrops b).decT = s.decT := rfl
@[simp] theorem State.clearDrops_sus (b : Bool) : (s.clearDrops b).sus = s.sus := rfl
@[simp] theorem State.clearDrops_relT (b : Bool) : (s.clearDrops b).relT = s.relT := rfl
@[simp] theorem State.clearDrops_status (b : Bool) : (s.clearDrops b).status = s.status := rfl
@[simp] theorem State.clearDrops_dropCount (b : Bool) : (s.clearDrops b).dropCount = if b then 0#32 else s.dropCount := rfl
@[simp] theorem State.clearDrops_queue (b : Bool) : (s.clearDrops b).queue = s.queue := rfl
@[simp] theorem State.clearDrops_curKey (b : Bool) : (s.clearDrops b).curKey = s.curKey := rfl
@[simp] theorem State.clearDrops_lastKey (b : Bool) : (s.clearDrops b).lastKey = s.lastKey := rfl
@[simp] theorem State.clearDrops_resp (b : Bool) : (s.clearDrops b).resp = s.resp := rfl
@[simp] theorem State.clearDrops_frames (b : Bool) : (s.clearDrops b).frames = s.frames := rfl
@[simp] theorem State.clearDrops_audioIn (b : Bool) : (s.clearDrops b).audioIn = s.audioIn := rfl
@[simp] theorem State.clearDrops_controlIn (b : Bool) : (s.clearDrops b).controlIn = s.controlIn := rfl
@[simp] theorem State.clearDrops_merges (b : Bool) : (s.clearDrops b).merges = s.merges := rfl
@[simp] theorem State.clearDrops_dispatchSlot (b : Bool) : (s.clearDrops b).dispatchSlot = s.dispatchSlot := rfl

/-! ### setRates -/

@[simp] theorem State.setRates_cfg (x : BitVec 16) (y : BitVec 24) : (s.setRates x y).cfg = s.cfg := rfl
@[simp] theorem State.setRates_voices (x : BitVec 16) (y : BitVec 24) : (s.setRates x y).voices = s.voices := rfl
@[simp] theorem State.setRates_sr (x : BitVec 16) (y : BitVec 24) : (s.setRates x y).sr = y := rfl
@[simp] theorem State.setRates_bs (x : BitVec 16) (y : BitVec 24) : (s.setRates x y).bs = x := rfl
@[simp] theorem State.setRates_atkT (x : BitVec 16) (y : BitVec 24) : (s.setRates x y).atkT = s.atkT := rfl
@[simp] theorem State.setRates_decT (x : BitVec 16) (y : BitVec 24) : (s.setRates x y).decT = s.decT := rfl
@[simp] theorem State.setRates_sus (x : BitVec 16) (y : BitVec 24) : (s.setRates x y).sus = s.sus := rfl
@[simp] theorem State.setRates_relT (x : BitVec 16) (y : BitVec 24) : (s.setRates x y).relT = s.relT := rfl
@[simp] theorem State.setRates_status (x : BitVec 16) (y : BitVec 24) : (s.setRates x y).status = s.status := rfl
@[simp] theorem State.setRates_dropCount (x : BitVec 16) (y : BitVec 24) : (s.setRates x y).dropCount = s.dropCount := rfl
@[simp] theorem State.setRates_queue (x : BitVec 16) (y : BitVec 24) : (s.setRates x y).queue = s.queue := rfl
@[simp] theorem State.setRates_curKey (x : BitVec 16) (y : BitVec 24) : (s.setRates x y).curKey = s.curKey := rfl
@[simp] theorem State.setRates_lastKey (x : BitVec 16) (y : BitVec 24) : (s.setRates x y).lastKey = s.lastKey := rfl
@[simp] theorem State.setRates_resp (x : BitVec 16) (y : BitVec 24) : (s.setRates x y).resp = s.resp := rfl
@[simp] theorem State.setRates_frames (x : BitVec 16) (y : BitVec 24) : (s.setRates x y).frames = s.frames := rfl
@[simp] theorem State.setRates_audioIn (x : BitVec 16) (y : BitVec 24) : (s.setRates x y).audioIn = s.audioIn := rfl
@[simp] theorem State.setRates_controlIn (x : BitVec 16) (y : BitVec 24) : (s.setRates x y).controlIn = s.controlIn := rfl
@[simp] theorem State.setRates_merges (x : BitVec 16) (y : BitVec 24) : (s.setRates x y).merges = s.merges := rfl
@[simp] theorem State.setRates_dispatchSlot (x : BitVec 16) (y : BitVec 24) : (s.setRates x y).dispatchSlot = s.dispatchSlot := rfl

/-! ### respond -/

@[simp] theorem State.respond_cfg (w : RespWord) : (s.respond w).cfg = s.cfg := rfl
@[simp] theorem State.respond_voices (w : RespWord) : (s.respond w).voices = s.voices := rfl
@[simp] theorem State.respond_sr (w : RespWord) : (s.respond w).sr = s.sr := rfl
@[simp] theorem State.respond_bs (w : RespWord) : (s.respond w).bs = s.bs := rfl
@[simp] theorem State.respond_atkT (w : RespWord) : (s.respond w).atkT = s.atkT := rfl
@[simp] theorem State.respond_decT (w : RespWord) : (s.respond w).decT = s.decT := rfl
@[simp] theorem State.respond_sus (w : RespWord) : (s.respond w).sus = s.sus := rfl
@[simp] theorem State.respond_relT (w : RespWord) : (s.respond w).relT = s.relT := rfl
@[simp] theorem State.respond_status (w : RespWord) : (s.respond w).status = s.status := rfl
@[simp] theorem State.respond_dropCount (w : RespWord) : (s.respond w).dropCount = s.dropCount := rfl
@[simp] theorem State.respond_queue (w : RespWord) : (s.respond w).queue = s.queue := rfl
@[simp] theorem State.respond_curKey (w : RespWord) : (s.respond w).curKey = s.curKey := rfl
@[simp] theorem State.respond_lastKey (w : RespWord) : (s.respond w).lastKey = s.lastKey := rfl
@[simp] theorem State.respond_resp (w : RespWord) : (s.respond w).resp = s.resp ++ [w] := rfl
@[simp] theorem State.respond_frames (w : RespWord) : (s.respond w).frames = s.frames := rfl
@[simp] theorem State.respond_audioIn (w : RespWord) : (s.respond w).audioIn = s.audioIn := rfl
@[simp] theorem State.respond_controlIn (w : RespWord) : (s.respond w).controlIn = s.controlIn := rfl
@[simp] theorem State.respond_merges (w : RespWord) : (s.respond w).merges = s.merges := rfl
@[simp] theorem State.respond_dispatchSlot (w : RespWord) : (s.respond w).dispatchSlot = s.dispatchSlot := rfl

/-! ### emit -/

@[simp] theorem State.emit_cfg (fs : List Frame) : (s.emit fs).cfg = s.cfg := rfl
@[simp] theorem State.emit_voices (fs : List Frame) : (s.emit fs).voices = s.voices := rfl
@[simp] theorem State.emit_sr (fs : List Frame) : (s.emit fs).sr = s.sr := rfl
@[simp] theorem State.emit_bs (fs : List Frame) : (s.emit fs).bs = s.bs := rfl
@[simp] theorem State.emit_atkT (fs : List Frame) : (s.emit fs).atkT = s.atkT := rfl
@[simp] theorem State.emit_decT (fs : List Frame) : (s.emit fs).decT = s.decT := rfl
@[simp] theorem State.emit_sus (fs : List Frame) : (s.emit fs).sus = s.sus := rfl
@[simp] theorem State.emit_relT (fs : List Frame) : (s.emit fs).relT = s.relT := rfl
@[simp] theorem State.emit_status (fs : List Frame) : (s.emit fs).status = s.status := rfl
@[simp] theorem State.emit_dropCount (fs : List Frame) : (s.emit fs).dropCount = s.dropCount := rfl
@[simp] theorem State.emit_queue (fs : List Frame) : (s.emit fs).queue = s.queue := rfl
@[simp] theorem State.emit_curKey (fs : List Frame) : (s.emit fs).curKey = s.curKey := rfl
@[simp] theorem State.emit_lastKey (fs : List Frame) : (s.emit fs).lastKey = s.lastKey := rfl
@[simp] theorem State.emit_resp (fs : List Frame) : (s.emit fs).resp = s.resp := rfl
@[simp] theorem State.emit_frames (fs : List Frame) : (s.emit fs).frames = s.frames ++ fs := rfl
@[simp] theorem State.emit_audioIn (fs : List Frame) : (s.emit fs).audioIn = s.audioIn := rfl
@[simp] theorem State.emit_controlIn (fs : List Frame) : (s.emit fs).controlIn = s.controlIn := rfl
@[simp] theorem State.emit_merges (fs : List Frame) : (s.emit fs).merges = s.merges := rfl
@[simp] theorem State.emit_dispatchSlot (fs : List Frame) : (s.emit fs).dispatchSlot = s.dispatchSlot := rfl

/-! ### setVoices -/

@[simp] theorem State.setVoices_cfg (vs : List Voice) : (s.setVoices vs).cfg = s.cfg := rfl
@[simp] theorem State.setVoices_voices (vs : List Voice) : (s.setVoices vs).voices = vs := rfl
@[simp] theorem State.setVoices_sr (vs : List Voice) : (s.setVoices vs).sr = s.sr := rfl
@[simp] theorem State.setVoices_bs (vs : List Voice) : (s.setVoices vs).bs = s.bs := rfl
@[simp] theorem State.setVoices_atkT (vs : List Voice) : (s.setVoices vs).atkT = s.atkT := rfl
@[simp] theorem State.setVoices_decT (vs : List Voice) : (s.setVoices vs).decT = s.decT := rfl
@[simp] theorem State.setVoices_sus (vs : List Voice) : (s.setVoices vs).sus = s.sus := rfl
@[simp] theorem State.setVoices_relT (vs : List Voice) : (s.setVoices vs).relT = s.relT := rfl
@[simp] theorem State.setVoices_status (vs : List Voice) : (s.setVoices vs).status = s.status := rfl
@[simp] theorem State.setVoices_dropCount (vs : List Voice) : (s.setVoices vs).dropCount = s.dropCount := rfl
@[simp] theorem State.setVoices_queue (vs : List Voice) : (s.setVoices vs).queue = s.queue := rfl
@[simp] theorem State.setVoices_curKey (vs : List Voice) : (s.setVoices vs).curKey = s.curKey := rfl
@[simp] theorem State.setVoices_lastKey (vs : List Voice) : (s.setVoices vs).lastKey = s.lastKey := rfl
@[simp] theorem State.setVoices_resp (vs : List Voice) : (s.setVoices vs).resp = s.resp := rfl
@[simp] theorem State.setVoices_frames (vs : List Voice) : (s.setVoices vs).frames = s.frames := rfl
@[simp] theorem State.setVoices_audioIn (vs : List Voice) : (s.setVoices vs).audioIn = s.audioIn := rfl
@[simp] theorem State.setVoices_controlIn (vs : List Voice) : (s.setVoices vs).controlIn = s.controlIn := rfl
@[simp] theorem State.setVoices_merges (vs : List Voice) : (s.setVoices vs).merges = s.merges := rfl
@[simp] theorem State.setVoices_dispatchSlot (vs : List Voice) : (s.setVoices vs).dispatchSlot = s.dispatchSlot := rfl

/-! ### setQueue -/

@[simp] theorem State.setQueue_cfg (q : List Entry) : (s.setQueue q).cfg = s.cfg := rfl
@[simp] theorem State.setQueue_voices (q : List Entry) : (s.setQueue q).voices = s.voices := rfl
@[simp] theorem State.setQueue_sr (q : List Entry) : (s.setQueue q).sr = s.sr := rfl
@[simp] theorem State.setQueue_bs (q : List Entry) : (s.setQueue q).bs = s.bs := rfl
@[simp] theorem State.setQueue_atkT (q : List Entry) : (s.setQueue q).atkT = s.atkT := rfl
@[simp] theorem State.setQueue_decT (q : List Entry) : (s.setQueue q).decT = s.decT := rfl
@[simp] theorem State.setQueue_sus (q : List Entry) : (s.setQueue q).sus = s.sus := rfl
@[simp] theorem State.setQueue_relT (q : List Entry) : (s.setQueue q).relT = s.relT := rfl
@[simp] theorem State.setQueue_status (q : List Entry) : (s.setQueue q).status = s.status := rfl
@[simp] theorem State.setQueue_dropCount (q : List Entry) : (s.setQueue q).dropCount = s.dropCount := rfl
@[simp] theorem State.setQueue_queue (q : List Entry) : (s.setQueue q).queue = q := rfl
@[simp] theorem State.setQueue_curKey (q : List Entry) : (s.setQueue q).curKey = s.curKey := rfl
@[simp] theorem State.setQueue_lastKey (q : List Entry) : (s.setQueue q).lastKey = s.lastKey := rfl
@[simp] theorem State.setQueue_resp (q : List Entry) : (s.setQueue q).resp = s.resp := rfl
@[simp] theorem State.setQueue_frames (q : List Entry) : (s.setQueue q).frames = s.frames := rfl
@[simp] theorem State.setQueue_audioIn (q : List Entry) : (s.setQueue q).audioIn = s.audioIn := rfl
@[simp] theorem State.setQueue_controlIn (q : List Entry) : (s.setQueue q).controlIn = s.controlIn := rfl
@[simp] theorem State.setQueue_merges (q : List Entry) : (s.setQueue q).merges = s.merges := rfl
@[simp] theorem State.setQueue_dispatchSlot (q : List Entry) : (s.setQueue q).dispatchSlot = s.dispatchSlot := rfl

/-! ### setCurKey -/

@[simp] theorem State.setCurKey_cfg (k : Key) : (s.setCurKey k).cfg = s.cfg := rfl
@[simp] theorem State.setCurKey_voices (k : Key) : (s.setCurKey k).voices = s.voices := rfl
@[simp] theorem State.setCurKey_sr (k : Key) : (s.setCurKey k).sr = s.sr := rfl
@[simp] theorem State.setCurKey_bs (k : Key) : (s.setCurKey k).bs = s.bs := rfl
@[simp] theorem State.setCurKey_atkT (k : Key) : (s.setCurKey k).atkT = s.atkT := rfl
@[simp] theorem State.setCurKey_decT (k : Key) : (s.setCurKey k).decT = s.decT := rfl
@[simp] theorem State.setCurKey_sus (k : Key) : (s.setCurKey k).sus = s.sus := rfl
@[simp] theorem State.setCurKey_relT (k : Key) : (s.setCurKey k).relT = s.relT := rfl
@[simp] theorem State.setCurKey_status (k : Key) : (s.setCurKey k).status = s.status := rfl
@[simp] theorem State.setCurKey_dropCount (k : Key) : (s.setCurKey k).dropCount = s.dropCount := rfl
@[simp] theorem State.setCurKey_queue (k : Key) : (s.setCurKey k).queue = s.queue := rfl
@[simp] theorem State.setCurKey_curKey (k : Key) : (s.setCurKey k).curKey = k := rfl
@[simp] theorem State.setCurKey_lastKey (k : Key) : (s.setCurKey k).lastKey = s.lastKey := rfl
@[simp] theorem State.setCurKey_resp (k : Key) : (s.setCurKey k).resp = s.resp := rfl
@[simp] theorem State.setCurKey_frames (k : Key) : (s.setCurKey k).frames = s.frames := rfl
@[simp] theorem State.setCurKey_audioIn (k : Key) : (s.setCurKey k).audioIn = s.audioIn := rfl
@[simp] theorem State.setCurKey_controlIn (k : Key) : (s.setCurKey k).controlIn = s.controlIn := rfl
@[simp] theorem State.setCurKey_merges (k : Key) : (s.setCurKey k).merges = s.merges := rfl
@[simp] theorem State.setCurKey_dispatchSlot (k : Key) : (s.setCurKey k).dispatchSlot = s.dispatchSlot := rfl

/-! ### setLastKey -/

@[simp] theorem State.setLastKey_cfg (k : Key) : (s.setLastKey k).cfg = s.cfg := rfl
@[simp] theorem State.setLastKey_voices (k : Key) : (s.setLastKey k).voices = s.voices := rfl
@[simp] theorem State.setLastKey_sr (k : Key) : (s.setLastKey k).sr = s.sr := rfl
@[simp] theorem State.setLastKey_bs (k : Key) : (s.setLastKey k).bs = s.bs := rfl
@[simp] theorem State.setLastKey_atkT (k : Key) : (s.setLastKey k).atkT = s.atkT := rfl
@[simp] theorem State.setLastKey_decT (k : Key) : (s.setLastKey k).decT = s.decT := rfl
@[simp] theorem State.setLastKey_sus (k : Key) : (s.setLastKey k).sus = s.sus := rfl
@[simp] theorem State.setLastKey_relT (k : Key) : (s.setLastKey k).relT = s.relT := rfl
@[simp] theorem State.setLastKey_status (k : Key) : (s.setLastKey k).status = s.status := rfl
@[simp] theorem State.setLastKey_dropCount (k : Key) : (s.setLastKey k).dropCount = s.dropCount := rfl
@[simp] theorem State.setLastKey_queue (k : Key) : (s.setLastKey k).queue = s.queue := rfl
@[simp] theorem State.setLastKey_curKey (k : Key) : (s.setLastKey k).curKey = s.curKey := rfl
@[simp] theorem State.setLastKey_lastKey (k : Key) : (s.setLastKey k).lastKey = k := rfl
@[simp] theorem State.setLastKey_resp (k : Key) : (s.setLastKey k).resp = s.resp := rfl
@[simp] theorem State.setLastKey_frames (k : Key) : (s.setLastKey k).frames = s.frames := rfl
@[simp] theorem State.setLastKey_audioIn (k : Key) : (s.setLastKey k).audioIn = s.audioIn := rfl
@[simp] theorem State.setLastKey_controlIn (k : Key) : (s.setLastKey k).controlIn = s.controlIn := rfl
@[simp] theorem State.setLastKey_merges (k : Key) : (s.setLastKey k).merges = s.merges := rfl
@[simp] theorem State.setLastKey_dispatchSlot (k : Key) : (s.setLastKey k).dispatchSlot = s.dispatchSlot := rfl

/-! ### setSlot -/

@[simp] theorem State.setSlot_cfg (m : Option MsgWord) : (s.setSlot m).cfg = s.cfg := rfl
@[simp] theorem State.setSlot_voices (m : Option MsgWord) : (s.setSlot m).voices = s.voices := rfl
@[simp] theorem State.setSlot_sr (m : Option MsgWord) : (s.setSlot m).sr = s.sr := rfl
@[simp] theorem State.setSlot_bs (m : Option MsgWord) : (s.setSlot m).bs = s.bs := rfl
@[simp] theorem State.setSlot_atkT (m : Option MsgWord) : (s.setSlot m).atkT = s.atkT := rfl
@[simp] theorem State.setSlot_decT (m : Option MsgWord) : (s.setSlot m).decT = s.decT := rfl
@[simp] theorem State.setSlot_sus (m : Option MsgWord) : (s.setSlot m).sus = s.sus := rfl
@[simp] theorem State.setSlot_relT (m : Option MsgWord) : (s.setSlot m).relT = s.relT := rfl
@[simp] theorem State.setSlot_status (m : Option MsgWord) : (s.setSlot m).status = s.status := rfl
@[simp] theorem State.setSlot_dropCount (m : Option MsgWord) : (s.setSlot m).dropCount = s.dropCount := rfl
@[simp] theorem State.setSlot_queue (m : Option MsgWord) : (s.setSlot m).queue = s.queue := rfl
@[simp] theorem State.setSlot_curKey (m : Option MsgWord) : (s.setSlot m).curKey = s.curKey := rfl
@[simp] theorem State.setSlot_lastKey (m : Option MsgWord) : (s.setSlot m).lastKey = s.lastKey := rfl
@[simp] theorem State.setSlot_resp (m : Option MsgWord) : (s.setSlot m).resp = s.resp := rfl
@[simp] theorem State.setSlot_frames (m : Option MsgWord) : (s.setSlot m).frames = s.frames := rfl
@[simp] theorem State.setSlot_audioIn (m : Option MsgWord) : (s.setSlot m).audioIn = s.audioIn := rfl
@[simp] theorem State.setSlot_controlIn (m : Option MsgWord) : (s.setSlot m).controlIn = s.controlIn := rfl
@[simp] theorem State.setSlot_merges (m : Option MsgWord) : (s.setSlot m).merges = s.merges := rfl
@[simp] theorem State.setSlot_dispatchSlot (m : Option MsgWord) : (s.setSlot m).dispatchSlot = m := rfl

/-! ### setStreams -/

@[simp] theorem State.setStreams_cfg (a c : List CmdWord) (k : Nat) : (s.setStreams a c k).cfg = s.cfg := rfl
@[simp] theorem State.setStreams_voices (a c : List CmdWord) (k : Nat) : (s.setStreams a c k).voices = s.voices := rfl
@[simp] theorem State.setStreams_sr (a c : List CmdWord) (k : Nat) : (s.setStreams a c k).sr = s.sr := rfl
@[simp] theorem State.setStreams_bs (a c : List CmdWord) (k : Nat) : (s.setStreams a c k).bs = s.bs := rfl
@[simp] theorem State.setStreams_atkT (a c : List CmdWord) (k : Nat) : (s.setStreams a c k).atkT = s.atkT := rfl
@[simp] theorem State.setStreams_decT (a c : List CmdWord) (k : Nat) : (s.setStreams a c k).decT = s.decT := rfl
@[simp] theorem State.setStreams_sus (a c : List CmdWord) (k : Nat) : (s.setStreams a c k).sus = s.sus := rfl
@[simp] theorem State.setStreams_relT (a c : List CmdWord) (k : Nat) : (s.setStreams a c k).relT = s.relT := rfl
@[simp] theorem State.setStreams_status (a c : List CmdWord) (k : Nat) : (s.setStreams a c k).status = s.status := rfl
@[simp] theorem State.setStreams_dropCount (a c : List CmdWord) (k : Nat) : (s.setStreams a c k).dropCount = s.dropCount := rfl
@[simp] theorem State.setStreams_queue (a c : List CmdWord) (k : Nat) : (s.setStreams a c k).queue = s.queue := rfl
@[simp] theorem State.setStreams_curKey (a c : List CmdWord) (k : Nat) : (s.setStreams a c k).curKey = s.curKey := rfl
@[simp] theorem State.setStreams_lastKey (a c : List CmdWord) (k : Nat) : (s.setStreams a c k).lastKey = s.lastKey := rfl
@[simp] theorem State.setStreams_resp (a c : List CmdWord) (k : Nat) : (s.setStreams a c k).resp = s.resp := rfl
@[simp] theorem State.setStreams_frames (a c : List CmdWord) (k : Nat) : (s.setStreams a c k).frames = s.frames := rfl
@[simp] theorem State.setStreams_audioIn (a c : List CmdWord) (k : Nat) : (s.setStreams a c k).audioIn = a := rfl
@[simp] theorem State.setStreams_controlIn (a c : List CmdWord) (k : Nat) : (s.setStreams a c k).controlIn = c := rfl
@[simp] theorem State.setStreams_merges (a c : List CmdWord) (k : Nat) : (s.setStreams a c k).merges = k := rfl
@[simp] theorem State.setStreams_dispatchSlot (a c : List CmdWord) (k : Nat) : (s.setStreams a c k).dispatchSlot = s.dispatchSlot := rfl

/-! ### setParam -/

@[simp] theorem State.setParam_cfg (p : ParamId) (x : BitVec 32) : (s.setParam p x).cfg = s.cfg := by
  cases p <;> rfl
@[simp] theorem State.setParam_voices (p : ParamId) (x : BitVec 32) : (s.setParam p x).voices = s.voices := by
  cases p <;> rfl
@[simp] theorem State.setParam_sr (p : ParamId) (x : BitVec 32) : (s.setParam p x).sr = s.sr := by
  cases p <;> rfl
@[simp] theorem State.setParam_bs (p : ParamId) (x : BitVec 32) : (s.setParam p x).bs = s.bs := by
  cases p <;> rfl
@[simp] theorem State.setParam_status (p : ParamId) (x : BitVec 32) : (s.setParam p x).status = s.status := by
  cases p <;> rfl
@[simp] theorem State.setParam_dropCount (p : ParamId) (x : BitVec 32) : (s.setParam p x).dropCount = s.dropCount := by
  cases p <;> rfl
@[simp] theorem State.setParam_queue (p : ParamId) (x : BitVec 32) : (s.setParam p x).queue = s.queue := by
  cases p <;> rfl
@[simp] theorem State.setParam_curKey (p : ParamId) (x : BitVec 32) : (s.setParam p x).curKey = s.curKey := by
  cases p <;> rfl
@[simp] theorem State.setParam_lastKey (p : ParamId) (x : BitVec 32) : (s.setParam p x).lastKey = s.lastKey := by
  cases p <;> rfl
@[simp] theorem State.setParam_resp (p : ParamId) (x : BitVec 32) : (s.setParam p x).resp = s.resp := by
  cases p <;> rfl
@[simp] theorem State.setParam_frames (p : ParamId) (x : BitVec 32) : (s.setParam p x).frames = s.frames := by
  cases p <;> rfl
@[simp] theorem State.setParam_audioIn (p : ParamId) (x : BitVec 32) : (s.setParam p x).audioIn = s.audioIn := by
  cases p <;> rfl
@[simp] theorem State.setParam_controlIn (p : ParamId) (x : BitVec 32) : (s.setParam p x).controlIn = s.controlIn := by
  cases p <;> rfl
@[simp] theorem State.setParam_merges (p : ParamId) (x : BitVec 32) : (s.setParam p x).merges = s.merges := by
  cases p <;> rfl
@[simp] theorem State.setParam_dispatchSlot (p : ParamId) (x : BitVec 32) : (s.setParam p x).dispatchSlot = s.dispatchSlot := by
  cases p <;> rfl

end Sys2Proof.Machine
end

