-- ==== Sys2Proof/Laws/Envelope.lean ====
section
/-! SUPPORT. What one envelope step does to a voice within its formats. -/

namespace Sys2Proof.Machine

theorem levelOf_toNat {n : Nat} (h : n ≤ ONE) : (levelOf n).toNat = n := by
  have : ONE < 2 ^ 31 := by decide
  rw [levelOf, BitVec.toNat_ofNat, Nat.mod_eq_of_lt (by omega)]

theorem susOf_toNat (v : BitVec 32) : (susOf v).toNat = min v.toNat ONE := by
  rw [susOf, levelOf_toNat (by omega)]

/-- A ramp step is at least 1 (R162), so every ramp ends. -/
theorem one_le_rampStep (d n : Nat) : 1 ≤ rampStep d n := by
  unfold rampStep
  split_ifs
  · decide
  · exact le_max_left ..

theorem rampStep_le {d n : Nat} (h : d ≤ ONE) : rampStep d n ≤ ONE := by
  unfold rampStep
  split_ifs
  · exact le_rfl
  · exact max_le (by decide) ((Nat.div_le_self ..).trans h)

/-- The fields an envelope step never writes. -/
theorem envProcess_keeps (s : State) (v : Voice) :
    (envProcess s v).key = v.key ∧ (envProcess s v).vel = v.vel ∧ (envProcess s v).phase = v.phase ∧
      (envProcess s v).inc = v.inc ∧ (envProcess s v).rel = v.rel := by
  simp only [envProcess, envAttack, envDecay, envSustain, envRelease]
  split <;> (try split_ifs) <;> exact ⟨rfl, rfl, rfl, rfl, rfl⟩

/-! ## EnvProcess by stage, and each stage by cases -/

theorem envProcess_idle {s : State} {v : Voice} (h : v.stage = .idle) : envProcess s v = v := by
  simp only [envProcess, h]

theorem envProcess_attack {s : State} {v : Voice} (h : v.stage = .attack) :
    envProcess s v = envAttack s v := by simp only [envProcess, h]

theorem envProcess_decay {s : State} {v : Voice} (h : v.stage = .decay) :
    envProcess s v = envDecay s v := by simp only [envProcess, h]

theorem envProcess_sustain {s : State} {v : Voice} (h : v.stage = .sustain) :
    envProcess s v = { v with lvl := s.sus } := by simp only [envProcess, h, envSustain]

theorem envProcess_release {s : State} {v : Voice} (h : v.stage = .release) :
    envProcess s v = envRelease s v := by simp only [envProcess, h]

theorem envAttack_end {s : State} {v : Voice} (h : ONE ≤ v.lvl.toNat + s.attackInc) :
    envAttack s v = { v with lvl := levelOf ONE, stage := .decay } := if_pos h

theorem envAttack_go {s : State} {v : Voice} (h : v.lvl.toNat + s.attackInc < ONE) :
    envAttack s v = { v with lvl := levelOf (v.lvl.toNat + s.attackInc) } := if_neg (by omega)

theorem envDecay_end {s : State} {v : Voice} (h : v.lvl.toNat ≤ s.sus.toNat + s.decayDec) :
    envDecay s v = { v with lvl := s.sus, stage := .sustain } := if_pos h

theorem envDecay_go {s : State} {v : Voice} (h : s.sus.toNat + s.decayDec < v.lvl.toNat) :
    envDecay s v = { v with lvl := levelOf (v.lvl.toNat - s.decayDec) } := if_neg (by omega)

theorem envRelease_end {s : State} {v : Voice} (h : v.lvl.toNat ≤ s.releaseDec v) :
    envRelease s v = { v with lvl := levelOf 0, stage := .idle } := if_pos h

theorem envRelease_go {s : State} {v : Voice} (h : s.releaseDec v < v.lvl.toNat) :
    envRelease s v = { v with lvl := levelOf (v.lvl.toNat - s.releaseDec v) } := if_neg (by omega)

/-- An envelope step keeps a voice's invariants (R36). -/
theorem envProcess_ok {s : State} {v : Voice} (hs : s.sus.toNat ≤ ONE) (h : v.Ok) :
    (envProcess s v).Ok := by
  obtain ⟨h1, h2, h3, h4, h5, h6⟩ := h
  cases v with
  | mk key stage vel phase inc lvl rel =>
    cases stage with
    | idle => exact ⟨h1, h2, h3, h4, h5, h6⟩
    | attack =>
      simp only [envProcess]
      by_cases hc : ONE ≤ lvl.toNat + s.attackInc
      · rw [envAttack_end hc]
        simp_all [Voice.Ok, levelOf_toNat]
      · rw [envAttack_go (by simpa using hc)]
        have := levelOf_toNat (n := lvl.toNat + s.attackInc) (by omega)
        simp_all [Voice.Ok]
        omega
    | decay =>
      simp only [envProcess]
      by_cases hc : lvl.toNat ≤ s.sus.toNat + s.decayDec
      · rw [envDecay_end hc]
        simp_all [Voice.Ok]
      · rw [envDecay_go (by simpa using hc)]
        have := levelOf_toNat (n := lvl.toNat - s.decayDec) (by simp at h1; omega)
        simp_all [Voice.Ok]
        omega
    | sustain =>
      simp only [envProcess, envSustain]
      simp_all [Voice.Ok]
    | release =>
      simp only [envProcess]
      by_cases hc : lvl.toNat ≤ s.releaseDec ⟨key, .release, vel, phase, inc, lvl, rel⟩
      · rw [envRelease_end hc]
        simp_all [Voice.Ok, levelOf]
      · rw [envRelease_go (by simpa using hc)]
        have := levelOf_toNat
          (n := lvl.toNat - s.releaseDec ⟨key, .release, vel, phase, inc, lvl, rel⟩)
          (by simp at h1; omega)
        simp_all [Voice.Ok]
        omega

/-- The envelope reads only ATK_T, DEC_T, SUS, REL_T and SR (R170). -/
theorem envProcess_congr {s t : State} (h : t.atkT = s.atkT ∧ t.decT = s.decT ∧ t.sus = s.sus ∧
    t.relT = s.relT ∧ t.sr = s.sr) (v : Voice) : envProcess t v = envProcess s v := by
  obtain ⟨h1, h2, h3, h4, h5⟩ := h
  have ha : t.attackInc = s.attackInc := by rw [State.attackInc, State.attackSamples, h1, h5]; rfl
  have hd : t.decayDec = s.decayDec := by rw [State.decayDec, State.decaySamples, h2, h3, h5]; rfl
  have hr : t.releaseDec v = s.releaseDec v := by
    rw [State.releaseDec, State.releaseSamples, h4, h5]; rfl
  unfold envProcess envAttack envDecay envSustain envRelease
  rw [ha, hd, hr, h3]

end Sys2Proof.Machine
end

