-- ==== Sys2Proof/Laws/Flags.lean ====
section
/-! SUPPORT. What the flag and counter operations do, and that they keep STATUS bits 31:5 zero. -/

namespace Sys2Proof.Machine

theorem setFlag_status_lt {f : Flag} {s : State} (h : s.status.toNat < 32) :
    (s.setFlag f).status.toNat < 32 := by
  rw [State.setFlag_status, BitVec.toNat_or]
  refine Nat.or_lt_two_pow (n := 5) h ?_
  cases f <;> decide

theorem clearFlags_status_lt {fl : BitVec 5} {s : State} (h : s.status.toNat < 32) :
    (s.clearFlags fl).status.toNat < 32 := by
  rw [State.clearFlags_status, BitVec.toNat_and]
  exact lt_of_le_of_lt Nat.and_le_left h

/-- A flag that is set stays set (R323). -/
theorem setFlag_keeps {f g : Flag} {s : State} (h : flagIn g s.status = true) :
    flagIn g (s.setFlag f).status = true := by
  simp only [flagIn] at h ⊢
  rw [State.setFlag_status, BitVec.getLsbD_or, h, Bool.true_or]

theorem setFlag_setFlag (f : Flag) (s : State) : (s.setFlag f).setFlag f = s.setFlag f := by
  simp only [State.setFlag, BitVec.or_assoc, BitVec.or_self]

/-- DROP_COUNT as a number (R41). -/
theorem lose_toNat (k : Nat) (s : State) :
    (s.lose k).dropCount.toNat = min (s.dropCount.toNat + k) (2 ^ 32 - 1) := by
  rw [State.lose_dropCount, BitVec.toNat_ofNat, Nat.mod_eq_of_lt (by omega)]

theorem lose_lose (j k : Nat) (s : State) : (s.lose j).lose k = s.lose (j + k) := by
  have h := lose_toNat j s
  simp only [State.lose] at h ⊢
  rw [h]
  congr 2
  omega

theorem lose_zero (s : State) : s.lose 0 = s := by
  have := s.dropCount.isLt
  have h : min (s.dropCount.toNat + 0) (2 ^ 32 - 1) = s.dropCount.toNat := by omega
  simp only [State.lose, h, BitVec.ofNat_toNat, BitVec.setWidth_eq]

end Sys2Proof.Machine
end

