-- ==== Sys2Proof/Laws/Operands.lean ====
section
/-! SUPPORT. The rounding of R12. -/

namespace Sys2Proof.Machine

/-- `rne a d` is within half of `a / d`, and even when it is exactly half away (R12). -/
theorem rne_spec (a : Int) {d : Nat} (hd : 0 < d) :
    2 * |a - rne a d * d| ≤ d ∧ (2 * |a - rne a d * d| = d → rne a d % 2 = 0) := by
  have h1 := Int.emod_add_ediv_mul a d
  have h2 := Int.emod_nonneg a (show (d : Int) ≠ 0 by omega)
  have h3 := Int.emod_lt_of_pos a (show (0 : Int) < d by omega)
  unfold rne
  dsimp only
  generalize a / (d : Int) = q at *
  generalize a % (d : Int) = r at *
  subst h1
  have e1 : r + q * d - q * d = r := by ring
  have e2 : r + q * d - (q + 1) * d = r - d := by ring
  split_ifs with c1 c2 c3
  · rw [e1, abs_of_nonneg h2]; exact ⟨by omega, by omega⟩
  · rw [e2, abs_of_nonpos (by omega)]; exact ⟨by omega, by omega⟩
  · rw [e1, abs_of_nonneg h2]; exact ⟨by omega, fun _ => c3⟩
  · rw [e2, abs_of_nonpos (by omega)]; exact ⟨by omega, fun _ => by omega⟩

end Sys2Proof.Machine
end

