-- ==== Sys2Proof/Laws/Oscillator.lean ====
section
/-! SUPPORT. What the bitwise search of the pitch increment finds, and the bounds of the lookup. -/

namespace Sys2Proof.Machine

/-- The search finds the last number of the run that starts at `a` and passes the test (R140). -/
theorem greatest_spec (p : Nat → Bool) (b a : Nat) (h : p a = true) (h' : p (a + 2 ^ b) = false) :
    p (greatest p b a) = true ∧ p (greatest p b a + 1) = false := by
  induction b generalizing a with
  | zero => exact ⟨h, h'⟩
  | succ b ih =>
    unfold greatest
    split_ifs with hc
    · exact ih _ hc (by rwa [add_assoc, ← two_mul, ← pow_succ'])
    · exact ih _ h (by simpa using hc)

/-- The search space of `floorTwice` is wide enough: at the highest note and lowest rate `2 x < 2^48`. -/
theorem floorTwice_spec {n sr : Nat} (hn : n < 128) (hs : sr ≠ 0) :
    atMostTwice n sr (floorTwice n sr) = true ∧ atMostTwice n sr (floorTwice n sr + 1) = false := by
  refine greatest_spec _ _ _ (by simp [atMostTwice]) ?_
  have h1 : (2 : Nat) ^ n ≤ 2 ^ 127 := Nat.pow_le_pow_right (by decide) (by omega)
  have h2 : ((2 : Nat) ^ 48) ^ 12 ≤ (2 ^ 48 * sr) ^ 12 :=
    Nat.pow_le_pow_left (Nat.le_mul_of_pos_right _ (by omega)) _
  simp only [atMostTwice, zero_add, decide_eq_false_iff_not, not_le]
  calc (2 ^ 33 * 440) ^ 12 * 2 ^ n ≤ (2 ^ 33 * 440) ^ 12 * 2 ^ 127 := Nat.mul_le_mul_left _ h1
    _ < (2 ^ 48) ^ 12 * 2 ^ 69 := by norm_num
    _ ≤ (2 ^ 48 * sr) ^ 12 * 2 ^ 69 := Nat.mul_le_mul_right _ h2

/-- A sample fits Q2.22 (R11, R81). -/
theorem tableRead_bounds (c : Config) (i : Nat) : -(2 ^ 23) ≤ tableRead c i ∧ tableRead c i < 2 ^ 23 := by
  have h (x : BitVec 24) : -(2 ^ 23) ≤ x.toInt ∧ x.toInt < 2 ^ 23 := by
    have := x.two_mul_toInt_lt
    have := x.le_two_mul_toInt
    omega
  unfold tableRead
  split <;> exact h _

/-- The interpolation of R143 lies between its neighbours. -/
theorem interp_bounds (a b : Int) {r d : Nat} (h : r < d) :
    min a b ≤ a + (b - a) * r / d ∧ a + (b - a) * r / d ≤ max a b := by
  have hd : (0 : Int) < d := by omega
  have hr : (r : Int) ≤ d := by omega
  rcases le_total a b with hab | hab
  · have h1 : 0 ≤ (b - a) * r / d :=
      Int.ediv_nonneg (mul_nonneg (by omega) (by omega)) hd.le
    have h2 : (b - a) * r / d ≤ b - a :=
      Int.ediv_le_of_le_mul hd (mul_le_mul_of_nonneg_left hr (by omega))
    omega
  · have h1 : (b - a) * r / d ≤ 0 := by
      refine Int.ediv_le_of_le_mul hd ?_
      rw [zero_mul]
      exact mul_nonpos_of_nonpos_of_nonneg (by omega) (by omega)
    have h2 : b - a ≤ (b - a) * r / d := by
      refine (Int.le_ediv_iff_mul_le hd).2 ?_
      exact mul_le_mul_of_nonpos_left hr (by omega)
    omega

/-- Every index of the lookup is in the table (R142, R143). -/
theorem index_lt {c : Config} (h : 1 ≤ c.W) (h' : c.W ≤ 16) {p : Nat} (hp : p < 2 ^ 32) :
    p / 2 ^ fracBits c < 2 ^ c.W := by
  rw [Nat.div_lt_iff_lt_mul (by positivity), ← pow_add, fracBits, show c.W + (32 - c.W) = 32 by omega]
  exact hp

/-- The sample a voice reads fits Q2.22 (R142, R143). -/
theorem oscSample_bounds (c : Config) (p : BitVec 32) : -(2 ^ 23) ≤ oscSample c p ∧ oscSample c p < 2 ^ 23 := by
  unfold oscSample
  split
  · exact tableRead_bounds ..
  · have h := interp_bounds (tableRead c (p.toNat / 2 ^ fracBits c))
      (tableRead c ((p.toNat / 2 ^ fracBits c + 1) % 2 ^ c.W))
      (Nat.mod_lt p.toNat (show 0 < 2 ^ fracBits c by positivity))
    have h1 := tableRead_bounds c (p.toNat / 2 ^ fracBits c)
    have h2 := tableRead_bounds c ((p.toNat / 2 ^ fracBits c + 1) % 2 ^ c.W)
    simp only [sampleLinear]
    push_cast at h ⊢
    omega

end Sys2Proof.Machine
end

