-- ==== Sys2Proof/Laws/PerInstr.lean ====
section
/-! SUPPORT. Families of lemmas with one lemma per constructor of Instr (LAWS.json). -/

namespace Sys2Proof.Laws

/-- The word of a well-formed instruction decodes to it (R102 to R111, R114). -/
def RoundTrip.Statement (i : Instr) : Prop := i.wellFormed = true → decode (encode i) = .ok i

theorem RoundTrip.reset (bs : BitVec 16) (sr : BitVec 24) : RoundTrip.Statement (.reset bs sr) :=
  fun _ => decodeCmd_reset bs sr

theorem RoundTrip.param (pid : ParamId) (value : BitVec 32) : RoundTrip.Statement (.param pid value) :=
  fun _ => decodeCmd_param pid value

theorem RoundTrip.midi (ofs : BitVec 16) (st d1 d2 : BitVec 8) :
    RoundTrip.Statement (.midi ofs st d1 d2) :=
  fun _ => decodeCmd_midi ofs st d1 d2

theorem RoundTrip.process (n : BitVec 16) : RoundTrip.Statement (.process n) :=
  fun _ => decodeCmd_process n

theorem RoundTrip.setkey (key : Key) : RoundTrip.Statement (.setkey key) :=
  fun _ => decodeCmd_setkey key

theorem RoundTrip.qactive : RoundTrip.Statement .qactive := fun _ => decodeCmd_qactive

theorem RoundTrip.qkey (key : Note) : RoundTrip.Statement (.qkey key) := fun _ => decodeCmd_qkey key

theorem RoundTrip.rdreg (reg : BitVec 24) : RoundTrip.Statement (.rdreg reg) :=
  fun _ => decodeCmd_rdreg reg

theorem RoundTrip.clrstat (flags : BitVec 5) (drops : Bool) :
    RoundTrip.Statement (.clrstat flags drops) :=
  fun _ => decodeCmd_clrstat flags drops

theorem RoundTrip.notStatus (st : BitVec 7) (d1 d2 : BitVec 8) :
    RoundTrip.Statement (.notStatus st d1 d2) :=
  fun _ => congrArg Except.ok (decodeMsg_notStatus st d1 d2)

theorem RoundTrip.noteMalformedD1 (st : BitVec 5) (d1 : BitVec 7) (d2 : BitVec 8) :
    RoundTrip.Statement (.noteMalformedD1 st d1 d2) :=
  fun _ => congrArg Except.ok (decodeMsg_noteMalformedD1 st d1 d2)

theorem RoundTrip.noteMalformedD2 (st : BitVec 5) (d1 d2 : BitVec 7) :
    RoundTrip.Statement (.noteMalformedD2 st d1 d2) :=
  fun _ => congrArg Except.ok (decodeMsg_noteMalformedD2 st d1 d2)

theorem RoundTrip.noteOff (c : BitVec 4) (n : Note) (v : Velocity) :
    RoundTrip.Statement (.noteOff c n v) :=
  fun _ => congrArg Except.ok (decodeMsg_noteOff c n v)

theorem RoundTrip.noteOnZero (c : BitVec 4) (n : Note) : RoundTrip.Statement (.noteOnZero c n) :=
  fun _ => congrArg Except.ok (decodeMsg_noteOnZero c n)

theorem RoundTrip.noteOn (c : BitVec 4) (n : Note) (v : Velocity) :
    RoundTrip.Statement (.noteOn c n v) :=
  fun h => congrArg Except.ok (decodeMsg_noteOn c n v (by simpa [Instr.wellFormed] using h))

theorem RoundTrip.pitchWheel (c : BitVec 4) (d1 d2 : BitVec 8) :
    RoundTrip.Statement (.pitchWheel c d1 d2) :=
  fun _ => congrArg Except.ok (decodeMsg_pitchWheel c d1 d2)

theorem RoundTrip.otherAB (st : BitVec 5) (d1 d2 : BitVec 8) :
    RoundTrip.Statement (.otherAB st d1 d2) :=
  fun _ => congrArg Except.ok (decodeMsg_otherAB st d1 d2)

theorem RoundTrip.otherCD (st : BitVec 5) (d1 d2 : BitVec 8) :
    RoundTrip.Statement (.otherCD st d1 d2) :=
  fun _ => congrArg Except.ok (decodeMsg_otherCD st d1 d2)

theorem RoundTrip.otherF (st : BitVec 4) (d1 d2 : BitVec 8) :
    RoundTrip.Statement (.otherF st d1 d2) :=
  fun _ => congrArg Except.ok (decodeMsg_otherF st d1 d2)

end Sys2Proof.Laws
end

