-- ==== Sys2Proof/Laws/Pool.lean ====
section
/-! SUPPORT. What the scans and the operations of the voice pool can do. -/

namespace Sys2Proof.Machine

/-! ## Busy -/

theorem Voice.busy_iff (v : Voice) : v.busy = true ↔ v.stage ≠ .idle := by simp [Voice.busy]

theorem Voice.not_busy_iff (v : Voice) : v.busy = false ↔ v.stage = .idle := by simp [Voice.busy]

/-! ## FirstBound -/

theorem firstBound_eq_none {n : Note} {vs : List Voice} :
    firstBound n vs = none ↔ ∀ u ∈ vs, u.key = some n → u.stage = .idle := by
  simp [firstBound, Voice.busy]

/-- In a pool where a bound voice is busy, FirstBound fails exactly when the note is unbound. -/
theorem firstBound_eq_none_of_ok {n : Note} {vs : List Voice} (h : ∀ v ∈ vs, v.Ok) :
    firstBound n vs = none ↔ ∀ u ∈ vs, u.key ≠ some n := by
  rw [firstBound_eq_none]
  refine forall₂_congr fun u hu => ⟨fun f e => ?_, fun f e => absurd e f⟩
  exact (h u hu).2.2.2.1 (by simp [e]) (f e)

theorem firstBound_eq_some {n : Note} {vs : List Voice} {j : Nat} (h : firstBound n vs = some j) :
    ∃ u, vs[j]? = some u ∧ u.key = some n ∧ u.stage ≠ .idle := by
  obtain ⟨hj, hp, -⟩ := List.findIdx?_eq_some_iff_getElem.1 h
  exact ⟨vs[j], by simp [hj], by simpa [Voice.busy] using hp⟩

/-- In a pool where no note is bound twice, FirstBound finds the bound voice. -/
theorem firstBound_of_bound {n : Note} {vs : List Voice} {j : Nat} {u : Voice}
    (hok : ∀ v ∈ vs, v.Ok) (hp : vs.Pairwise NotBothBound) (hj : vs[j]? = some u)
    (hu : u.key = some n) : firstBound n vs = some j := by
  obtain ⟨hlt, rfl⟩ := List.getElem?_eq_some_iff.1 hj
  refine List.findIdx?_eq_some_iff_getElem.2 ⟨hlt, ?_, fun i hi => ?_⟩
  · have := (hok _ (List.getElem_mem hlt)).2.2.2.1 (by simp [hu])
    simpa [Voice.busy, hu] using this
  · have := List.pairwise_iff_getElem.1 hp i j (by omega) hlt hi
    rcases this with h | h
    · simp [h]
    · rw [hu] at h; simp [h]

/-! ## FindFreeVoice -/

/-- What the scan of R190 finds: the best so far if nothing is quieter, else the first quietest. -/
theorem quietestFrom_spec (vs : List Voice) (i best g : Nat) :
    (quietestFrom vs i best g = best ∧ ∀ u ∈ vs, g ≤ u.gain) ∨
    (∃ k, ∃ v, quietestFrom vs i best g = i + k ∧ vs[k]? = some v ∧ v.gain < g ∧
      (∀ u ∈ vs, v.gain ≤ u.gain) ∧ ∀ j < k, ∀ u, vs[j]? = some u → v.gain < u.gain) := by
  induction vs generalizing i best g with
  | nil => exact .inl ⟨rfl, by simp⟩
  | cons v vs ih =>
    by_cases hv : v.gain < g
    · simp only [quietestFrom, if_pos hv]
      rcases ih (i + 1) i v.gain with ⟨h1, h2⟩ | ⟨k, w, h1, h2, h3, h4, h5⟩
      · refine .inr ⟨0, v, by simp [h1], rfl, hv, ?_, by simp⟩
        simpa using h2
      · refine .inr ⟨k + 1, w, by omega, h2, by omega, ?_, ?_⟩
        · simp only [List.mem_cons, forall_eq_or_imp]
          exact ⟨by omega, h4⟩
        · intro j hj u hu
          cases j with
          | zero => simp at hu; subst hu; exact h3
          | succ j => exact h5 j (by omega) u hu
    · simp only [quietestFrom, if_neg hv]
      rcases ih (i + 1) best g with ⟨h1, h2⟩ | ⟨k, w, h1, h2, h3, h4, h5⟩
      · exact .inl ⟨h1, by simpa using ⟨by omega, h2⟩⟩
      · refine .inr ⟨k + 1, w, by omega, h2, h3, ?_, ?_⟩
        · simp only [List.mem_cons, forall_eq_or_imp]
          exact ⟨by omega, h4⟩
        · intro j hj u hu
          cases j with
          | zero => simp at hu; subst hu; omega
          | succ j => exact h5 j (by omega) u hu

theorem quietest_spec {vs : List Voice} (h : vs ≠ []) :
    ∃ v, vs[quietest vs]? = some v ∧ (∀ u ∈ vs, v.gain ≤ u.gain) ∧
      ∀ j < quietest vs, ∀ u, vs[j]? = some u → v.gain < u.gain := by
  cases vs with
  | nil => exact absurd rfl h
  | cons v vs =>
    simp only [quietest]
    rcases quietestFrom_spec vs 1 0 v.gain with ⟨h1, h2⟩ | ⟨k, w, h1, h2, h3, h4, h5⟩
    · rw [h1]
      exact ⟨v, rfl, by simpa using h2, by simp⟩
    · rw [h1, Nat.add_comm]
      refine ⟨w, h2, ?_, ?_⟩
      · simp only [List.mem_cons, forall_eq_or_imp]
        exact ⟨by omega, h4⟩
      · intro j hj u hu
        cases j with
        | zero => simp at hu; subst hu; exact h3
        | succ j => exact h5 j (by omega) u hu

theorem findFreeVoice_of_idle {vs : List Voice} (h : ∃ u ∈ vs, u.stage = .idle) :
    ∃ v, vs[findFreeVoice vs]? = some v ∧ v.stage = .idle ∧
      ∀ j < findFreeVoice vs, ∀ u, vs[j]? = some u → u.stage ≠ .idle := by
  unfold findFreeVoice
  cases hf : vs.findIdx? (fun v => !v.busy) with
  | none =>
    obtain ⟨u, hu, hi⟩ := h
    have := List.findIdx?_eq_none_iff.1 hf u hu
    simp [Voice.busy, hi] at this
  | some i =>
    obtain ⟨hi, hp, hl⟩ := List.findIdx?_eq_some_iff_getElem.1 hf
    refine ⟨vs[i], by simp [hi], by simpa [Voice.busy] using hp, fun j hj u hu => ?_⟩
    obtain ⟨hjl, rfl⟩ := List.getElem?_eq_some_iff.1 hu
    simpa [Voice.busy] using hl j hj

theorem findFreeVoice_of_busy {vs : List Voice} (h : ∀ u ∈ vs, u.stage ≠ .idle) :
    findFreeVoice vs = quietest vs := by
  have : vs.findIdx? (fun v => !v.busy) = none := by
    rw [List.findIdx?_eq_none_iff]
    exact fun u hu => by simp [Voice.busy, h u hu]
  rw [findFreeVoice, this]

theorem findFreeVoice_lt {vs : List Voice} (h : vs ≠ []) : findFreeVoice vs < vs.length := by
  by_cases hb : ∃ u ∈ vs, u.stage = .idle
  · obtain ⟨v, hv, -⟩ := findFreeVoice_of_idle hb
    exact (List.getElem?_eq_some_iff.1 hv).1
  · push Not at hb
    obtain ⟨v, hv, -⟩ := quietest_spec h
    rw [findFreeVoice_of_busy hb]
    exact (List.getElem?_eq_some_iff.1 hv).1

/-! ## The operations touch only the voice file -/

theorem State.noteOn_eq (n : Note) (v : Velocity) (s : State) :
    s.noteOn n v = s.setVoices (s.noteOn n v).voices := by
  unfold State.noteOn
  split
  · rfl
  · split <;> rfl

theorem State.noteOff_eq (n : Note) (s : State) : s.noteOff n = s.setVoices (s.noteOff n).voices := by
  unfold State.noteOff
  split <;> rfl

/-! ## A pool after a release or a start -/

theorem releaseVoice_of_stage {v : Voice} (h : v.stage ≠ .idle) (h' : v.stage ≠ .release) :
    releaseVoice v = { v with key := none, rel := v.lvl, stage := .release } := by
  cases v with
  | mk key stage vel phase inc lvl rel => cases stage <;> simp_all [releaseVoice]

/-- A bound voice is in ATTACK, DECAY or SUSTAIN, so Release writes it (R193). -/
theorem releaseVoice_of_bound {v : Voice} {n : Note} (hok : v.Ok) (h : v.key = some n) :
    releaseVoice v = { v with key := none, rel := v.lvl, stage := .release } :=
  releaseVoice_of_stage (hok.2.2.2.1 (by simp [h])) (fun e => by simp [hok.2.2.2.2.1 e] at h)

theorem startedVoice_ok {n : Note} {v : Velocity} (hv : v ≠ 0#7) (sr : BitVec 24) :
    (startedVoice n v sr).Ok := by
  simp [startedVoice, Voice.Ok, ONE, hv]

theorem releaseVoice_ok {v : Voice} (h : v.Ok) : (releaseVoice v).Ok := by
  obtain ⟨h1, h2, h3, h4, h5, h6⟩ := h
  cases v with
  | mk key stage vel phase inc lvl rel => cases stage <;> simp_all [releaseVoice, Voice.Ok]

/-- Writing a voice whose note no other voice is bound to keeps the pool's invariants. -/
theorem VoicesOk.set {c : Config} {vs : List Voice} (h : VoicesOk c vs) {i : Nat} {v : Voice}
    (hv : v.Ok) (hu : ∀ j u, vs[j]? = some u → j ≠ i → NotBothBound u v ∧ NotBothBound v u) :
    VoicesOk c (vs.set i v) := by
  obtain ⟨hl, hok, hp⟩ := h
  refine ⟨by simp [hl], fun u hu' => ?_, List.pairwise_iff_getElem.2 fun a b ha hb hab => ?_⟩
  · rcases List.mem_or_eq_of_mem_set hu' with h | h
    · exact hok u h
    · exact h ▸ hv
  · simp only [List.length_set] at ha hb
    have hab' := List.pairwise_iff_getElem.1 hp a b ha hb hab
    simp only [List.getElem_set]
    split_ifs with e1 e2 e2
    · omega
    · exact (hu b _ (List.getElem?_eq_getElem hb) (by omega)).2
    · exact (hu a _ (List.getElem?_eq_getElem ha) (by omega)).1
    · exact hab'

theorem notBothBound_of_none_left {a b : Voice} (h : a.key = none) : NotBothBound a b := .inl h

theorem notBothBound_of_none_right {a b : Voice} (h : b.key = none) : NotBothBound a b := by
  by_cases ha : a.key = none
  · exact .inl ha
  · exact .inr (by rw [h]; exact ha)

theorem VoicesOk.set_unbound {c : Config} {vs : List Voice} (h : VoicesOk c vs) {i : Nat} {v : Voice}
    (hv : v.Ok) (hk : v.key = none) : VoicesOk c (vs.set i v) :=
  h.set hv fun _ _ _ _ => ⟨notBothBound_of_none_right hk, notBothBound_of_none_left hk⟩

theorem modify_eq_set {vs : List Voice} {j : Nat} {u : Voice} (f : Voice → Voice) (h : vs[j]? = some u) :
    vs.modify j f = vs.set j (f u) := by
  rw [List.modify_eq_set_getElem?, h]; rfl

/-- The pool after the voice bound to a note is released: still well formed, the note unbound. -/
theorem VoicesOk.release {c : Config} {vs : List Voice} (h : VoicesOk c vs) {j : Nat} {u : Voice}
    {n : Note} (hj : vs[j]? = some u) (hu : u.key = some n) :
    vs.modify j releaseVoice = vs.set j { u with key := none, rel := u.lvl, stage := .release } ∧
    VoicesOk c (vs.modify j releaseVoice) ∧ ∀ w ∈ vs.modify j releaseVoice, w.key ≠ some n := by
  have huok : u.Ok := h.2.1 u (List.mem_of_getElem? hj)
  have e : vs.modify j releaseVoice =
      vs.set j { u with key := none, rel := u.lvl, stage := .release } := by
    rw [modify_eq_set _ hj, releaseVoice_of_bound huok hu]
  refine ⟨e, ?_, ?_⟩
  · rw [e]
    refine h.set_unbound ?_ rfl
    have := releaseVoice_ok huok
    rwa [releaseVoice_of_bound huok hu] at this
  · rw [e]
    intro w hw hwn
    obtain ⟨i, hi, hiw⟩ := List.getElem_of_mem hw
    simp only [List.length_set] at hi
    rw [List.getElem_set] at hiw
    split_ifs at hiw with hji
    · subst hiw; cases hwn
    · have h1 := firstBound_of_bound h.2.1 h.2.2 hj hu
      have h2 := firstBound_of_bound (j := i) (u := w) h.2.1 h.2.2
        (by rw [List.getElem?_eq_getElem hi, hiw]) hwn
      exact hji (Option.some.inj (h1.symm.trans h2))

/-- The pool after a start on an unbound note. -/
theorem VoicesOk.start {c : Config} {vs : List Voice} (h : VoicesOk c vs) {n : Note} {v : Velocity}
    (hv : v ≠ 0#7) (i : Nat) (sr : BitVec 24)
    (hn : ∀ j u, vs[j]? = some u → j ≠ i → u.key ≠ some n) :
    VoicesOk c (vs.set i (startedVoice n v sr)) :=
  h.set (startedVoice_ok hv sr) fun j u hj hji =>
    ⟨.inr (by simpa [startedVoice] using hn j u hj hji),
      .inr (by simpa [startedVoice] using (hn j u hj hji).symm)⟩

/-! ## NoteOn and NoteOff, by cases -/

/-- NoteOn of an unbound note (R191). -/
theorem State.noteOn_unbound {n : Note} {v : Velocity} {s : State} (hok : ∀ u ∈ s.voices, u.Ok)
    (h : ∀ u ∈ s.voices, u.key ≠ some n) :
    s.noteOn n v = s.setVoices (s.voices.set (findFreeVoice s.voices) (startedVoice n v s.sr)) := by
  rw [State.noteOn, (firstBound_eq_none_of_ok hok).2 h]
  rfl

/-- NoteOn of a bound note, RETRIGGER (R191). -/
theorem State.noteOn_retrigger {n : Note} {v : Velocity} {s : State} {j : Nat} {u : Voice}
    (h : VoicesOk s.cfg s.voices) (hj : s.voices[j]? = some u) (hu : u.key = some n)
    (hr : s.cfg.retrig = .retrigger) :
    s.noteOn n v = s.setVoices (s.voices.set j (startedVoice n v s.sr)) := by
  rw [State.noteOn, firstBound_of_bound h.2.1 h.2.2 hj hu]
  simp only [hr]
  rfl

/-- NoteOn of a bound note, REALLOCATE (R191). -/
theorem State.noteOn_reallocate {n : Note} {v : Velocity} {s : State} {j : Nat} {u : Voice}
    (h : VoicesOk s.cfg s.voices) (hj : s.voices[j]? = some u) (hu : u.key = some n)
    (hr : s.cfg.retrig = .reallocate) :
    s.noteOn n v = s.setVoices ((s.voices.modify j releaseVoice).set
      (findFreeVoice (s.voices.modify j releaseVoice)) (startedVoice n v s.sr)) := by
  rw [State.noteOn, firstBound_of_bound h.2.1 h.2.2 hj hu]
  simp only [hr]
  rfl

theorem State.noteOff_unbound {n : Note} {s : State} (hok : ∀ u ∈ s.voices, u.Ok)
    (h : ∀ u ∈ s.voices, u.key ≠ some n) : s.noteOff n = s := by
  rw [State.noteOff, (firstBound_eq_none_of_ok hok).2 h]

theorem State.noteOff_bound {n : Note} {s : State} {j : Nat} {u : Voice}
    (h : VoicesOk s.cfg s.voices) (hj : s.voices[j]? = some u) (hu : u.key = some n) :
    s.noteOff n = s.setVoices (s.voices.modify j releaseVoice) := by
  rw [State.noteOff, firstBound_of_bound h.2.1 h.2.2 hj hu]
  rfl

/-- Either a note is unbound or some voice is bound to it. -/
theorem unbound_or_bound (n : Note) (vs : List Voice) :
    (∀ u ∈ vs, u.key ≠ some n) ∨ ∃ (j : Nat) (u : Voice), vs[j]? = some u ∧ u.key = some n := by
  by_cases h : ∃ u ∈ vs, u.key = some n
  · obtain ⟨u, hu, hn⟩ := h
    obtain ⟨j, hj, rfl⟩ := List.getElem_of_mem hu
    exact .inr ⟨j, _, List.getElem?_eq_getElem hj, hn⟩
  · push Not at h
    exact .inl h

/-- NoteOn keeps the voice file's invariants (R36). -/
theorem VoicesOk.noteOn {n : Note} {v : Velocity} {s : State} (h : VoicesOk s.cfg s.voices)
    (hv : v ≠ 0#7) : VoicesOk s.cfg (s.noteOn n v).voices := by
  rcases unbound_or_bound n s.voices with hn | ⟨j, u, hj, hu⟩
  · rw [State.noteOn_unbound h.2.1 hn]
    exact h.start hv _ _ fun i w hi _ => hn w (List.mem_of_getElem? hi)
  · cases hr : s.cfg.retrig with
    | retrigger =>
      rw [State.noteOn_retrigger h hj hu hr]
      refine h.start hv _ _ fun i w hi hij hw => hij ?_
      have h1 := firstBound_of_bound h.2.1 h.2.2 hj hu
      exact Option.some.inj ((firstBound_of_bound h.2.1 h.2.2 hi hw).symm.trans h1)
    | reallocate =>
      rw [State.noteOn_reallocate h hj hu hr]
      obtain ⟨-, h2, h3⟩ := h.release hj hu
      exact h2.start hv _ _ fun i w hi _ => h3 w (List.mem_of_getElem? hi)

/-- NoteOff keeps the voice file's invariants (R36). -/
theorem VoicesOk.noteOff {n : Note} {s : State} (h : VoicesOk s.cfg s.voices) :
    VoicesOk s.cfg (s.noteOff n).voices := by
  rcases unbound_or_bound n s.voices with hn | ⟨j, u, hj, hu⟩
  · rwa [State.noteOff_unbound h.2.1 hn]
  · rw [State.noteOff_bound h hj hu]
    exact (h.release hj hu).2.1

end Sys2Proof.Machine
end

