-- ==== Sys2Proof/Laws/Queue.lean ====
section
/-! SUPPORT. What the queue operations do to an ordered queue, and that each keeps its invariants. -/

namespace Sys2Proof.Machine

/-- The order of R43. -/
def Sorted (q : List Entry) : Prop := q.Pairwise (fun a b => a.ofs.toNat ≤ b.ofs.toNat)

/-- In an ordered queue the entries up to a bound come first, all of them. -/
theorem take_countP_of_sorted {q : List Entry} (h : Sorted q) (b : Nat) :
    q.take (q.countP (fun e => decide (e.ofs.toNat ≤ b))) =
      q.filter (fun e => decide (e.ofs.toNat ≤ b)) ∧
    q.drop (q.countP (fun e => decide (e.ofs.toNat ≤ b))) =
      q.filter (fun e => decide (b < e.ofs.toNat)) := by
  induction q with
  | nil => simp
  | cons a q ih =>
    obtain ⟨ha, hq⟩ := List.pairwise_cons.1 h
    by_cases hb : a.ofs.toNat ≤ b
    · have hb' : ¬b < a.ofs.toNat := by omega
      simp [hb, hb', ih hq]
    · have h0 : ∀ x ∈ q, ¬x.ofs.toNat ≤ b := fun x hx => by have := ha x hx; omega
      have h1 : q.countP (fun e => decide (e.ofs.toNat ≤ b)) = 0 := by
        rw [List.countP_eq_zero]; simpa using h0
      have h2 : q.filter (fun e => decide (e.ofs.toNat ≤ b)) = [] := by
        rw [List.filter_eq_nil_iff]; simpa using h0
      have h3 : q.filter (fun e => decide (b < e.ofs.toNat)) = q := by
        rw [List.filter_eq_self]; intro x hx; have := h0 x hx; simp; omega
      have hb' : b < a.ofs.toNat := by omega
      simp [hb, hb', h1, h2, h3]

/-- QAdd's insertion into an ordered queue (R221). -/
theorem qInsert_of_sorted {q : List Entry} (h : Sorted q) (e : Entry) :
    qInsert e q = q.filter (fun x => decide (x.ofs.toNat ≤ e.ofs.toNat)) ++
      e :: q.filter (fun x => decide (e.ofs.toNat < x.ofs.toNat)) := by
  obtain ⟨h1, h2⟩ := take_countP_of_sorted h e.ofs.toNat
  simp only [qInsert, h1, h2]

theorem qInsert_perm (e : Entry) (q : List Entry) : (qInsert e q).Perm (e :: q) := by
  have := List.perm_middle (a := e)
    (l₁ := q.take (q.countP (fun x => decide (x.ofs.toNat ≤ e.ofs.toNat))))
    (l₂ := q.drop (q.countP (fun x => decide (x.ofs.toNat ≤ e.ofs.toNat))))
  rwa [List.take_append_drop] at this

theorem qInsert_length (e : Entry) (q : List Entry) : (qInsert e q).length = q.length + 1 := by
  simpa using (qInsert_perm e q).length_eq

theorem mem_qInsert {e x : Entry} {q : List Entry} : x ∈ qInsert e q ↔ x = e ∨ x ∈ q := by
  rw [(qInsert_perm e q).mem_iff, List.mem_cons]

theorem Sorted.filter {q : List Entry} (h : Sorted q) (p : Entry → Bool) : Sorted (q.filter p) :=
  h.sublist List.filter_sublist

theorem Sorted.qInsert {q : List Entry} (h : Sorted q) (e : Entry) : Sorted (qInsert e q) := by
  rw [qInsert_of_sorted h]
  refine List.pairwise_append.2 ⟨h.filter _, List.pairwise_cons.2 ⟨?_, h.filter _⟩, ?_⟩
  · intro x hx
    have := (List.mem_filter.1 hx).2
    simp at this; omega
  · intro x hx y hy
    have hx' := (List.mem_filter.1 hx).2
    rcases List.mem_cons.1 hy with rfl | hy
    · simpa using hx'
    · have hy' := (List.mem_filter.1 hy).2
      simp at hx' hy'; omega

/-- QAdd by cases (R221). -/
theorem State.qAdd_full {e : Entry} {s : State} (h : s.bs.toNat ≤ s.queue.length) :
    s.qAdd e = (s.setFlag .qovf).lose 1 := if_pos h

theorem State.qAdd_room {e : Entry} {s : State} (h : s.queue.length < s.bs.toNat) :
    s.qAdd e = s.setQueue (qInsert e s.queue) := if_neg (by omega)

/-- QAdd of an entry with an offset below BS keeps the queue's invariants (R229). -/
theorem QueueOk.qAdd {s : State} (h : QueueOk s.bs s.queue) {e : Entry} (he : e.ofs.toNat < s.bs.toNat) :
    QueueOk s.bs (s.qAdd e).queue := by
  by_cases hr : s.bs.toNat ≤ s.queue.length
  · rwa [State.qAdd_full hr]
  · rw [State.qAdd_room (by omega)]
    refine ⟨by rw [State.setQueue_queue, qInsert_length]; omega, fun x hx => ?_, Sorted.qInsert h.2.2 e⟩
    rcases mem_qInsert.1 hx with rfl | hx
    · exact he
    · exact h.2.1 x hx

/-- QResize by cases (R226). -/
theorem State.qResize_drops {n : Nat} {s : State}
    (h : 0 < s.queue.length - (resized n s.queue).length) :
    s.qResize n = ((s.setFlag .rszdrop).lose (s.queue.length - (resized n s.queue).length)).setQueue
      (resized n s.queue) := if_pos h

theorem State.qResize_keeps {n : Nat} {s : State}
    (h : s.queue.length - (resized n s.queue).length = 0) :
    s.qResize n = s.setQueue (resized n s.queue) := if_neg (by omega)

/-- A queue within the new block size loses nothing (R226). -/
theorem resized_of_ok {bs : BitVec 16} {n : Nat} {q : List Entry} (h : QueueOk bs q) (hn : bs.toNat ≤ n) :
    resized n q = q := by
  rw [resized, List.filter_eq_self.2 (fun e he => by have := h.2.1 e he; simp; omega),
    List.take_of_length_le (h.1.trans hn)]

/-- QResize keeps the queue's invariants for the new block size (R226, R229). -/
theorem QueueOk.resized {bs bs' : BitVec 16} {q : List Entry} (h : QueueOk bs q) :
    QueueOk bs' (resized bs'.toNat q) := by
  refine ⟨by simp [Machine.resized], fun e he => ?_, ?_⟩
  · simpa using (List.mem_filter.1 (List.mem_of_mem_take he)).2
  · exact List.Pairwise.sublist ((List.take_sublist ..).trans List.filter_sublist) h.2.2

/-- QFlush keeps the queue's invariants (R227, R229). -/
theorem QueueOk.flushed {bs : BitVec 16} {q : List Entry} (h : QueueOk bs q) (n : Nat) :
    QueueOk bs (flushed n q) := by
  obtain ⟨h1, h2, h3⟩ := h
  have ofs : ∀ e : Entry, (e.earlier n).ofs.toNat = e.ofs.toNat - n := fun e => by
    have := e.ofs.isLt
    simp [Entry.earlier]; omega
  refine ⟨?_, fun e he => ?_, ?_⟩
  · simp only [Machine.flushed, List.length_map]
    exact (List.length_filter_le ..).trans h1
  · obtain ⟨x, hx, rfl⟩ := List.mem_map.1 he
    have := h2 x (List.mem_filter.1 hx).1
    rw [ofs]; omega
  · refine List.pairwise_map.2 (List.Pairwise.imp ?_ (h3.sublist List.filter_sublist))
    intro a b hab
    rw [ofs, ofs]; omega

/-! ## Flush -/

theorem Entry.earlier_ofs (n : Nat) (e : Entry) : (e.earlier n).ofs.toNat = e.ofs.toNat - n := by
  have := e.ofs.isLt
  simp [Entry.earlier]; omega

theorem Entry.earlier_zero (e : Entry) : e.earlier 0 = e := by simp [Entry.earlier]

theorem Entry.earlier_earlier (a b : Nat) (e : Entry) : (e.earlier a).earlier b = e.earlier (a + b) := by
  have h := Entry.earlier_ofs a e
  simp only [Entry.earlier] at h ⊢
  rw [h, Nat.sub_sub]

theorem flushed_zero (q : List Entry) : flushed 0 q = q := by
  rw [flushed, List.filter_eq_self.2 (by simp),
    List.map_congr_left (g := id) (fun e _ => e.earlier_zero), List.map_id]

/-- A queue with nothing before `n` loses nothing to a flush. -/
theorem flushed_of_late {n : Nat} {q : List Entry} (h : ∀ e ∈ q, n ≤ e.ofs.toNat) :
    flushed n q = q.map (Entry.earlier n) := by
  rw [flushed, List.filter_eq_self.2 (by simpa using h)]

end Sys2Proof.Machine
end

