-- ==== Sys2Proof/Laws/Render.lean ====
section
/-! SUPPORT. What a dispatch, the dispatch loop, a frame, the frame loop and the bridge do to the state, and
that each keeps the invariants. -/

namespace Sys2Proof.Machine

/-! ## Dispatch -/

/-- A dispatch is a note-on with a velocity of at least 1, a note-off, or nothing (R252). -/
theorem State.dispatch_cases (e : Entry) :
    (∃ n v, v ≠ 0#7 ∧ ∀ s : State, s.dispatch e = s.noteOn n v) ∨
    (∃ n, ∀ s : State, s.dispatch e = s.noteOff n) ∨ ∀ s : State, s.dispatch e = s := by
  have hw := decodeMsg_wellFormed (msgWord e.st e.d1 e.d2)
  unfold State.dispatch
  generalize decodeMsg (msgWord e.st e.d1 e.d2) = i at hw
  cases i
  case noteOn c n v => exact .inl ⟨n, v, by simpa [Instr.wellFormed] using hw, fun _ => rfl⟩
  case noteOff c n v => exact .inr (.inl ⟨n, fun _ => rfl⟩)
  case noteOnZero c n => exact .inr (.inl ⟨n, fun _ => rfl⟩)
  all_goals exact .inr (.inr fun _ => rfl)

/-- A dispatch writes only the voice file (R252). -/
theorem State.dispatch_eq (e : Entry) (s : State) : s.dispatch e = s.setVoices (s.dispatch e).voices := by
  rcases State.dispatch_cases e with ⟨n, v, -, h⟩ | ⟨n, h⟩ | h <;> rw [h s]
  · exact State.noteOn_eq n v s
  · exact State.noteOff_eq n s
  · rfl

/-- A dispatch reads only the configuration, SR and the voice file, so it commutes with any write of the
other fields. -/
theorem State.dispatch_voices_congr {s t : State} (hc : t.cfg = s.cfg) (hr : t.sr = s.sr)
    (hv : t.voices = s.voices) (e : Entry) : (t.dispatch e).voices = (s.dispatch e).voices := by
  rcases State.dispatch_cases e with ⟨n, v, -, h⟩ | ⟨n, h⟩ | h <;> rw [h s, h t]
  · unfold State.noteOn
    rw [hv, hc]
    split
    · simp only [State.allocate, State.startAt, State.setVoices_voices, hv, hr]
    · split <;>
        simp only [State.allocate, State.startAt, State.releaseAt, State.setVoices_voices,
          State.setVoices_sr, hv, hr]
  · unfold State.noteOff
    rw [hv]
    split
    · exact hv
    · simp only [State.releaseAt, State.setVoices_voices, hv]
  · exact hv

theorem State.dispatch_setQueue (q : List Entry) (e : Entry) (s : State) :
    (s.setQueue q).dispatch e = (s.dispatch e).setQueue q := by
  rw [State.dispatch_eq e s, State.dispatch_eq e (s.setQueue q),
    State.dispatch_voices_congr (s := s) (t := s.setQueue q) rfl rfl rfl e]
  rfl

/-- The offset of a message has no effect on its dispatch. -/
theorem State.dispatch_earlier (n : Nat) (e : Entry) (s : State) : s.dispatch (e.earlier n) = s.dispatch e :=
  rfl

/-- A dispatch keeps the voice file's invariants (R36). -/
theorem VoicesOk.dispatch {s : State} (h : VoicesOk s.cfg s.voices) (e : Entry) :
    VoicesOk s.cfg (s.dispatch e).voices := by
  rcases State.dispatch_cases e with ⟨n, v, hv, hd⟩ | ⟨n, hd⟩ | hd <;> rw [hd s]
  · exact h.noteOn hv
  · exact h.noteOff
  · exact h

/-- Dispatching a list of messages, in order. -/
def State.dispatchAll (es : List Entry) (s : State) : State := es.foldl (fun a e => a.dispatch e) s

theorem State.dispatchAll_eq (es : List Entry) (s : State) :
    s.dispatchAll es = s.setVoices (s.dispatchAll es).voices := by
  induction es generalizing s with
  | nil => rfl
  | cons e es ih =>
    show (s.dispatch e).dispatchAll es = s.setVoices ((s.dispatch e).dispatchAll es).voices
    rw [ih (s.dispatch e), State.dispatch_eq e s]
    rfl

theorem State.dispatchAll_setQueue (q es : List Entry) (s : State) :
    (s.setQueue q).dispatchAll es = (s.dispatchAll es).setQueue q := by
  induction es generalizing s with
  | nil => rfl
  | cons e es ih =>
    show ((s.setQueue q).dispatch e).dispatchAll es = ((s.dispatch e).dispatchAll es).setQueue q
    rw [State.dispatch_setQueue, ih]

theorem State.dispatchAll_voices_congr {s t : State} (hc : t.cfg = s.cfg) (hr : t.sr = s.sr)
    (hv : t.voices = s.voices) (es : List Entry) :
    (t.dispatchAll es).voices = (s.dispatchAll es).voices := by
  induction es generalizing s t with
  | nil => exact hv
  | cons e es ih =>
    refine ih (s := s.dispatch e) (t := t.dispatch e) ?_ ?_ (State.dispatch_voices_congr hc hr hv e)
    · rw [State.dispatch_eq e s, State.dispatch_eq e t]; exact hc
    · rw [State.dispatch_eq e s, State.dispatch_eq e t]; exact hr

theorem VoicesOk.dispatchAll {s : State} (h : VoicesOk s.cfg s.voices) (es : List Entry) :
    VoicesOk s.cfg (s.dispatchAll es).voices := by
  induction es generalizing s with
  | nil => exact h
  | cons e es ih =>
    have hc : (s.dispatch e).cfg = s.cfg := by rw [State.dispatch_eq e s]; rfl
    have := ih (s := s.dispatch e) (by rw [hc]; exact h.dispatch e)
    rwa [hc] at this

/-! ## The dispatch loop -/

/-- The loop of R253 dispatches the messages up to the first that is not due, and keeps the rest. -/
theorem dispatchLoop_eq (t : Nat) (q : List Entry) (s : State) :
    dispatchLoop t q s =
      (s.dispatchAll (q.takeWhile (fun e => decide (e.ofs.toNat ≤ t)))).setQueue
        (q.dropWhile (fun e => decide (e.ofs.toNat ≤ t))) := by
  induction q generalizing s with
  | nil => rfl
  | cons e q ih =>
    unfold dispatchLoop
    by_cases h : e.ofs.toNat ≤ t
    · simp only [h, decide_true, if_true, List.takeWhile_cons, List.dropWhile_cons]
      rw [ih, State.dispatch_setQueue, State.dispatchAll_setQueue]
      rfl
    · simp only [h, decide_false, if_false, List.takeWhile_cons, List.dropWhile_cons]
      rfl

theorem takeWhile_of_sorted {q : List Entry} (h : Sorted q) (b : Nat) :
    q.takeWhile (fun e => decide (e.ofs.toNat ≤ b)) = q.filter (fun e => decide (e.ofs.toNat ≤ b)) ∧
    q.dropWhile (fun e => decide (e.ofs.toNat ≤ b)) = q.filter (fun e => decide (b < e.ofs.toNat)) := by
  induction q with
  | nil => exact ⟨rfl, rfl⟩
  | cons a q ih =>
    obtain ⟨ha, hq⟩ := List.pairwise_cons.1 h
    by_cases hb : a.ofs.toNat ≤ b
    · have hb' : ¬b < a.ofs.toNat := by omega
      simp [hb, hb', ih hq]
    · have h0 : ∀ x ∈ q, b < x.ofs.toNat := fun x hx => by have := ha x hx; omega
      have h1 : q.filter (fun e => decide (e.ofs.toNat ≤ b)) = [] := by
        rw [List.filter_eq_nil_iff]; intro x hx; have := h0 x hx; simp; omega
      have h2 : q.filter (fun e => decide (b < e.ofs.toNat)) = q := by
        rw [List.filter_eq_self]; simpa using h0
      have hb' : b < a.ofs.toNat := by omega
      simp [hb, hb', h1, h2]

/-- On an ordered queue the loop dispatches exactly the messages due (R220, R253). -/
theorem State.dispatchDue_of_sorted {s : State} (h : Sorted s.queue) (t : Nat) :
    s.dispatchDue t = (s.dispatchAll (s.queue.filter (fun e => decide (e.ofs.toNat ≤ t)))).setQueue
      (s.queue.filter (fun e => decide (t < e.ofs.toNat))) := by
  obtain ⟨h1, h2⟩ := takeWhile_of_sorted h t
  rw [State.dispatchDue, dispatchLoop_eq, h1, h2]

/-! ## One voice in one frame -/

theorem oscAdvance_ok {v : Voice} (h : v.Ok) : (oscAdvance v).Ok := h

theorem stepVoice_ok {s : State} {v : Voice} (hs : s.sus.toNat ≤ ONE) (h : v.Ok) : (stepVoice s v).Ok := by
  unfold stepVoice
  split
  · exact envProcess_ok hs (oscAdvance_ok h)
  · exact h

theorem stepVoice_key (s : State) (v : Voice) : (stepVoice s v).key = v.key := by
  unfold stepVoice
  split
  · exact (envProcess_keeps s (oscAdvance v)).1
  · rfl

theorem stepVoice_idle {s : State} {v : Voice} (h : v.stage = .idle) : stepVoice s v = v := by
  simp [stepVoice, Voice.busy, h]

/-! ## The frame loop -/

/-- What a frame writes: the voices, the queue and one frame of output (R250). -/
theorem State.renderFrame_eq (t : Nat) (s : State) :
    s.renderFrame t = ((s.setVoices (s.renderFrame t).voices).setQueue (s.renderFrame t).queue).emit
      [outFrame (voiceSum (s.dispatchDue t))] := by
  have h : s.dispatchDue t = (s.setVoices (s.dispatchDue t).voices).setQueue (s.dispatchDue t).queue := by
    rw [State.dispatchDue, dispatchLoop_eq, State.dispatchAll_eq]
    rfl
  obtain ⟨vs, q, hd⟩ : ∃ vs q, s.dispatchDue t = (s.setVoices vs).setQueue q := ⟨_, _, h⟩
  rw [State.renderFrame, hd]
  rfl

/-- What the frame loop writes: the voices, the queue and `k` frames, each with equal channels. -/
theorem renderLoop_eq (k t : Nat) (s : State) :
    ∃ out : List Frame, out.length = k ∧ (∀ f ∈ out, f.ch0 = f.ch1) ∧
      renderLoop k t s =
        ((s.setVoices (renderLoop k t s).voices).setQueue (renderLoop k t s).queue).emit out := by
  induction k generalizing t s with
  | zero => exact ⟨[], rfl, by simp, by simp [renderLoop, State.emit, State.setVoices, State.setQueue]⟩
  | succ k ih =>
    obtain ⟨out, h1, h2, h3⟩ := ih (t + 1) (s.renderFrame t)
    refine ⟨outFrame (voiceSum (s.dispatchDue t)) :: out, by simp [h1], ?_, ?_⟩
    · rintro f (_ | ⟨_, hf⟩)
      · rfl
      · exact h2 f hf
    · rw [renderLoop, h3, State.renderFrame_eq t s]
      simp [State.emit, State.setVoices, State.setQueue]

theorem renderLoop_add (a b t : Nat) (s : State) :
    renderLoop (a + b) t s = renderLoop b (t + a) (renderLoop a t s) := by
  induction a generalizing t s with
  | zero => simp [renderLoop]
  | succ a ih =>
    rw [Nat.succ_add]
    simp only [renderLoop]
    rw [ih, show t + 1 + a = t + (a + 1) by omega]

/-- A frame keeps the voice file's and the queue's invariants (R36, R229). -/
theorem State.renderFrame_ok {s : State} (hv : VoicesOk s.cfg s.voices) (hq : QueueOk s.bs s.queue)
    (hs : s.sus.toNat ≤ ONE) (t : Nat) :
    VoicesOk s.cfg (s.renderFrame t).voices ∧ QueueOk s.bs (s.renderFrame t).queue := by
  have hd := hv.dispatchAll (s.queue.filter (fun e => decide (e.ofs.toNat ≤ t)))
  have e : s.renderFrame t = _ := congrArg State.soundFrame (State.dispatchDue_of_sorted hq.2.2 t)
  have hsus : ∀ es, (s.dispatchAll es).sus = s.sus := fun es => by rw [State.dispatchAll_eq]; rfl
  rw [e]
  refine ⟨⟨?_, fun v hv' => ?_, ?_⟩, ?_⟩
  · simpa [State.soundFrame] using hd.1
  · obtain ⟨u, hu, rfl⟩ := List.mem_map.1 hv'
    exact stepVoice_ok (by simpa [hsus] using hs) (hd.2.1 u hu)
  · refine List.pairwise_map.2 (hd.2.2.imp fun {a b} h => ?_)
    simpa [NotBothBound, stepVoice_key] using h
  · refine ⟨(List.length_filter_le ..).trans hq.1, fun x hx => hq.2.1 x (List.mem_filter.1 hx).1,
      hq.2.2.filter _⟩

/-- The frame loop keeps the voice file's and the queue's invariants (R36, R229). -/
theorem renderLoop_ok {s : State} (hv : VoicesOk s.cfg s.voices) (hq : QueueOk s.bs s.queue)
    (hs : s.sus.toNat ≤ ONE) (k t : Nat) :
    VoicesOk s.cfg (renderLoop k t s).voices ∧ QueueOk s.bs (renderLoop k t s).queue := by
  induction k generalizing t s with
  | zero => exact ⟨hv, hq⟩
  | succ k ih =>
    obtain ⟨h1, h2⟩ := State.renderFrame_ok hv hq hs t
    have e := State.renderFrame_eq t s
    have hc : (s.renderFrame t).cfg = s.cfg := by rw [e]; rfl
    have hb : (s.renderFrame t).bs = s.bs := by rw [e]; rfl
    have hu : (s.renderFrame t).sus = s.sus := by rw [e]; rfl
    have := ih (s := s.renderFrame t) (by rwa [hc]) (by rwa [hb]) (by rwa [hu]) (t + 1)
    rwa [hc, hb] at this

/-! ## The bridge -/

/-- What QAdd writes: the queue, QOVF and the drop counter (R221). -/
theorem State.qAdd_eq (e : Entry) (s : State) :
    (s.qAdd e = s.setQueue (qInsert e s.queue) ∧ s.queue.length < s.bs.toNat) ∨
    (s.qAdd e = (s.setFlag .qovf).lose 1 ∧ s.bs.toNat ≤ s.queue.length) := by
  by_cases h : s.bs.toNat ≤ s.queue.length
  · exact .inr ⟨State.qAdd_full h, h⟩
  · exact .inl ⟨State.qAdd_room (by omega), by omega⟩

/-- What the bridge can write: the queue, LAST_KEY, QOVF and the drop counter, which rises by at most 2
(R251). -/
theorem State.bridge_cases (s : State) : ∃ (q : List Entry) (k : Nat), k ≤ 2 ∧
    (s.bridge = (s.setQueue q).setLastKey s.curKey ∨
      s.bridge = (((s.setFlag .qovf).lose k).setQueue q).setLastKey s.curKey) := by
  have add : ∀ (make : Note → Entry) (k : Key) (t : State), ∃ q,
      t.addForKey make k = t.setQueue q ∨
        t.addForKey make k = ((t.setFlag .qovf).lose 1).setQueue q := by
    intro make k t
    cases k with
    | none => exact ⟨t.queue, .inl rfl⟩
    | some n =>
      rcases State.qAdd_eq (make n) t with ⟨h, -⟩ | ⟨h, -⟩
      · exact ⟨_, .inl h⟩
      · exact ⟨t.queue, .inr h⟩
  by_cases hk : s.curKey = s.lastKey
  · refine ⟨s.queue, 0, by omega, .inl ?_⟩
    rw [State.bridge, if_pos hk, hk]
    rfl
  · rw [State.bridge, if_neg hk]
    obtain ⟨q1, h1⟩ := add bridgeOff s.lastKey s
    obtain ⟨q2, h2⟩ := add (bridgeOn s.cfg.bridgeVel) s.curKey (s.addForKey bridgeOff s.lastKey)
    rcases h1 with h1 | h1 <;> rw [h1] at h2 ⊢ <;> rcases h2 with h2 | h2 <;> rw [h2]
    · exact ⟨q2, 0, by omega, .inl rfl⟩
    · exact ⟨q2, 1, by omega, .inr rfl⟩
    · exact ⟨q2, 1, by omega, .inr rfl⟩
    · refine ⟨q2, 2, by omega, .inr ?_⟩
      have e : ((s.setFlag .qovf).lose 1).setFlag .qovf = (s.setFlag .qovf).lose 1 :=
        congrArg (State.lose 1) (setFlag_setFlag .qovf s)
      show (((((s.setFlag .qovf).lose 1).setFlag .qovf).lose 1).setQueue q2).setLastKey s.curKey = _
      rw [e, lose_lose]

theorem addForKey_ok {make : Note → Entry} (h0 : ∀ n, (make n).ofs = 0#16) {k : Key} {s : State}
    (hb : s.bs ≠ 0#16) (h : QueueOk s.bs s.queue) :
    (s.addForKey make k).bs = s.bs ∧ QueueOk s.bs (s.addForKey make k).queue := by
  have hb' : 0 < s.bs.toNat := Nat.pos_of_ne_zero fun e => hb (BitVec.eq_of_toNat_eq e)
  cases k with
  | none => exact ⟨rfl, h⟩
  | some n =>
    refine ⟨?_, QueueOk.qAdd h (by rw [h0]; exact hb')⟩
    rcases State.qAdd_eq (make n) s with ⟨e, -⟩ | ⟨e, -⟩ <;> rw [State.addForKey, e] <;> rfl

/-- The bridge keeps the queue's invariants (R229, R251). -/
theorem QueueOk.bridge {s : State} (hb : s.bs ≠ 0#16) (h : QueueOk s.bs s.queue) :
    QueueOk s.bs s.bridge.queue := by
  unfold State.bridge
  split_ifs
  · exact h
  · obtain ⟨e, h1⟩ := addForKey_ok (make := bridgeOff) (fun _ => rfl) (k := s.lastKey) hb h
    have h2 := (addForKey_ok (make := bridgeOn s.cfg.bridgeVel) (fun _ => rfl) (k := s.curKey)
      (s := s.addForKey bridgeOff s.lastKey) (by rwa [e]) (by rwa [e])).2
    rwa [e] at h2

end Sys2Proof.Machine
end

