-- ==== Sys2Proof/Laws/Step.lean ====
section
/-! SUPPORT. That each operation of a step keeps the invariant of the block, and what taking a command
leaves. -/

namespace Sys2Proof.Machine

/-- The invariant says nothing of the streams, the ports, the slot, the key registers, the drop counter and
the stage times, so an update of those keeps it. -/
theorem State.Inv.congr {s t : State} (h : s.Inv) (hc : t.cfg = s.cfg) (hv : t.voices = s.voices)
    (hb : t.bs = s.bs) (hq : t.queue = s.queue) (hr : t.sr = s.sr) (hu : t.sus = s.sus)
    (hs : t.status = s.status) : t.Inv := by
  rw [State.Inv, hc, hv, hb, hq, hr, hu, hs]
  exact h

/-- Taking a command writes only the streams and the merge counter (R330). -/
theorem State.takeCommand_eq {s t : State} {w : CmdWord} (h : s.takeCommand = some (w, t)) :
    ∃ a c k, t = s.setStreams a c k := by
  unfold State.takeCommand at h
  split at h
  · cases h
  · cases h; exact ⟨_, _, _, rfl⟩
  · cases h; exact ⟨_, _, _, rfl⟩
  · split at h <;> cases h <;> exact ⟨_, _, _, rfl⟩

theorem State.Inv.setFlag {s : State} (h : s.Inv) (f : Flag) : (s.setFlag f).Inv := by
  obtain ⟨hc, hv, hq, hr, hb, hu, hs⟩ := h
  exact ⟨hc, hv, hq, hr, hb, hu, setFlag_status_lt hs⟩

theorem State.Inv.lose {s : State} (h : s.Inv) (k : Nat) : (s.lose k).Inv :=
  h.congr rfl rfl rfl rfl rfl rfl rfl

theorem State.Inv.respond {s : State} (h : s.Inv) (w : RespWord) : (s.respond w).Inv :=
  h.congr rfl rfl rfl rfl rfl rfl rfl

theorem State.Inv.reject {s : State} (h : s.Inv) (w : CmdWord) : (s.reject w).Inv := by
  unfold State.reject
  split_ifs
  · exact (h.setFlag _).respond _
  · exact h.setFlag _

theorem State.Inv.clear {s : State} (h : s.Inv) (f : BitVec 5) (d : Bool) :
    ((s.clearFlags f).clearDrops d).Inv := by
  obtain ⟨hc, hv, hq, hr, hb, hu, hs⟩ := h
  exact ⟨hc, hv, hq, hr, hb, hu, clearFlags_status_lt hs⟩

theorem State.Inv.setParam {s : State} (h : s.Inv) (p : ParamId) (x : BitVec 32) :
    (s.setParam p x).Inv := by
  obtain ⟨hc, hv, hq, hr, hb, hu, hs⟩ := h
  cases p
  case sustain =>
    exact ⟨hc, hv, hq, hr, hb, (susOf_toNat x).trans_le (min_le_right ..), hs⟩
  all_goals exact ⟨hc, hv, hq, hr, hb, hu, hs⟩

theorem State.Inv.qAdd {s : State} (h : s.Inv) {e : Entry} (he : e.ofs.toNat < s.bs.toNat) :
    (s.qAdd e).Inv := by
  obtain ⟨hc, hv, hq, hr, hb, hu, hs⟩ := h
  have hq' := hq.qAdd he
  rcases State.qAdd_eq e s with ⟨e', -⟩ | ⟨e', -⟩ <;> rw [e'] at hq' ⊢
  · exact ⟨hc, hv, hq', hr, hb, hu, hs⟩
  · exact ⟨hc, hv, hq', hr, hb, hu, setFlag_status_lt hs⟩

theorem State.Inv.resize {s : State} (h : s.Inv) {bs : BitVec 16} {sr : BitVec 24} (hbs : bs ≠ 0#16)
    (hsr : sr ≠ 0#24) : ((s.setRates bs sr).qResize bs.toNat).Inv := by
  obtain ⟨hc, hv, hq, -, -, hu, hs⟩ := h
  unfold State.qResize
  dsimp only
  split_ifs
  · exact ⟨hc, hv, QueueOk.resized hq, hsr, hbs, hu, setFlag_status_lt (s := s.setRates bs sr) hs⟩
  · exact ⟨hc, hv, QueueOk.resized hq, hsr, hbs, hu, hs⟩

theorem State.Inv.noteOn {s : State} (h : s.Inv) {n : Note} {v : Velocity} (hv0 : v ≠ 0#7) :
    (s.noteOn n v).Inv := by
  obtain ⟨hc, hv, hq, hr, hb, hu, hs⟩ := h
  rw [State.noteOn_eq]
  exact ⟨hc, hv.noteOn hv0, hq, hr, hb, hu, hs⟩

theorem State.Inv.noteOff {s : State} (h : s.Inv) {n : Note} : (s.noteOff n).Inv := by
  obtain ⟨hc, hv, hq, hr, hb, hu, hs⟩ := h
  rw [State.noteOff_eq]
  exact ⟨hc, hv.noteOff, hq, hr, hb, hu, hs⟩

theorem State.Inv.bridge {s : State} (h : s.Inv) : s.bridge.Inv := by
  obtain ⟨hc, hv, hq, hr, hb, hu, hs⟩ := h
  have hq' := hq.bridge hb
  obtain ⟨q, k, -, e | e⟩ := State.bridge_cases s <;> rw [e] at hq' ⊢
  · exact ⟨hc, hv, hq', hr, hb, hu, hs⟩
  · exact ⟨hc, hv, hq', hr, hb, hu, setFlag_status_lt hs⟩

theorem State.Inv.renderLoop {s : State} (h : s.Inv) (k t : Nat) : (renderLoop k t s).Inv := by
  obtain ⟨hc, hv, hq, hr, hb, hu, hs⟩ := h
  obtain ⟨h1, h2⟩ := renderLoop_ok hv hq hu k t
  obtain ⟨out, -, -, e⟩ := renderLoop_eq k t s
  rw [e]
  exact ⟨hc, h1, h2, hr, hb, hu, hs⟩

theorem State.Inv.qFlush {s : State} (h : s.Inv) (n : Nat) : (s.qFlush n).Inv := by
  obtain ⟨hc, hv, hq, hr, hb, hu, hs⟩ := h
  exact ⟨hc, hv, hq.flushed n, hr, hb, hu, hs⟩

end Sys2Proof.Machine
end

