-- ==== Sys2Proof/Tests/Slice0.lean ====
section
/-! SUPPORT. Our own tests: the WellFormed smoke, the decoder on words written out from spec/30_encoding.md,
one-step tests against spec/95_test_vectors.md, and the witnesses of the obligations' hypotheses. -/

namespace Sys2Proof.Tests

open Sys2Proof.Machine

/-! ## Small states -/

/-- Two voices and the table of program 1 of spec/95 §8: [0, 1.0, 0, -1.0]. -/
def smallCfg : Config where
  P := 2
  W := 2
  table := [0#24, 0x400000#24, 0#24, 0xC00000#24]
  lookup := .linear
  retrig := .reallocate
  bridgeVel := 127#7

/-- The constant table 1.0 of spec/95 §6, with `W = 3`. -/
def flatCfg : Config :=
  { Config.default with W := 3, table := List.replicate 8 0x400000#24 }

def quiet : State := State.powerOn smallCfg

def flat : State := State.powerOn flatCfg

/-- Block size 4, a queue of three messages, voice 0 bound to 60 in SUSTAIN, voice 1 in RELEASE. -/
def busy : State :=
  { quiet with
    bs := 4#16
    queue := [⟨0x90#8, 62#8, 100#8, 0#16⟩, ⟨0xB0#8, 7#8, 100#8, 1#16⟩, ⟨0x80#8, 60#8, 0#8, 3#16⟩]
    voices := [⟨some 60#7, .sustain, 127#7, 5#32, 7#32, 0x40000000#31, 0#31⟩,
      ⟨none, .release, 100#7, 1#32, 2#32, 5#31, 9#31⟩] }

/-- Both voices bound, in ATTACK (voice 0, quieter) and DECAY. -/
def full : State :=
  { quiet with
    voices := [⟨some 60#7, .attack, 100#7, 0#32, 7#32, 10#31, 0#31⟩,
      ⟨some 64#7, .decay, 100#7, 0#32, 8#32, 20#31, 0#31⟩] }

def retriggering : State := { full with cfg := { smallCfg with retrig := .retrigger } }

/-- A state with one command word waiting. -/
def waiting (w : CmdWord) : State := quiet.issue .audio w

/-- The next state of an outcome, if it is one. -/
def nextOf (o : Host.Outcome State Fault Refusal) : Option State :=
  match o with
  | .next s => some s
  | .fault _ => none
  | .refused _ => none

/-! ## WellFormed (R114: a note-on has a velocity of at least 1) -/

theorem test_wf_refuses_noteOn_zero : (Instr.noteOn 3#4 60#7 0#7).wellFormed = false := by decide

theorem test_wf_accepts_noteOn_one : (Instr.noteOn 3#4 60#7 1#7).wellFormed = true := by decide

/-! ## The decoder, on words written out from the field tables of R102 to R111 and R114 -/

theorem test_decode_reset :
    decodeCmd 0x0100_BEEF_00AB_CDEF#64 = .ok (.reset 0xBEEF#16 0xABCDEF#24) := by decide

theorem test_decode_param :
    decodeCmd 0x0200_0003_DEAD_BEEF#64 = .ok (.param .release 0xDEADBEEF#32) := by decide

theorem test_decode_midi :
    decodeCmd 0x0300_1234_0056_789A#64 = .ok (.midi 0x1234#16 0x56#8 0x78#8 0x9A#8) := by decide

theorem test_decode_process : decodeCmd 0x0400_0000_0000_8001#64 = .ok (.process 0x8001#16) := by decide

theorem test_decode_setkey :
    decodeCmd 0x0500_0000_0000_007F#64 = .ok (.setkey (some 127#7)) ∧
      decodeCmd 0x0500_0000_0000_00FF#64 = .ok (.setkey none) := by decide

theorem test_decode_qactive : decodeCmd 0x0600_0000_0000_0000#64 = .ok .qactive := by decide

theorem test_decode_qkey : decodeCmd 0x0700_0000_0000_0045#64 = .ok (.qkey 69#7) := by decide

theorem test_decode_rdreg : decodeCmd 0x0800_0000_0012_3456#64 = .ok (.rdreg 0x123456#24) := by decide

theorem test_decode_clrstat :
    decodeCmd 0x0900_0000_0000_0095#64 = .ok (.clrstat 0b10101#5 true) ∧
      decodeCmd 0x0900_0000_0000_000A#64 = .ok (.clrstat 0b01010#5 false) := by decide

theorem test_decode_notStatus : decodeMsg 0x7FABCD#24 = .notStatus 0x7F#7 0xAB#8 0xCD#8 := by decide

theorem test_decode_noteMalformedD1 :
    decodeMsg 0x9D80FF#24 = .noteMalformedD1 0b11101#5 0#7 0xFF#8 := by decide

theorem test_decode_noteMalformedD2 :
    decodeMsg 0x8D7F81#24 = .noteMalformedD2 0b01101#5 0x7F#7 1#7 := by decide

theorem test_decode_noteOff : decodeMsg 0x853C40#24 = .noteOff 5#4 0x3C#7 0x40#7 := by decide

theorem test_decode_noteOnZero : decodeMsg 0x953C00#24 = .noteOnZero 5#4 0x3C#7 := by decide

theorem test_decode_noteOn : decodeMsg 0x953C64#24 = .noteOn 5#4 0x3C#7 0x64#7 := by decide

theorem test_decode_pitchWheel : decodeMsg 0xE5FF80#24 = .pitchWheel 5#4 0xFF#8 0x80#8 := by decide

theorem test_decode_otherAB : decodeMsg 0xB5FF80#24 = .otherAB 0b10101#5 0xFF#8 0x80#8 := by decide

theorem test_decode_otherCD : decodeMsg 0xC5FF80#24 = .otherCD 0b00101#5 0xFF#8 0x80#8 := by decide

theorem test_decode_otherF : decodeMsg 0xF5FF80#24 = .otherF 5#4 0xFF#8 0x80#8 := by decide

/-- The rejections of spec/95 §7.2, and one reserved bit at each end of a format. -/
theorem test_decode_rejects :
    decodeCmd 0x0000_0000_0000_0000#64 = .error .reservedOpcode ∧
    decodeCmd 0x0A00_0000_0000_0000#64 = .error .reservedOpcode ∧
    decodeCmd 0xFF00_0000_0000_0000#64 = .error .reservedOpcode ∧
    decodeCmd 0x0200_0004_0000_0005#64 = .error .illegalField ∧
    decodeCmd 0x0201_0000_0000_2710#64 = .error .reservedBits ∧
    decodeCmd 0x0400_0000_0001_0000#64 = .error .reservedBits ∧
    decodeCmd 0x0500_0000_0000_0080#64 = .error .illegalField ∧
    decodeCmd 0x0500_0000_0000_00FE#64 = .error .illegalField ∧
    decodeCmd 0x0600_0000_0000_0001#64 = .error .reservedBits ∧
    decodeCmd 0x0700_0000_0000_0080#64 = .error .reservedBits ∧
    decodeCmd 0x0900_0000_0000_0020#64 = .error .reservedBits ∧
    decodeCmd 0x0100_0001_8000_0001#64 = .error .reservedBits := by decide

/-- The first match of R114 at the borders of its rows. -/
theorem test_decode_class_borders :
    (decodeMsg 0x7F0000#24).mnemonic = "NOT_STATUS" ∧ (decodeMsg 0x807F7F#24).mnemonic = "NOTE_OFF" ∧
    (decodeMsg 0x8F007F#24).mnemonic = "NOTE_OFF" ∧ (decodeMsg 0x900000#24).mnemonic = "NOTE_ON_ZERO" ∧
    (decodeMsg 0x9F7F01#24).mnemonic = "NOTE_ON" ∧ (decodeMsg 0x90007F#24).mnemonic = "NOTE_ON" ∧
    (decodeMsg 0x900080#24).mnemonic = "NOTE_MALFORMED" ∧
    (decodeMsg 0x808000#24).mnemonic = "NOTE_MALFORMED" ∧ (decodeMsg 0xA00000#24).mnemonic = "OTHER" ∧
    (decodeMsg 0xDFFFFF#24).mnemonic = "OTHER" ∧ (decodeMsg 0xE00000#24).mnemonic = "PITCH_WHEEL" ∧
    (decodeMsg 0xEFFFFF#24).mnemonic = "PITCH_WHEEL" ∧ (decodeMsg 0xF00000#24).mnemonic = "OTHER" ∧
    (decodeMsg 0xFFFFFF#24).mnemonic = "OTHER" := by decide

theorem test_decodeTableWord :
    decodeTableWord 64 0x0800_0000_0000_0006 = some (.rdreg 6#24) ∧
      decodeTableWord 64 0x0A00_0000_0000_0000 = none ∧
      decodeTableWord 24 0x90457F = some (.noteOn 0#4 69#7 127#7) := by decide

/-! ## The commands, one step each (spec/95 §6, §7.2) -/

/-- Offsets [0, 1, 3, 3, 3, 100] resized to 4: two discarded, RSZDROP. -/
theorem test_reset_shrinks :
    (nextOf (exec (.reset 4#16 48000#24) { quiet with queue :=
      [⟨1#8, 0#8, 0#8, 0#16⟩, ⟨2#8, 0#8, 0#8, 1#16⟩, ⟨3#8, 0#8, 0#8, 3#16⟩, ⟨4#8, 0#8, 0#8, 3#16⟩,
        ⟨5#8, 0#8, 0#8, 3#16⟩, ⟨6#8, 0#8, 0#8, 100#16⟩] })).map
      (fun t => (t.sr, t.bs, t.queue.map Entry.st, t.status, t.dropCount)) =
    some (48000#24, 4#16, [1#8, 2#8, 3#8, 4#8], 4#32, 2#32) := by decide

theorem test_reset_zero :
    nextOf (exec (.reset 0#16 44100#24) quiet) = some { quiet with status := 8#32 } := by decide

theorem test_param_sustain_clamps :
    nextOf (exec (.param .sustain 0xFFFFFFFF#32) quiet) = some { quiet with sus := 0x40000000#31 } := by
  decide

theorem test_param_decay : nextOf (exec (.param .decay 2000#32) quiet) = some { quiet with decT := 2000#32 } := by
  decide

theorem test_midi_bad_offset :
    nextOf (exec (.midi 4#16 0x90#8 60#8 100#8) busy) =
      some { busy with status := 2#32, dropCount := 1#32 } := by decide

/-- An entry equal in offset to another goes after it (R221). -/
theorem test_midi_is_stable :
    (nextOf (exec (.midi 1#16 0x90#8 60#8 100#8) busy)).map (fun t => t.queue.map Entry.st) =
      some [0x90#8, 0xB0#8, 0x90#8, 0x80#8] := by decide

/-- The §8 gain (E5): one voice at full level gives 0x0033_3333 on both channels. -/
theorem test_process_gain :
    (nextOf (exec (.process 1#16) { flat with queue := [⟨0x90#8, 69#8, 127#8, 0#16⟩] })).map State.frames =
      some [⟨0x00333333#32, 0x00333333#32⟩] := by decide +kernel

/-- N = 0 with a key change (spec/95 §6). -/
theorem test_process_bridge :
    nextOf (exec (.process 0#16) { flat with curKey := some 60#7 }) =
      some { flat with
        curKey := some 60#7, lastKey := some 60#7, queue := [⟨0x90#8, 60#8, 127#8, 0#16⟩] } := by
  decide +kernel

theorem test_setkey :
    nextOf (exec (.setkey (some 60#7)) quiet) = some { quiet with curKey := some 60#7 } ∧
      nextOf (exec (.setkey none) quiet) = some quiet := by decide

theorem test_qactive : (nextOf (exec .qactive busy)).map State.resp = some [2#32] := by decide

theorem test_qkey :
    (nextOf (exec (.qkey 60#7) busy)).map State.resp = some [1#32] ∧
      (nextOf (exec (.qkey 61#7) busy)).map State.resp = some [0#32] := by decide

theorem test_rdreg_cfgid :
    (nextOf (exec (.rdreg 0xC#24) State.reset)).map State.resp = some [0x7F010A10#32] ∧
      (nextOf (exec (.rdreg 0xA#24) State.reset)).map State.resp = some [0xFF#32] := by decide

theorem test_rdreg_unmapped :
    nextOf (exec (.rdreg 0x107#24) quiet) = some { quiet with status := 0x10#32, resp := [0#32] } ∧
      (nextOf (exec (.rdreg 0x105#24) busy)).map State.resp = some [0x40000000#32] := by decide

theorem test_clrstat :
    nextOf (exec (.clrstat 0x10#5 false) { quiet with status := 0x1E#32, dropCount := 3#32 }) =
        some { quiet with status := 0xE#32, dropCount := 3#32 } ∧
      nextOf (exec (.clrstat 0x1F#5 true) { quiet with status := 0x1E#32, dropCount := 3#32 }) =
        some quiet := by decide

/-! ## The messages, one step each (R191, R192, R252) -/

/-- R191's worked example, and E3's increment 0x028D_DFB9. -/
theorem test_noteOn_starts :
    (nextOf (exec (.noteOn 9#4 69#7 127#7) quiet)).map State.voices =
      some [⟨some 69#7, .attack, 127#7, 0#32, 0x028DDFB9#32, 0#31, 0#31⟩, Voice.powerOn] := by
  decide +kernel

/-- With no IDLE voice the quietest is stolen (R190). -/
theorem test_noteOn_steals :
    (nextOf (exec (.noteOn 0#4 69#7 127#7) full)).map (fun t => t.voices.map Voice.key) =
      some [some 69#7, some 64#7] := by decide +kernel

/-- R192's worked example. -/
theorem test_noteOff :
    (nextOf (exec (.noteOff 0#4 69#7 0#7) { quiet with voices :=
      [⟨some 69#7, .attack, 127#7, 1#32, 2#32, 2434788#31, 0#31⟩] })).map State.voices =
    some [⟨none, .release, 127#7, 1#32, 2#32, 2434788#31, 2434788#31⟩] := by decide

theorem test_noteOff_unmatched : nextOf (exec (.noteOff 0#4 69#7 0#7) busy) = some busy := by decide

theorem test_noteOnZero_is_noteOff :
    nextOf (exec (.noteOnZero 7#4 60#7) busy) = nextOf (exec (.noteOff 0#4 60#7 99#7) busy) ∧
      (nextOf (exec (.noteOnZero 7#4 60#7) busy)).map (fun t => t.voices.map Voice.stage) =
        some [.release, .release] := by decide

/-- R190's worked example (E6): gains 127, 63.5, 64 and 63.5: the first of the two least. -/
theorem test_findFreeVoice :
    findFreeVoice [⟨some 1#7, .sustain, 127#7, 0#32, 0#32, 0x40000000#31, 0#31⟩,
      ⟨some 2#7, .sustain, 127#7, 0#32, 0#32, 0x20000000#31, 0#31⟩,
      ⟨some 3#7, .sustain, 64#7, 0#32, 0#32, 0x40000000#31, 0#31⟩,
      ⟨some 4#7, .sustain, 127#7, 0#32, 0#32, 0x20000000#31, 0#31⟩] = 1 := by decide

/-! ## The oscillator and the rounding (spec/95 §2) -/

theorem test_incOf :
    incOf 69#7 44100#24 = 42852281#32 ∧ incOf 127#7 8000#24 = 2439463015#32 ∧
      incOf 69#7 880#24 = 0x80000000#32 ∧ incOf 127#7 1#24 = 3667693404#32 ∧
      incOf 0#7 16777215#24 = 2093#32 := by decide +kernel

/-- The table of spec/95 §2.2. -/
def lookupCfg : Config :=
  { Config.default with
    W := 3
    table := [0#24, 0x400000#24, 0#24, 0xC00000#24, 0x200000#24, 0xE00000#24, 0x3FFFFF#24, 0x800000#24] }

theorem test_lookup_linear :
    [0x10000000#32, 0x20000001#32, 0x70000000#32, 0xF0000000#32, 0xFFFFFFFF#32].map (oscSample lookupCfg) =
      [2097152, 4194303, -1048576, -4194304, -1] := by decide +kernel

theorem test_lookup_nearest :
    [0x10000000#32, 0x1FFFFFFF#32, 0x30000000#32, 0xE0000000#32, 0xF0000000#32].map
      (oscSample { lookupCfg with lookup := .nearest }) = [4194304, 4194304, 0, -8388608, 0] := by
  decide +kernel

theorem test_rne : [rne 1 2, rne 3 2, rne (-1) 2, rne (-3) 2, rne 7 4, rne (-7) 4] = [0, 2, 0, -2, 2, -2] := by
  decide

/-! ## A step from reset, and a run of the host's own step -/

theorem test_step_runs_placed_word :
    nextOf (step (State.reset.withFetchWord 64 0x0500_0000_0000_003C)) =
      some { State.reset with curKey := some 60#7 } := by decide +kernel

theorem test_step_runs_placed_message :
    (nextOf (step (State.reset.withFetchWord 24 0x90457F))).map (fun t => t.voices.map Voice.key) =
      some (some 69#7 :: List.replicate 15 none) := by decide +kernel

/-- A rejected word: BADCMD, and the response 0 of a query opcode (R110). -/
theorem test_step_rejects :
    nextOf (step (waiting 0x0700_0000_0000_0080#64)) =
      some { quiet with status := 0x10#32, resp := [0#32] } := by decide

/-! ## The assembler (spec/95 §7.1) -/

theorem test_assemble_lines :
    assembleLine "RESET 44100, 512" = some [0x0100_0200_0000_AC44#64] ∧
    assembleLine "PARAM SUSTAIN, 0x2000_0000 ; half" = some [0x0200_0002_2000_0000#64] ∧
    assembleLine "NOTEOFF 69 @ 100" = some [0x0300_0064_0080_4500#64] ∧
    assembleLine "PWHEEL 0, 0x40 @ 0" = some [0x0300_0000_00E0_0040#64] ∧
    assembleLine "SETKEY NONE" = some [0x0500_0000_0000_00FF#64] ∧
    assembleLine "RDVOICE 2, 5" = some [0x0800_0000_0000_0115#64] ∧
    assembleLine ".word64 0x0A00000000000000" = some [0x0A00_0000_0000_0000#64] := by decide +kernel

theorem test_assemble_refuses :
    assembleLine "SETKEY 128" = none ∧ assembleLine "PROCESS 65536" = none ∧
      assembleLine "PARAM VOLUME, 1" = none ∧ assembleLine "CLRSTAT 0x20" = none := by decide +kernel

/-! ## Witnesses: for each obligation with hypotheses, states and operands that meet all of them

`witness_<Name>` is the witness of `Obligations.<Name>`; of a statement with several clauses it meets each
clause's premises, at the borders of its ranges. -/

theorem witness_inv_busy : busy.Inv := by
  unfold State.Inv VoicesOk QueueOk NotBothBound Voice.Ok; decide

theorem witness_inv_quiet : quiet.Inv := by
  unfold State.Inv VoicesOk QueueOk NotBothBound Voice.Ok; decide

theorem witness_inv_full : full.Inv := by
  unfold State.Inv VoicesOk QueueOk NotBothBound Voice.Ok; decide

theorem witness_inv_retriggering : retriggering.Inv := by
  unfold State.Inv VoicesOk QueueOk NotBothBound Voice.Ok; decide

/-- Both ends of every range of R6, and one beyond each. -/
theorem witness_PowerOnIsTheTableOfR350 :
    configLegal Config.default = true ∧ configLegal smallCfg = true := by decide

theorem witness_PowerOnMeetsTheInvariant :
    configLegal Config.default = true ∧ configLegal { smallCfg with P := 1, W := 1, bridgeVel := 1#7 } = true ∧
      configLegal { smallCfg with P := 32, W := 16 } = true := by decide

theorem witness_OnlyAnIllegalConfigurationIsRefused :
    configLegal quiet.cfg = true ∧ configLegal { smallCfg with P := 0 } = false ∧
      configLegal { smallCfg with P := 33 } = false ∧ configLegal { smallCfg with W := 0 } = false ∧
      configLegal { smallCfg with W := 17 } = false ∧
      configLegal { smallCfg with bridgeVel := 0#7 } = false := by decide

/-- An idle state, and the state of a busy pool with a PROCESS waiting. -/
theorem witness_StepKeepsTheInvariant :
    (quiet.Inv ∧ nextOf (step quiet) = some quiet) ∧
      (busy.issue .audio 0x0400_0000_0000_0001#64).Inv ∧
      (nextOf (step (busy.issue .audio 0x0400_0000_0000_0001#64))).isSome :=
  ⟨⟨witness_inv_quiet, by decide⟩, witness_inv_busy.congr rfl rfl rfl rfl rfl rfl rfl, by decide +kernel⟩

theorem witness_NoWordStopsTheBlock : (busy.issue .control 0xFFFF_FFFF_FFFF_FFFF#64).Inv :=
  witness_inv_busy.congr rfl rfl rfl rfl rfl rfl rfl

theorem witness_StepRunsTheDecodedInstruction :
    configLegal (waiting 0x0600_0000_0000_0000#64).cfg = true ∧
      (waiting 0x0600_0000_0000_0000#64).dispatchSlot = none ∧
      (waiting 0x0600_0000_0000_0000#64).takeCommand = some (0x0600_0000_0000_0000#64, quiet) ∧
      decodeCmd 0x0600_0000_0000_0000#64 = .ok .qactive := by decide

/-- A word on either stream alone, and none at all. -/
theorem witness_CommandsAreTakenInStreamOrder :
    (waiting 0x0600_0000_0000_0000#64).takeCommand = some (0x0600_0000_0000_0000#64, quiet) ∧
      (quiet.issue .control 0x0600_0000_0000_0000#64).takeCommand = some (0x0600_0000_0000_0000#64, quiet) ∧
      configLegal quiet.cfg = true ∧ quiet.dispatchSlot = none ∧ quiet.audioIn = [] ∧
      quiet.controlIn = [] := by decide

theorem witness_DispatchIsTheMeaningOfTheClass :
    configLegal (quiet.withFetchWord 24 0x90457F).cfg = true ∧
      (quiet.withFetchWord 24 0x90457F).dispatchSlot = some 0x90457F#24 := by decide

theorem witness_DecodeUndoesEncode : (Instr.noteOn 15#4 127#7 1#7).wellFormed = true := by decide

theorem witness_EncodeUndoesDecode :
    decode (.msg 0x9F7F01#24) = .ok (.noteOn 15#4 127#7 1#7) ∧
      decode (.cmd 0x0900_0000_0000_009F#64) = .ok (.clrstat 31#5 true) := by decide

theorem witness_DecodeFollowsTheOpcodeTable :
    decodeCmd 0x0900_0000_0000_009F#64 = .ok (.clrstat 31#5 true) := by decide

/-- Both sides of each border. -/
theorem witness_RejectionReasonsOfR112 :
    decodeCmd 0x0900_0000_0000_0000#64 = .ok (.clrstat 0#5 false) ∧
      decodeCmd 0x0A00_0000_0000_0000#64 = .error .reservedOpcode ∧
      decodeCmd 0x0200_0003_0000_0000#64 = .ok (.param .release 0#32) ∧
      decodeCmd 0x0200_0004_0000_0000#64 = .error .illegalField ∧
      decodeCmd 0x0200_0104_0000_0000#64 = .error .reservedBits ∧
      decodeCmd 0x0500_0000_0000_007F#64 = .ok (.setkey (some 127#7)) ∧
      decodeCmd 0x0500_0000_0000_0080#64 = .error .illegalField := by decide

/-- A query opcode, and one that is none. -/
theorem witness_RejectedWordSetsOnlyBadcmd :
    ((bits (0x0000_0000_0000_0000#64 : CmdWord) 56 8).toNat = 0 ∧
      0x0A ≤ (bits (0x0A00_0000_0000_0000#64 : CmdWord) 56 8).toNat) ∧
    ((waiting 0x0800_0000_0100_0000#64).takeCommand = some (0x0800_0000_0100_0000#64, quiet) ∧
      decodeCmd 0x0800_0000_0100_0000#64 = .error .reservedBits ∧
      (bits (0x0800_0000_0100_0000#64 : CmdWord) 56 8).toNat ∈ [6, 7, 8]) ∧
    ((waiting 0x0900_0000_0000_0040#64).takeCommand = some (0x0900_0000_0000_0040#64, quiet) ∧
      decodeCmd 0x0900_0000_0000_0040#64 = .error .reservedBits ∧
      (bits (0x0900_0000_0000_0040#64 : CmdWord) 56 8).toNat ∉ [6, 7, 8]) := by decide

/-- The premises of each clause; what the model gives there is test_decode_class_borders. -/
theorem witness_MessageClassesOfR114 :
    (0x7F#8).toNat < 0x80 ∧ (0x80 ≤ (0x80#8).toNat ∧ (0x80#8).toNat < 0xA0 ∧ ¬(0x80#8).toNat < 0x80) ∧
      ((0x8F#8).toNat < 0x90 ∧ (0x7F#8).toNat < 0x80) ∧ (0x90 ≤ (0x90#8).toNat ∧ (0#8).toNat = 0) ∧
      ((0x9F#8).toNat < 0xA0 ∧ 1 ≤ (1#8).toNat) ∧ (0xE0 ≤ (0xE0#8).toNat ∧ (0xEF#8).toNat < 0xF0) ∧
      (0xA0 ≤ (0xA0#8).toNat ∧ (0xDF#8).toNat < 0xE0) ∧ 0xF0 ≤ (0xF0#8).toNat := by decide

theorem witness_ResetReconfiguresRatesAndQueue :
    (0#24 = (0#24 : BitVec 24)) ∧ (1#24 ≠ (0#24 : BitVec 24)) ∧ (1#16 ≠ (0#16 : BitVec 16)) := by decide

theorem witness_ResetToALargerBlockKeepsTheQueue :
    busy.Inv ∧ (1#24 ≠ (0#24 : BitVec 24)) ∧ busy.bs.toNat ≤ (4#16).toNat := ⟨witness_inv_busy, by decide⟩

/-- The offsets on each side of BS, a full queue and one place left. -/
theorem witness_MidiQueuesOrDropsOneMessage :
    busy.bs.toNat ≤ (4#16).toNat ∧
      ((2#16).toNat < ({ busy with bs := 3#16 } : State).bs.toNat ∧
        ({ busy with bs := 3#16 } : State).bs.toNat ≤ ({ busy with bs := 3#16 } : State).queue.length) ∧
      ((3#16).toNat < busy.bs.toNat ∧ busy.queue.length < busy.bs.toNat ∧ QueueOk busy.bs busy.queue) :=
  ⟨by decide, by decide, by decide, by decide, witness_inv_busy.2.2.1⟩

theorem witness_SetkeyWritesOnlyCurKey :
    exec (.setkey (some 1#7)) quiet = .next { quiet with curKey := some 1#7 } := rfl

theorem witness_QactiveCountsTheBusyVoices : busy.Inv ∧ full.Inv := ⟨witness_inv_busy, witness_inv_full⟩

theorem witness_QkeyAsksForABusyBoundVoice :
    (∃ v ∈ busy.voices, v.key = some 60#7 ∧ v.stage ≠ .idle) ∧
      ∀ v ∈ busy.voices, v.key = some 61#7 → v.stage = .idle := by decide

/-- The first and the last voice and entry. -/
theorem witness_RdregReadsTheRegisterMap :
    busy.Inv ∧ (busy.voices[0]?).isSome ∧ (busy.voices[1]?).isSome ∧ (busy.queue[0]?).isSome ∧
      (busy.queue[2]?).isSome := ⟨witness_inv_busy, by decide⟩

/-- The borders of each range; a number beside them that names a register. -/
theorem witness_RdregRejectsUnmappedNumbers :
    busy.Inv ∧ [0xD, 0xFF, 0x107, 0x10F, 0x110, 0xFFFFF, 0x100006, 0xFFFFFF].map (readReg busy) =
        List.replicate 8 none ∧
      [0xC, 0x100, 0x10E, 0x100005].map (fun r => (readReg busy r).isSome) = [true, true, true, true] :=
  ⟨witness_inv_busy, by decide⟩

theorem witness_FindFreeVoicePicksFirstIdleElseQuietest :
    (quiet.voices ≠ [] ∧ ∃ u ∈ quiet.voices, u.stage = .idle) ∧
      (busy.voices ≠ [] ∧ ∀ u ∈ busy.voices, u.stage ≠ .idle) := by decide

/-- An unbound note, and a bound one under each policy. -/
theorem witness_NoteOnStartsOneVoice :
    (full.Inv ∧ ∀ u ∈ full.voices, u.key ≠ some 61#7) ∧
      (full.Inv ∧ (full.voices[1]?).map Voice.key = some (some 64#7) ∧ full.cfg.retrig = .reallocate) ∧
      (retriggering.Inv ∧ (retriggering.voices[1]?).map Voice.key = some (some 64#7) ∧
        retriggering.cfg.retrig = .retrigger) :=
  ⟨⟨witness_inv_full, by decide⟩, ⟨witness_inv_full, by decide⟩, witness_inv_retriggering, by decide⟩

theorem witness_NoteOnBindsExactlyOneVoice : full.Inv ∧ retriggering.Inv :=
  ⟨witness_inv_full, witness_inv_retriggering⟩

theorem witness_NoteOffReleasesTheBoundVoice :
    full.Inv ∧ (∀ u ∈ full.voices, u.key ≠ some 61#7) ∧
      (full.voices[1]?).map Voice.key = some (some 64#7) := ⟨witness_inv_full, by decide⟩

theorem witness_StolenNoteIsGone :
    full.Inv ∧ (∀ x ∈ full.voices, x.stage ≠ .idle) ∧ (∀ x ∈ full.voices, x.key ≠ some 61#7) ∧
      (60#7 : Note) ≠ 61#7 ∧ (full.voices[findFreeVoice full.voices]?).map Voice.key = some (some 60#7) :=
  ⟨witness_inv_full, by decide⟩

theorem witness_OneNoteTooManyStealsVoiceZero :
    quiet.Inv ∧ (∀ u ∈ quiet.voices, u.stage = .idle) ∧
      ([(0#7, 1#7), (127#7, 127#7)] : List (Note × Velocity)).length = quiet.cfg.P ∧
      ((1#7 : Note) :: ([(0#7, 1#7), (127#7, 127#7)] : List (Note × Velocity)).map Prod.fst).Nodup :=
  ⟨witness_inv_quiet, by decide⟩

theorem witness_PitchIncIsTheRoundedRealIncrement : (1#24 : BitVec 24) ≠ 0#24 := by decide

theorem witness_LookupStaysInTheTable :
    (1 ≤ smallCfg.W ∧ smallCfg.W ≤ 16 ∧ smallCfg.lookup = .linear) ∧
      ({ smallCfg with lookup := .nearest } : Config).lookup = .nearest ∧
      ({ smallCfg with table := [0x400000#24, 0x800000#24] } : Config).table[1]? = some 0x800000#24 := by decide

/-- R11: 0x80_0000 stands for -2.0, and a table entry is read as a signed number (R81). -/
theorem test_table_read_is_signed :
    tableRead { smallCfg with table := [0x400000#24, 0x800000#24] } 1 = -(2 ^ 23) := by decide

/-- Stage times of 10000 us, with SUS = 0. -/
def ramping : State := { quiet with atkT := 10000#32, decT := 10000#32, relT := 10000#32, sus := 0#31 }

/-- The steps are 2434788 from ONE and 22084 from `rel` (spec/95 program 4): each stage's voice stands at the
border of its clauses. -/
theorem witness_EnvelopeStepOfEachStage :
    ramping.Inv ∧ ramping.attackInc = 2434788 ∧ ramping.decayDec = 2434788 ∧
      ramping.releaseDec ⟨none, .release, 1#7, 0#32, 0#32, 22085#31, 9739152#31⟩ = 22084 ∧
      ∀ l : Level, l ∈ [1071307035#31, 1071307036#31, 2434788#31, 2434789#31, 22084#31, 22085#31] →
        (⟨some 1#7, .attack, 1#7, 0#32, 0#32, l, 0#31⟩ : Voice).Ok ∧
        (⟨some 1#7, .decay, 1#7, 0#32, 0#32, l, 0#31⟩ : Voice).Ok ∧
        (⟨some 1#7, .sustain, 1#7, 0#32, 0#32, l, 0#31⟩ : Voice).Ok ∧
        (⟨none, .release, 1#7, 0#32, 0#32, l, 9739152#31⟩ : Voice).Ok := by
  refine ⟨?_, by decide +kernel, by decide +kernel, by decide +kernel, fun l hl => ?_⟩
  · unfold State.Inv VoicesOk QueueOk NotBothBound Voice.Ok; decide
  · have h : l.toNat ≤ ONE := by fin_cases hl <;> decide
    have h' : 9739152 ≤ ONE := by decide
    simp [Voice.Ok, h, h']

theorem witness_AttackEndsOnItsLastCall :
    (⟨some 1#7, .attack, 1#7, 0#32, 0#32, 0#31, 0#31⟩ : Voice).stage = .attack ∧
      (⟨some 1#7, .attack, 1#7, 0#32, 0#32, 0#31, 0#31⟩ : Voice).lvl = 0#31 := by decide

theorem witness_DecayEndsOnItsLastCall :
    ramping.sus.toNat ≤ 2 ^ 30 ∧
      (⟨some 1#7, .decay, 1#7, 0#32, 0#32, 0x40000000#31, 0#31⟩ : Voice).stage = .decay ∧
      (⟨some 1#7, .decay, 1#7, 0#32, 0#32, 0x40000000#31, 0#31⟩ : Voice).lvl.toNat = 2 ^ 30 := by decide

theorem witness_ReleaseEndsOnItsLastCall :
    (⟨none, .release, 1#7, 0#32, 0#32, 9#31, 9#31⟩ : Voice).stage = .release ∧
      (⟨none, .release, 1#7, 0#32, 0#32, 9#31, 9#31⟩ : Voice).lvl =
        (⟨none, .release, 1#7, 0#32, 0#32, 9#31, 9#31⟩ : Voice).rel := by decide

/-- A premise of each clause, at its border, with the step it gives. -/
theorem witness_RampDurationBounds :
    rampStep (2 ^ 30) 0 = 2 ^ 30 ∧ rampStep 5 5 = 1 ∧ 2 ^ 2 ≤ 4 ∧ rampStep 4 2 = 2 ∧ rampStep 4 5 = 1 ∧
      rampStep 0 1 = 1 := by decide

theorem witness_QueueRoundTripOfR225 :
    ({ quiet with bs := 4#16 } : State).queue = [] ∧ 4 ≤ ({ quiet with bs := 4#16 } : State).bs.toNat ∧
      (⟨0x90#8, 1#8, 1#8, 5#16⟩ : Entry).ofs.toNat = 5 ∧ (⟨0x90#8, 2#8, 1#8, 2#16⟩ : Entry).ofs.toNat = 2 ∧
      (⟨0x90#8, 3#8, 1#8, 8#16⟩ : Entry).ofs.toNat = 8 := by decide

theorem witness_FlushPropertiesOfR228 : busy.queue ≠ [] ∧ ∀ e ∈ busy.queue, e.ofs.toNat < 4 := by decide

theorem witness_DispatchDueIsTheLoopOfR253 :
    quiet.qEmpty = true ∧ busy.qRemove.qPeek = some ⟨0xB0#8, 7#8, 100#8, 1#16⟩ ∧
      (⟨0xB0#8, 7#8, 100#8, 1#16⟩ : Entry).ofs.toNat ≤ 1 ∧
      0 < (⟨0xB0#8, 7#8, 100#8, 1#16⟩ : Entry).ofs.toNat := by decide

theorem witness_ProcessOneRendersOneFrame : busy.Inv ∧ busy.curKey = busy.lastKey :=
  ⟨witness_inv_busy, by decide⟩

/-- A sum exactly halfway between two outputs, which goes to the even one. -/
theorem witness_OutputIsRoundedToNearestEven :
    2 * |((2 : Int) ^ 27 * 635) - outValue (2 ^ 27 * 635) * (2 ^ 28 * 635)| = 2 ^ 28 * 635 ∧
      outValue (2 ^ 27 * 635) = 0 ∧ outValue (3 * 2 ^ 27 * 635) = 2 := by decide +kernel

theorem witness_OutputAlwaysFits : busy.Inv ∧ full.Inv := ⟨witness_inv_busy, witness_inv_full⟩

theorem witness_FastPathEqualsTheLoop :
    quiet.bs ≠ 0#16 ∧ (∀ v ∈ quiet.bridge.voices, v.stage = .idle) ∧ quiet.bridge.queue = [] := by decide

/-- No key change; and a change of key that fills the queue and one that overflows it. -/
theorem witness_BridgeQueuesAKeyChange :
    (busy.Inv ∧ busy.curKey = busy.lastKey) ∧
      ({ busy with curKey := some 1#7 } : State).Inv ∧
      ({ busy with curKey := some 1#7, lastKey := some 2#7 } : State).Inv ∧
      ({ busy with curKey := some 1#7 } : State).curKey ≠ busy.lastKey ∧
      (some 1#7 : Key) ≠ some 2#7 :=
  ⟨⟨witness_inv_busy, by decide⟩, witness_inv_busy.congr rfl rfl rfl rfl rfl rfl rfl,
    witness_inv_busy.congr rfl rfl rfl rfl rfl rfl rfl, by decide, by decide⟩

theorem witness_QueueAfterABlock :
    busy.Inv ∧ (1#16 : BitVec 16) ≠ 0#16 ∧ (4#16 : BitVec 16) ≠ 0#16 ∧ busy.bs.toNat ≤ (4#16).toNat :=
  ⟨witness_inv_busy, by decide⟩

/-- A first note at offset 511, the last of the default block. -/
theorem witness_NoteSoundsFromItsFrame :
    ({ quiet with queue := [⟨9#4 ++ 3#4, (69#7).setWidth 8, (127#7).setWidth 8, 511#16⟩] } : State).Inv ∧
      (∀ u ∈ quiet.voices, u.stage = .idle) ∧ quiet.curKey = quiet.lastKey ∧ (127#7 : Velocity) ≠ 0#7 ∧
      (511#16).toNat < (512#16).toNat := by
  refine ⟨?_, by decide, by decide, by decide, by decide⟩
  unfold State.Inv VoicesOk QueueOk NotBothBound Voice.Ok; decide

theorem witness_ABlockSplitsInTwo : busy.Inv ∧ 1 + 65534 < 2 ^ 16 := ⟨witness_inv_busy, by decide⟩

theorem witness_ChannelsDoNotMatter :
    List.Forall₂ (fun a b : Entry => bits a.st 4 4 = bits b.st 4 4 ∧ a.d1 = b.d1 ∧ a.d2 = b.d2 ∧ a.ofs = b.ofs)
      busy.queue
      [⟨0x9F#8, 62#8, 100#8, 0#16⟩, ⟨0xB1#8, 7#8, 100#8, 1#16⟩, ⟨0x87#8, 60#8, 0#8, 3#16⟩] :=
  .cons (by decide) (.cons (by decide) (.cons (by decide) .nil))

theorem witness_IgnoredMessagesAreSilent : busy.Inv ∧ busy.curKey = busy.lastKey :=
  ⟨witness_inv_busy, by decide⟩

theorem witness_WhatEachCommandWrites : exec .qactive busy = .next (busy.respond 2#32) := rfl

/-- One instruction for each disjunct. -/
theorem witness_FlagsOneCommandCanSet :
    (nextOf (exec (.midi 0#16 0#8 0#8 0#8) { busy with bs := 3#16 })).map State.status = some 1#32 ∧
      (nextOf (exec (.midi 4#16 0#8 0#8 0#8) busy)).map State.status = some 2#32 ∧
      (nextOf (exec (.reset 1#16 1#24) busy)).map State.status = some 4#32 ∧
      (nextOf (exec (.reset 0#16 1#24) busy)).map State.status = some 8#32 ∧
      (nextOf (exec (.rdreg 0xD#24) busy)).map State.status = some 0x10#32 ∧
      (∀ f d, Instr.qactive ≠ .clrstat f d) := ⟨by decide, by decide, by decide, by decide, by decide, by simp⟩

/-- The premises of each clause at their borders, and a statement each clause refuses. -/
theorem witness_AssemblerMakesAcceptedWords :
    assemble (.noteon 69 127 0) = some 0x0300_0000_0090_457F#64 ∧
      assemble .clrall = some 0x0900_0000_0000_009F#64 ∧
      assemble (.core (.reset (2 ^ 24 - 1) (2 ^ 16 - 1))) = some 0x0100_FFFF_00FF_FFFF#64 ∧
      assemble (.core (.reset (2 ^ 24) 1)) = none ∧
      assemble (.core (.param .attack (2 ^ 32 - 1))) = some 0x0200_0000_FFFF_FFFF#64 ∧
      assemble (.core (.param .decay (2 ^ 32 - 1))) = some 0x0200_0001_FFFF_FFFF#64 ∧
      assemble (.core (.param .sustain (2 ^ 32 - 1))) = some 0x0200_0002_FFFF_FFFF#64 ∧
      assemble (.core (.param .release (2 ^ 32 - 1))) = some 0x0200_0003_FFFF_FFFF#64 ∧
      assemble (.core (.param .release (2 ^ 32))) = none ∧
      assemble (.core (.midi 255 255 255 65535)) = some 0x0300_FFFF_00FF_FFFF#64 ∧
      assemble (.core (.midi 255 256 255 65535)) = none ∧
      assemble (.core (.process 65535)) = some 0x0400_0000_0000_FFFF#64 ∧
      assemble (.core (.process 65536)) = none ∧
      assemble (.core (.qkey 0x7F)) = some 0x0700_0000_0000_007F#64 ∧
      assemble (.core (.qkey 0x80)) = none ∧
      assemble (.core (.rdreg (2 ^ 24 - 1))) = some 0x0800_0000_00FF_FFFF#64 ∧
      assemble (.core (.rdreg (2 ^ 24))) = none ∧
      assemble (.core (.setkey 0x7F)) = some 0x0500_0000_0000_007F#64 ∧
      assemble (.core (.setkey 0x80)) = none ∧ assemble (.core (.setkey 0xFE)) = none ∧
      assemble (.core (.clrstat 0x1F)) = some 0x0900_0000_0000_001F#64 ∧
      assemble (.core (.clrstat 0x20)) = none ∧ assemble (.core (.clrstat 0x100)) = none := by decide

/-- D38: the bytes of `RESET 44100, 512` (R118) in either order. -/
theorem test_transport_byte_order :
    cmdBytes .big 0x0100_0200_0000_AC44#64 = [0x01#8, 0x00#8, 0x02#8, 0x00#8, 0x00#8, 0x00#8, 0xAC#8, 0x44#8] ∧
    respBytes .little 0x7F01_0A10#32 = [0x10#8, 0x0A#8, 0x01#8, 0x7F#8] := by decide

end Sys2Proof.Tests
end

