-- ==== Sys2Proof/Proofs/Scope.lean ====
section
/-! The configurations a step refuses (spec/00_scope.md, R6). The idea: no instruction's meaning refuses or faults
(R320), so only the guard of `step` can. -/

namespace Sys2Proof.Machine

/-- A velocity is not 0 exactly when it lies in the range of BRIDGE_VEL. -/
theorem velocity_ne_zero_iff (v : Velocity) : v ≠ 0#7 ↔ 1 ≤ v.toNat ∧ v.toNat ≤ 127 := by
  have hlt : v.toNat < 2 ^ 7 := v.isLt
  have hzero : v = 0#7 ↔ v.toNat = 0 := BitVec.toNat_inj.symm
  rw [ne_eq, hzero]
  omega

theorem configLegal_iff (c : Config) :
    configLegal c = true ↔
      1 ≤ c.P ∧ c.P ≤ 32 ∧ 1 ≤ c.W ∧ c.W ≤ 16 ∧ 1 ≤ c.bridgeVel.toNat ∧ c.bridgeVel.toNat ≤ 127 := by
  rw [← velocity_ne_zero_iff]
  simp [configLegal, and_assoc]

/-- R320: whatever the instruction and the state, the meaning is a next state. Three commands answer by cases:
RESET and MIDI by their guards, RDREG by the register map. -/
theorem exec_isNext (i : Instr) (s : State) : ∃ t, exec i s = .next t := by
  cases i with
  | reset bs sr =>
    by_cases h : sr = 0#24 ∨ bs = 0#16
    · exact ⟨_, if_pos h⟩
    · exact ⟨_, if_neg h⟩
  | midi ofs st d1 d2 =>
    by_cases h : s.bs.toNat ≤ ofs.toNat
    · exact ⟨_, if_pos h⟩
    · exact ⟨_, if_neg h⟩
  | rdreg reg =>
    cases h : readReg s reg.toNat with
    | some v => exact ⟨s.respond v, by simp only [exec, execRdreg, h]⟩
    | none => exact ⟨(s.setFlag .badcmd).respond 0#32, by simp only [exec, execRdreg, h]⟩
  | _ => exact ⟨_, rfl⟩

/-- R110, R280: a word that decodes runs, any other is rejected; either way the block goes on. -/
theorem runCommand_isNext (w : CmdWord) (s : State) : ∃ t, runCommand w s = .next t := by
  cases h : decodeCmd w with
  | ok i => simpa only [runCommand, h] using exec_isNext i s
  | error e => exact ⟨s.reject w, by simp only [runCommand, h]⟩

theorem step_of_illegal {s : State} (h : configLegal s.cfg = false) :
    step s = .refused .illegalConfiguration := if_neg (by simp [h])

theorem step_of_slot {s : State} {m : MsgWord} (hc : configLegal s.cfg = true) (hm : s.dispatchSlot = some m) :
    step s = exec (decodeMsg m) (s.setSlot none) := by simp [step, hc, hm]

theorem step_of_command {s t : State} {w : CmdWord} (hc : configLegal s.cfg = true)
    (hm : s.dispatchSlot = none) (hw : s.takeCommand = some (w, t)) : step s = runCommand w t := by
  simp [step, hc, hm, hw]

theorem step_of_idle {s : State} (hc : configLegal s.cfg = true) (hm : s.dispatchSlot = none)
    (hw : s.takeCommand = none) : step s = .next s := by simp [step, hc, hm, hw]

/-- With a legal configuration the step goes on, from any state: a message in the slot, a word taken, or neither. -/
theorem step_isNext_of_legal {s : State} (hc : configLegal s.cfg = true) : ∃ t, step s = .next t := by
  cases hm : s.dispatchSlot with
  | some m => exact step_of_slot hc hm ▸ exec_isNext _ _
  | none =>
    cases hw : s.takeCommand with
    | some wt => exact step_of_command hc hm hw ▸ runCommand_isNext wt.1 wt.2
    | none => exact ⟨s, step_of_idle hc hm hw⟩

/-- Settles O3: the guard of `step` is the table of R6, and past the guard no instruction refuses. -/
theorem onlyAnIllegalConfigurationIsRefused : Obligations.OnlyAnIllegalConfigurationIsRefused := by
  intro s
  exact ⟨configLegal_iff s.cfg, step_of_illegal, step_isNext_of_legal⟩

end Sys2Proof.Machine
end

