-- ==== Sys2Proof/Proofs/Invariant.lean ====
section
/-! That every step keeps the invariant of the block (spec/10_state.md, R36 to R43). The idea: Laws/Step.lean has
each operation keep it, so each instruction keeps it, given that a note-on has a velocity of at least 1 (R36 (v));
no word, command or message, decodes to any other note-on (R114). -/

namespace Sys2Proof.Machine

/-! ## Command words are well formed -/

/-- A command word decodes to a command, and NOTE_ON is a message (R101, R114). -/
theorem decodeCmd_ne_noteOn (w : CmdWord) (c : BitVec 4) (n : Note) (v : Velocity) :
    decodeCmd w ≠ .ok (.noteOn c n v) := by
  unfold decodeCmd decodeReset decodeParam decodeMidi decodeProcess decodeSetkey decodeQactive decodeQkey
    decodeRdreg decodeClrstat
  dsimp only
  repeat' split
  all_goals exact nofun

/-- NOTE_ON is the one instruction that can be ill formed, so every accepted command word is well formed. -/
theorem decodeCmd_wellFormed {w : CmdWord} {i : Instr} (h : decodeCmd w = .ok i) : i.wellFormed = true := by
  cases i with
  | noteOn c n v => exact absurd h (decodeCmd_ne_noteOn w c n v)
  | _ => rfl

/-! ## Taking a word or a message, and PROCESS -/

theorem State.Inv.setSlot {s : State} (h : s.Inv) (m : Option MsgWord) : (s.setSlot m).Inv :=
  h.congr rfl rfl rfl rfl rfl rfl rfl

theorem State.Inv.emit {s : State} (h : s.Inv) (fs : List Frame) : (s.emit fs).Inv :=
  h.congr rfl rfl rfl rfl rfl rfl rfl

/-- The key registers (R45, R46) are no part of the invariant. -/
theorem State.Inv.setCurKey {s : State} (h : s.Inv) (k : Key) : (s.setCurKey k).Inv :=
  h.congr rfl rfl rfl rfl rfl rfl rfl

theorem State.Inv.takeCommand {s t : State} {w : CmdWord} (h : s.Inv) (hw : s.takeCommand = some (w, t)) :
    t.Inv := by
  obtain ⟨audio, control, k, rfl⟩ := State.takeCommand_eq hw
  exact h.congr rfl rfl rfl rfl rfl rfl rfl

/-- R250: the bridge, then silence on the fast path (R258), else the frames and the flush. -/
theorem State.Inv.render {s : State} (h : s.Inv) (n : Nat) : (s.render n).Inv := by
  unfold State.render
  dsimp only
  split_ifs
  · exact h.bridge.emit _
  · exact (h.bridge.renderLoop n 0).qFlush n

/-! ## One instruction, one word, one step -/

/-- Every well-formed instruction goes on and keeps the invariant. RESET, MIDI and RDREG answer by cases: the guards
of the first two are what the resize and the insertion need. -/
theorem State.Inv.exec_next {s : State} (h : s.Inv) {i : Instr} (hi : i.wellFormed = true) :
    ∃ t, exec i s = .next t ∧ t.Inv := by
  cases i with
  | reset bs sr =>
    by_cases hz : sr = 0#24 ∨ bs = 0#16
    · exact ⟨_, if_pos hz, h.setFlag _⟩
    · obtain ⟨hsr, hbs⟩ := not_or.1 hz
      exact ⟨_, if_neg hz, h.resize hbs hsr⟩
  | param pid value => exact ⟨_, rfl, h.setParam pid value⟩
  | midi ofs st d1 d2 =>
    by_cases ho : s.bs.toNat ≤ ofs.toNat
    · exact ⟨_, if_pos ho, (h.setFlag _).lose 1⟩
    · exact ⟨_, if_neg ho, h.qAdd (Nat.lt_of_not_le ho)⟩
  | process n => exact ⟨_, rfl, h.render n.toNat⟩
  | setkey key => exact ⟨_, rfl, h.setCurKey key⟩
  | qactive => exact ⟨_, rfl, h.respond _⟩
  | qkey key => exact ⟨_, rfl, h.respond _⟩
  | rdreg reg =>
    cases hr : readReg s reg.toNat with
    | some v => exact ⟨s.respond v, by simp only [exec, execRdreg, hr], h.respond v⟩
    | none =>
      exact ⟨(s.setFlag .badcmd).respond 0#32, by simp only [exec, execRdreg, hr], (h.setFlag _).respond _⟩
  | clrstat flags drops => exact ⟨_, rfl, h.clear flags drops⟩
  | noteOff c n v => exact ⟨_, rfl, h.noteOff⟩
  | noteOnZero c n => exact ⟨_, rfl, h.noteOff⟩
  | noteOn c n v =>
    have hv : v ≠ 0#7 := by simpa [Instr.wellFormed] using hi
    exact ⟨_, rfl, h.noteOn hv⟩
  | _ => exact ⟨s, rfl, h⟩

/-- R280: a word that decodes runs a well-formed instruction, any other is rejected. -/
theorem State.Inv.runCommand_next {s : State} (h : s.Inv) (w : CmdWord) :
    ∃ t, runCommand w s = .next t ∧ t.Inv := by
  cases hd : decodeCmd w with
  | ok i => simpa only [runCommand, hd] using h.exec_next (decodeCmd_wellFormed hd)
  | error e => exact ⟨s.reject w, by simp only [runCommand, hd], h.reject w⟩

/-- R320: from a state that meets the invariant the step goes on, to a state that meets it. -/
theorem State.Inv.step_next {s : State} (h : s.Inv) : ∃ t, step s = .next t ∧ t.Inv := by
  have hc : configLegal s.cfg = true := h.1
  cases hm : s.dispatchSlot with
  | some m => exact step_of_slot hc hm ▸ (h.setSlot none).exec_next (decodeMsg_wellFormed m)
  | none =>
    cases hw : s.takeCommand with
    | some wt => exact step_of_command hc hm hw ▸ (h.takeCommand hw).runCommand_next wt.1
    | none => exact ⟨s, step_of_idle hc hm hw, h⟩

/-- Settles O4: the step has one outcome, and it meets the invariant. -/
theorem stepKeepsTheInvariant : Obligations.StepKeepsTheInvariant := by
  intro s t h hstep
  obtain ⟨t', ht', hinv⟩ := h.step_next
  cases ht'.symm.trans hstep
  exact hinv

end Sys2Proof.Machine
end

