-- ==== Sys2Proof/Proofs/Transport.lean ====
section
/-! That a byte-wide transport gives back the word sent, and where it puts each byte (spec/20_memory.md, R82; D38).
The idea: the bytes sent are the fields of width 8 in a row. Adjacent fields join to one field, so all of them join
to the word; and the list of them, as a function of the position, has a byte's bits as its entry. -/

namespace Sys2Proof.Machine

/-! ## Adjacent fields join -/

theorem bits_append_bits {k : Nat} (w : BitVec k) (lo m n : Nat) :
    bits w (lo + n) m ++ bits w lo n = bits w lo (m + n) :=
  BitVec.extractLsb'_append_extractLsb'_eq_extractLsb' rfl

theorem bits_zero_self {k : Nat} (w : BitVec k) : bits w 0 k = w := BitVec.extractLsb'_eq_self

/-- Joined from the top down, each byte lengthens the field above it. -/
theorem cmdWord_eq_append_bytes (w : CmdWord) :
    bits w 56 8 ++ bits w 48 8 ++ bits w 40 8 ++ bits w 32 8 ++ bits w 24 8 ++ bits w 16 8 ++ bits w 8 8 ++
      bits w 0 8 = w := by
  rw [bits_append_bits w 48 8 8, bits_append_bits w 40 16 8, bits_append_bits w 32 24 8,
    bits_append_bits w 24 32 8, bits_append_bits w 16 40 8, bits_append_bits w 8 48 8, bits_append_bits w 0 56 8]
  exact bits_zero_self w

theorem respWord_eq_append_bytes (w : RespWord) :
    bits w 24 8 ++ bits w 16 8 ++ bits w 8 8 ++ bits w 0 8 = w := by
  rw [bits_append_bits w 16 8 8, bits_append_bits w 8 16 8, bits_append_bits w 0 24 8]
  exact bits_zero_self w

/-! ## The receiver undoes the sender's order -/

theorem inByteOrder_inByteOrder (o : ByteOrder) (bytes : List (BitVec 8)) :
    inByteOrder o (inByteOrder o bytes) = bytes := by
  cases o with
  | big => rfl
  | little => exact List.reverse_reverse bytes

theorem cmdOfBytes_cmdBytes (o : ByteOrder) (w : CmdWord) : cmdOfBytes o (cmdBytes o w) = some w := by
  simp only [cmdOfBytes, cmdBytes, inByteOrder_inByteOrder, cmdWord_eq_append_bytes]

theorem respOfBytes_respBytes (o : ByteOrder) (w : RespWord) : respOfBytes o (respBytes o w) = some w := by
  simp only [respOfBytes, respBytes, inByteOrder_inByteOrder, respWord_eq_append_bytes]

/-! ## The bytes by position -/

theorem cmdBytes_big (w : CmdWord) :
    cmdBytes .big w = List.ofFn fun i : Fin 8 => bits w (8 * (7 - i.val)) 8 := rfl

theorem cmdBytes_little (w : CmdWord) :
    cmdBytes .little w = List.ofFn fun i : Fin 8 => bits w (8 * i.val) 8 := rfl

theorem respBytes_big (w : RespWord) :
    respBytes .big w = List.ofFn fun i : Fin 4 => bits w (8 * (3 - i.val)) 8 := rfl

theorem respBytes_little (w : RespWord) :
    respBytes .little w = List.ofFn fun i : Fin 4 => bits w (8 * i.val) 8 := rfl

/-- The `i`-th of a list of bytes of a word, as a number; `lo` gives the lowest bit of each. -/
theorem ofFn_bits_getElem?_toNat {k n : Nat} (w : BitVec k) (lo : Fin n → Nat) (i : Fin n) :
    (List.ofFn fun j => bits w (lo j) 8)[i.val]?.map BitVec.toNat = some (w.toNat / 2 ^ lo i % 256) := by
  rw [List.getElem?_ofFn, dif_pos i.isLt, Option.map_some, bits_toNat]
  rfl

/-- Settles O58: the receiver undoes the order and joins the bytes, and byte `i` is the field at its position. -/
theorem transportRoundTrip : Obligations.TransportRoundTrip := by
  refine ⟨fun o => ⟨cmdOfBytes_cmdBytes o, respOfBytes_respBytes o⟩, fun w => ?_, fun w => ?_⟩
  · rw [cmdBytes_big, cmdBytes_little]
    exact ⟨List.length_ofFn, List.length_ofFn, fun i =>
      ⟨ofFn_bits_getElem?_toNat w (fun j => 8 * (7 - j.val)) i, ofFn_bits_getElem?_toNat w (fun j => 8 * j.val) i⟩⟩
  · rw [respBytes_big, respBytes_little]
    exact ⟨List.length_ofFn, List.length_ofFn, fun i =>
      ⟨ofFn_bits_getElem?_toNat w (fun j => 8 * (3 - j.val)) i, ofFn_bits_getElem?_toNat w (fun j => 8 * j.val) i⟩⟩

end Sys2Proof.Machine
end

