-- ==== Sys2Proof/Proofs/Encoding.lean ====
section
/-! That the decoder and the encoder of spec/30_encoding.md undo each other (R102 to R112, R114), and why and with
what effect a word is rejected (R110, R112). The idea: an opcode selects one format (R101), so a claim about the
decoder's answer is one claim per format; and in each format the opcode, the reserved fields and the operands are all
the bits of the word, which is linear arithmetic once every field is a number. -/

namespace Sys2Proof.Machine

/-! ## Command words by opcode -/

/-- A property of the decoder's answer holds when it holds of the answer of each opcode's format (R101). -/
theorem decodeCmd_byOpcode {P : Except Reject Instr → Prop} (w : CmdWord)
    (reset : (bits w 56 8).toNat = 1 → P (decodeReset w))
    (param : (bits w 56 8).toNat = 2 → P (decodeParam w))
    (midi : (bits w 56 8).toNat = 3 → P (decodeMidi w))
    (process : (bits w 56 8).toNat = 4 → P (decodeProcess w))
    (setkey : (bits w 56 8).toNat = 5 → P (decodeSetkey w))
    (qactive : (bits w 56 8).toNat = 6 → P (decodeQactive w))
    (qkey : (bits w 56 8).toNat = 7 → P (decodeQkey w))
    (rdreg : (bits w 56 8).toNat = 8 → P (decodeRdreg w))
    (clrstat : (bits w 56 8).toNat = 9 → P (decodeClrstat w))
    (reserved : (bits w 56 8).toNat = 0 ∨ 10 ≤ (bits w 56 8).toNat → P (.error .reservedOpcode)) :
    P (decodeCmd w) := by
  obtain ⟨e1, e2, e3, e4, e5, e6, e7, e8, e9, e0⟩ := decodeCmd_of_opc w
  generalize (bits w 56 8).toNat = opc at *
  match opc with
  | 0 => exact e0 (.inl rfl) ▸ reserved (.inl rfl)
  | 1 => exact e1 rfl ▸ reset rfl
  | 2 => exact e2 rfl ▸ param rfl
  | 3 => exact e3 rfl ▸ midi rfl
  | 4 => exact e4 rfl ▸ process rfl
  | 5 => exact e5 rfl ▸ setkey rfl
  | 6 => exact e6 rfl ▸ qactive rfl
  | 7 => exact e7 rfl ▸ qkey rfl
  | 8 => exact e8 rfl ▸ rdreg rfl
  | 9 => exact e9 rfl ▸ clrstat rfl
  | n + 10 => exact e0 (.inr (Nat.le_add_left ..)) ▸ reserved (.inr (Nat.le_add_left ..))

/-- The three answers to a PARAM word, in the order of R112. -/
theorem decodeParam_cases (w : CmdWord) :
    (bits w 40 16 ≠ 0#16 ∧ decodeParam w = .error .reservedBits) ∨
    (bits w 40 16 = 0#16 ∧ paramIdOf (bits w 32 8) = none ∧ decodeParam w = .error .illegalField) ∨
    (bits w 40 16 = 0#16 ∧ ∃ pid, paramIdOf (bits w 32 8) = some pid ∧
      decodeParam w = .ok (.param pid (bits w 0 32))) := by
  by_cases hr : bits w 40 16 = 0#16
  · cases hp : paramIdOf (bits w 32 8) with
    | none => exact .inr (.inl ⟨hr, rfl, by simp only [decodeParam, hr, hp, if_true]⟩)
    | some pid => exact .inr (.inr ⟨hr, pid, rfl, by simp only [decodeParam, hr, hp, if_true]⟩)
  · exact .inl ⟨hr, if_neg hr⟩

/-- The three answers to a SETKEY word, in the order of R112. -/
theorem decodeSetkey_cases (w : CmdWord) :
    (bits w 8 48 ≠ 0#48 ∧ decodeSetkey w = .error .reservedBits) ∨
    (bits w 8 48 = 0#48 ∧ keyOf (bits w 0 8) = none ∧ decodeSetkey w = .error .illegalField) ∨
    (bits w 8 48 = 0#48 ∧ ∃ key, keyOf (bits w 0 8) = some key ∧ decodeSetkey w = .ok (.setkey key)) := by
  by_cases hr : bits w 8 48 = 0#48
  · cases hk : keyOf (bits w 0 8) with
    | none => exact .inr (.inl ⟨hr, rfl, by simp only [decodeSetkey, hr, hk, if_true]⟩)
    | some key => exact .inr (.inr ⟨hr, key, rfl, by simp only [decodeSetkey, hr, hk, if_true]⟩)
  · exact .inl ⟨hr, if_neg hr⟩

/-- The other formats accept a word exactly when its reserved fields are clear. -/
theorem ite_eq_ok_iff {c : Prop} [Decidable c] {i j : Instr} {r : Reject} :
    (if c then .ok j else .error r : Except Reject Instr) = .ok i ↔ c ∧ j = i := by
  split_ifs with h <;> simp [h]

/-- The other formats reject a word only for a reserved field. -/
theorem ite_eq_error_iff {c : Prop} [Decidable c] {j : Instr} {r r' : Reject} :
    (if c then .ok j else .error r : Except Reject Instr) = .error r' ↔ ¬c ∧ r = r' := by
  split_ifs with h <;> simp [h]

/-! ## Encoding undoes decoding -/

theorem ofBool_beq_one (b : BitVec 1) : BitVec.ofBool (b == 1#1) = b := by
  rcases BitVec.eq_zero_or_eq_one b with rfl | rfl <;> rfl

/-- R102 to R111: the opcode, the reserved fields and the operands of an accepted word are all its bits. -/
theorem encode_of_decodeCmd (w : CmdWord) : ∀ i, decodeCmd w = .ok i → encode i = .cmd w := by
  have hw := w.isLt
  refine decodeCmd_byOpcode (P := fun d => ∀ i, d = .ok i → encode i = .cmd w) w
    ?reset ?param ?midi ?process ?setkey ?qactive ?qkey ?rdreg ?clrstat ?reserved
  case reserved => exact fun _ _ => nofun
  case param =>
    intro hopc i hd
    rcases decodeParam_cases w with ⟨-, e⟩ | ⟨-, -, e⟩ | ⟨hr, pid, hp, e⟩ <;> cases e.symm.trans hd
    refine congrArg CodeWord.cmd (BitVec.eq_of_toNat_eq ?_)
    rw [paramIdOf_eq_some hp]
    simp only [append_toNat, bits_toNat, bits_eq_iff] at *
    simp at *; omega
  case setkey =>
    intro hopc i hd
    rcases decodeSetkey_cases w with ⟨-, e⟩ | ⟨-, -, e⟩ | ⟨hr, key, hk, e⟩ <;> cases e.symm.trans hd
    refine congrArg CodeWord.cmd (BitVec.eq_of_toNat_eq ?_)
    rw [keyOf_eq_some hk]
    simp only [append_toNat, bits_toNat, bits_eq_iff] at *
    simp at *; omega
  all_goals
    intro hopc i hd
    obtain ⟨hr, rfl⟩ := ite_eq_ok_iff.1 hd
    refine congrArg CodeWord.cmd (BitVec.eq_of_toNat_eq ?_)
    simp only [append_toNat, bits_toNat, bits_eq_iff, ofBool_beq_one] at *
    simp at *; omega

/-- R114: a class fixes the bits its row fixes and its operands are the others, so no bit of the message is lost. -/
theorem encode_decodeMsg (m : MsgWord) : encode (decodeMsg m) = .msg m := by
  have hm := m.isLt
  unfold decodeMsg
  simp only [bits_eq_iff]
  split_ifs
  all_goals
    refine congrArg CodeWord.msg (BitVec.eq_of_toNat_eq ?_)
    simp only [append_toNat, bits_toNat]
    simp at *; omega

/-- Settles O10: a command word and a message each by its own lemma. -/
theorem encodeUndoesDecode : Obligations.EncodeUndoesDecode := by
  intro cw i h
  cases cw with
  | cmd w => exact ⟨decodeCmd_wellFormed h, encode_of_decodeCmd w i h⟩
  | msg m =>
    cases h
    exact ⟨decodeMsg_wellFormed m, encode_decodeMsg m⟩

/-- Settles O9: an instruction's word falls in its own format and holds its operands, by the round trip of each
format. -/
theorem decodeUndoesEncode : Obligations.DecodeUndoesEncode := by
  intro i
  cases i with
  | reset bs sr => exact Laws.RoundTrip.reset bs sr
  | param pid value => exact Laws.RoundTrip.param pid value
  | midi ofs st d1 d2 => exact Laws.RoundTrip.midi ofs st d1 d2
  | process n => exact Laws.RoundTrip.process n
  | setkey key => exact Laws.RoundTrip.setkey key
  | qactive => exact Laws.RoundTrip.qactive
  | qkey key => exact Laws.RoundTrip.qkey key
  | rdreg reg => exact Laws.RoundTrip.rdreg reg
  | clrstat flags drops => exact Laws.RoundTrip.clrstat flags drops
  | notStatus st d1 d2 => exact Laws.RoundTrip.notStatus st d1 d2
  | noteMalformedD1 st d1 d2 => exact Laws.RoundTrip.noteMalformedD1 st d1 d2
  | noteMalformedD2 st d1 d2 => exact Laws.RoundTrip.noteMalformedD2 st d1 d2
  | noteOff c n v => exact Laws.RoundTrip.noteOff c n v
  | noteOnZero c n => exact Laws.RoundTrip.noteOnZero c n
  | noteOn c n v => exact Laws.RoundTrip.noteOn c n v
  | pitchWheel c d1 d2 => exact Laws.RoundTrip.pitchWheel c d1 d2
  | otherAB st d1 d2 => exact Laws.RoundTrip.otherAB st d1 d2
  | otherCD st d1 d2 => exact Laws.RoundTrip.otherCD st d1 d2
  | otherF st d1 d2 => exact Laws.RoundTrip.otherF st d1 d2

/-- Settles O11: twelve closed words, each assembled, decoded and encoded by the model. -/
theorem workedEncodingsOfR118 : Obligations.WorkedEncodingsOfR118 := by
  unfold Obligations.WorkedEncodingsOfR118
  decide

/-! ## Rejection -/

theorem eq_zero_iff_toNat {n : Nat} (x : BitVec n) : x = 0#n ↔ x.toNat = 0 := by
  rw [← BitVec.toNat_inj, BitVec.toNat_ofNat, Nat.zero_mod]

theorem decodeParam_eq_illegalField (w : CmdWord) :
    decodeParam w = .error .illegalField ↔ (bits w 40 16).toNat = 0 ∧ 4 ≤ (bits w 32 8).toNat := by
  rw [← eq_zero_iff_toNat, ← paramIdOf_eq_none]
  rcases decodeParam_cases w with ⟨hr, e⟩ | ⟨hr, hp, e⟩ | ⟨hr, pid, hp, e⟩ <;> simp [*]

theorem decodeSetkey_eq_illegalField (w : CmdWord) :
    decodeSetkey w = .error .illegalField ↔
      (bits w 8 48).toNat = 0 ∧ 0x80 ≤ (bits w 0 8).toNat ∧ (bits w 0 8).toNat ≤ 0xFE := by
  rw [← eq_zero_iff_toNat, ← keyOf_eq_none]
  rcases decodeSetkey_cases w with ⟨hr, e⟩ | ⟨hr, hk, e⟩ | ⟨hr, key, hk, e⟩ <;> simp [*]

/-- No format finds its own opcode reserved (R112 (1)). -/
theorem decodeCmd_eq_reservedOpcode (w : CmdWord) :
    decodeCmd w = .error .reservedOpcode ↔ (bits w 56 8).toNat = 0 ∨ 10 ≤ (bits w 56 8).toNat := by
  refine decodeCmd_byOpcode (P := (· = .error .reservedOpcode ↔ _)) w
    ?reset ?param ?midi ?process ?setkey ?qactive ?qkey ?rdreg ?clrstat ?reserved <;> intro hopc
  case reserved => exact iff_of_true rfl hopc
  case param => rcases decodeParam_cases w with ⟨-, e⟩ | ⟨-, -, e⟩ | ⟨-, _, -, e⟩ <;> simp [e, hopc]
  case setkey => rcases decodeSetkey_cases w with ⟨-, e⟩ | ⟨-, -, e⟩ | ⟨-, _, -, e⟩ <;> simp [e, hopc]
  all_goals exact iff_of_false (fun e => nomatch (ite_eq_error_iff.1 e).2) (by simp [hopc])

/-- Only PARAM and SETKEY have a field with illegal values (R112 (3)). -/
theorem decodeCmd_eq_illegalField (w : CmdWord) :
    decodeCmd w = .error .illegalField ↔
      ((bits w 56 8).toNat = 2 ∧ decodeParam w = .error .illegalField) ∨
      ((bits w 56 8).toNat = 5 ∧ decodeSetkey w = .error .illegalField) := by
  refine decodeCmd_byOpcode (P := (· = .error .illegalField ↔ _)) w
    ?reset ?param ?midi ?process ?setkey ?qactive ?qkey ?rdreg ?clrstat ?reserved <;> intro hopc
  case reserved => exact iff_of_false nofun (by omega)
  case param => simp [hopc]
  case setkey => simp [hopc]
  all_goals exact iff_of_false (fun e => nomatch (ite_eq_error_iff.1 e).2) (by simp [hopc])

/-- Settles O13: the opcode alone decides step (1), and step (3) is PARAM's and SETKEY's. -/
theorem rejectionReasonsOfR112 : Obligations.RejectionReasonsOfR112 := by
  intro w
  refine ⟨decodeCmd_eq_reservedOpcode w, ?_⟩
  rw [decodeCmd_eq_illegalField, decodeParam_eq_illegalField, decodeSetkey_eq_illegalField]

theorem isQueryOpc_iff (opc : BitVec 8) : isQueryOpc opc = true ↔ opc.toNat ∈ [6, 7, 8] := by
  simp [isQueryOpc, ← BitVec.toNat_inj, or_assoc]

/-- A rejected word by its opcode (R110). -/
theorem State.reject_query {w : CmdWord} (h : (bits w 56 8).toNat ∈ [6, 7, 8]) (s : State) :
    s.reject w = (s.setFlag .badcmd).respond 0#32 := if_pos ((isQueryOpc_iff _).2 h)

theorem State.reject_other {w : CmdWord} (h : (bits w 56 8).toNat ∉ [6, 7, 8]) (s : State) :
    s.reject w = s.setFlag .badcmd := if_neg fun e => h ((isQueryOpc_iff _).1 e)

theorem runCommand_of_error {w : CmdWord} {r : Reject} (h : decodeCmd w = .error r) (s : State) :
    runCommand w s = .next (s.reject w) := by
  simp only [runCommand, h]

/-- Settles O14: the step of a rejected word is `State.reject` in the state with the word taken. -/
theorem rejectedWordSetsOnlyBadcmd : Obligations.RejectedWordSetsOnlyBadcmd := by
  refine ⟨fun w h => ⟨_, (decodeCmd_eq_reservedOpcode w).2 h⟩, fun s t w r hc hm hw hd => ?_⟩
  rw [step_of_command hc hm hw, runCommand_of_error hd]
  exact ⟨fun h => congrArg _ (State.reject_query h t), fun h => congrArg _ (State.reject_other h t)⟩

end Sys2Proof.Machine
end

