-- ==== Sys2Proof/Proofs/OpcodeTable.lean ====
section
/-! That the decoder follows the rows of spec/opcode_table.json (R101, R114). The idea: the mask of a row is a list of
fields, and a word matches the row when it has the row's value in each of them. A command row fixes the opcode, so at
most the row of the word's own opcode can match; the message rows are met one by one, as the decoder's branches are. -/

namespace Sys2Proof.Machine

/-! ## Rows of the opcode table by their fields -/

/-- The mask of a field of `len` bits from bit `lo` up. -/
def fieldMask (lo len : Nat) : Nat := (2 ^ len - 1) <<< lo

/-- The mask of a list of fields, each its lowest bit and its width. -/
def maskOf (fs : List (Nat × Nat)) : Nat := fs.foldr (fun f m => fieldMask f.1 f.2 ||| m) 0

theorem and_fieldMask (n lo len : Nat) : n &&& fieldMask lo len = (n / 2 ^ lo % 2 ^ len) <<< lo := by
  rw [fieldMask, ← Nat.and_two_pow_sub_one_eq_mod, ← Nat.shiftRight_eq_div_pow]
  refine Nat.eq_of_testBit_eq fun i => ?_
  by_cases hi : lo ≤ i
  · simp [hi, Bool.and_comm]
  · simp [hi]

theorem and_fieldMask_eq_iff (n p lo len : Nat) :
    n &&& fieldMask lo len = p &&& fieldMask lo len ↔ n / 2 ^ lo % 2 ^ len = p / 2 ^ lo % 2 ^ len := by
  rw [and_fieldMask, and_fieldMask, Nat.shiftLeft_eq, Nat.shiftLeft_eq]
  exact Nat.mul_left_inj (by positivity)

/-- Two numbers agree under a mask exactly when they agree under each part of it. -/
theorem or_and_self_left (a b : Nat) : (a ||| b) &&& a = a := by
  refine Nat.eq_of_testBit_eq fun i => ?_
  rw [Nat.testBit_and, Nat.testBit_or]
  exact inf_eq_right.2 le_sup_left

theorem and_or_eq_and_or_iff (n p a b : Nat) :
    n &&& (a ||| b) = p &&& (a ||| b) ↔ n &&& a = p &&& a ∧ n &&& b = p &&& b := by
  constructor
  · intro h
    have under (c : Nat) (hc : (a ||| b) &&& c = c) : n &&& c = p &&& c := by
      rw [← hc, ← Nat.and_assoc, ← Nat.and_assoc, h]
    exact ⟨under a (or_and_self_left a b), under b (Nat.or_comm a b ▸ or_and_self_left b a)⟩
  · rintro ⟨ha, hb⟩
    rw [Nat.and_or_distrib_left, Nat.and_or_distrib_left, ha, hb]

theorem and_maskOf_eq_iff (n p : Nat) (fs : List (Nat × Nat)) :
    n &&& maskOf fs = p &&& maskOf fs ↔ ∀ f ∈ fs, n / 2 ^ f.1 % 2 ^ f.2 = p / 2 ^ f.1 % 2 ^ f.2 := by
  induction fs with
  | nil => simp [maskOf]
  | cons f fs ih =>
    rw [List.forall_mem_cons, ← ih, ← and_fieldMask_eq_iff]
    exact and_or_eq_and_or_iff ..

/-- A word matches a row when it has the row's value in each field of the row's mask. -/
theorem TableRow.fits_iff {r : TableRow} (fs : List (Nat × Nat)) (hm : maskOf fs = r.mask)
    (hp : r.pattern &&& r.mask = r.pattern) (n : Nat) :
    r.fits n = true ↔ ∀ f ∈ fs, n / 2 ^ f.1 % 2 ^ f.2 = r.pattern / 2 ^ f.1 % 2 ^ f.2 := by
  rw [← and_maskOf_eq_iff, hm, hp]
  exact beq_iff_eq

/-! ## Messages: the first row that matches -/

/-- One row of a table against one branch of the decoder: when the row's fields `fs` have its values exactly in the
branch's words, the rest of the table has only the other words to settle. -/
theorem find?_cons_mnemonic {r : TableRow} {rows : List TableRow} {n : Nat} {c : Prop} [Decidable c] {i j : Instr}
    (fs : List (Nat × Nat)) (hm : maskOf fs = r.mask) (hp : r.pattern &&& r.mask = r.pattern)
    (hc : (∀ f ∈ fs, n / 2 ^ f.1 % 2 ^ f.2 = r.pattern / 2 ^ f.1 % 2 ^ f.2) ↔ c) (hr : r.mnemonic = i.mnemonic)
    (rest : ¬c → (rows.find? (·.fits n)).map TableRow.mnemonic = some j.mnemonic) :
    ((r :: rows).find? (·.fits n)).map TableRow.mnemonic = some (if c then i else j).mnemonic := by
  have hfits : r.fits n = true ↔ c := (TableRow.fits_iff fs hm hp n).trans hc
  rw [List.find?_cons]
  by_cases h : c
  · rw [hfits.2 h, if_pos h, ← hr]
    rfl
  · rw [Bool.eq_false_iff.2 (mt hfits.1 h), if_neg h]
    exact rest h

/-- R114: the branches of the decoder are the rows of the table, in its order. Rows 4 to 6 name fields the decoder
has already settled in the rows above; the last branch is the words that are left. -/
theorem find?_messageRows (m : MsgWord) :
    (messageRows.find? (·.fits m.toNat)).map TableRow.mnemonic = some (decodeMsg m).mnemonic := by
  unfold messageRows decodeMsg
  simp only [bits_eq_iff]
  refine find?_cons_mnemonic [(23, 1)] (by decide) (by decide) (by simp) rfl fun h1 => ?_
  refine find?_cons_mnemonic [(21, 3), (15, 1)] (by decide) (by decide) (by simp) rfl fun h2 => ?_
  refine find?_cons_mnemonic [(21, 3), (7, 1)] (by decide) (by decide) (by simp) rfl fun h3 => ?_
  refine find?_cons_mnemonic [(20, 4), (15, 1), (7, 1)] (by decide) (by decide) (by simp at *; omega) rfl fun h4 => ?_
  refine find?_cons_mnemonic [(20, 4), (15, 1), (0, 8)] (by decide) (by decide) (by simp at *; omega) rfl fun h5 => ?_
  refine find?_cons_mnemonic [(20, 4), (15, 1), (7, 1)] (by decide) (by decide) (by simp at *; omega) rfl fun h6 => ?_
  refine find?_cons_mnemonic [(20, 4)] (by decide) (by decide) (by simp) rfl fun h7 => ?_
  refine find?_cons_mnemonic [(21, 3)] (by decide) (by decide) (by simp) rfl fun h8 => ?_
  refine find?_cons_mnemonic [(21, 3)] (by decide) (by decide) (by simp) rfl fun h9 => ?_
  have hlast : (⟨"OTHER", 0xF00000, 0xF00000⟩ : TableRow).fits m.toNat = true :=
    (TableRow.fits_iff [(20, 4)] (by decide) (by decide) _).2 (by simp at *; omega)
  rw [List.find?_cons, hlast]
  rfl

/-! ## Commands: the row of the opcode -/

/-- The row of opcode `k + 1` (R101). -/
def commandRow (k : Fin 9) : TableRow := commandRows.get k

/-- The reserved fields of the format of opcode `k + 1` (R102 to R109, R111). -/
def reservedFields : Fin 9 → List (Nat × Nat)
  | 0 => [(48, 8), (24, 8)]
  | 1 => [(40, 16)]
  | 2 => [(48, 8), (24, 8)]
  | 3 => [(16, 40)]
  | 4 => [(8, 48)]
  | 5 => [(0, 56)]
  | 6 => [(7, 49)]
  | 7 => [(24, 32)]
  | 8 => [(8, 48), (5, 2)]

theorem commandRow_mask (k : Fin 9) : maskOf ((56, 8) :: reservedFields k) = (commandRow k).mask := by
  revert k; decide

/-- A command row fixes the opcode, and the reserved fields to 0. -/
theorem commandRow_fits_iff (k : Fin 9) (w : CmdWord) :
    (commandRow k).fits w.toNat = true ↔
      (bits w 56 8).toNat = k + 1 ∧ ∀ f ∈ reservedFields k, bits w f.1 f.2 = 0#f.2 := by
  have hp : (commandRow k).pattern &&& (commandRow k).mask = (commandRow k).pattern := by revert k; decide
  have hopc : (commandRow k).pattern / 2 ^ 56 % 2 ^ 8 = k + 1 := by revert k; decide
  have hzero : ∀ f ∈ reservedFields k, (commandRow k).pattern / 2 ^ f.1 % 2 ^ f.2 = 0 := by revert k; decide
  rw [TableRow.fits_iff _ (commandRow_mask k) hp, List.forall_mem_cons, hopc, ← bits_toNat]
  refine and_congr_right fun _ => forall₂_congr fun f hf => ?_
  rw [hzero f hf, ← bits_toNat, eq_zero_iff_toNat]

theorem mem_commandRows {r : TableRow} (h : r ∈ commandRows) : ∃ k, r = commandRow k := by
  obtain ⟨k, hk⟩ := List.mem_iff_get.1 h
  exact ⟨k, hk.symm⟩

/-- Two rows have two opcodes, so only the row of the word's own opcode can match. -/
theorem find?_commandRows (k : Fin 9) {w : CmdWord} (hopc : (bits w 56 8).toNat = k + 1) :
    commandRows.find? (·.fits w.toNat) =
      if ∀ f ∈ reservedFields k, bits w f.1 f.2 = 0#f.2 then some (commandRow k) else none := by
  have hfits := commandRow_fits_iff k w
  rw [and_iff_right hopc] at hfits
  cases hf : commandRows.find? (·.fits w.toNat) with
  | none =>
    have hno := List.find?_eq_none.1 hf (commandRow k) (List.get_mem ..)
    rw [if_neg (mt hfits.2 hno)]
  | some r =>
    have hr := List.find?_some hf
    obtain ⟨k', rfl⟩ := mem_commandRows (List.mem_of_find?_eq_some hf)
    obtain rfl : k' = k := by
      have := ((commandRow_fits_iff k' w).1 hr).1
      omega
    rw [if_pos (hfits.1 hr)]

theorem find?_commandRows_of_reserved {w : CmdWord} (hopc : (bits w 56 8).toNat = 0 ∨ 10 ≤ (bits w 56 8).toNat) :
    commandRows.find? (·.fits w.toNat) = none := by
  refine List.find?_eq_none.2 fun r hr h => ?_
  obtain ⟨k, rfl⟩ := mem_commandRows hr
  have := ((commandRow_fits_iff k w).1 h).1
  omega

/-- The answer `d` to the word is what the command rows say of it. -/
def AnswersByRow (w : CmdWord) (d : Except Reject Instr) : Prop :=
  (∀ i, d = .ok i → (commandRows.find? (·.fits w.toNat)).map TableRow.mnemonic = some i.mnemonic) ∧
  (commandRows.find? (·.fits w.toNat) = none ↔ d = .error .reservedOpcode ∨ d = .error .reservedBits)

/-- A format that accepts a word exactly when its reserved fields are clear answers by its row. -/
theorem answersByRow_ite (k : Fin 9) {w : CmdWord} (hopc : (bits w 56 8).toNat = k + 1) {c : Prop} [Decidable c]
    (hc : c ↔ ∀ f ∈ reservedFields k, bits w f.1 f.2 = 0#f.2) {i : Instr}
    (hi : (commandRow k).mnemonic = i.mnemonic) :
    AnswersByRow w (if c then .ok i else .error .reservedBits) := by
  simp only [AnswersByRow, find?_commandRows k hopc, ← hc]
  split_ifs <;> simp [hi]

theorem decodeCmd_answersByRow (w : CmdWord) : AnswersByRow w (decodeCmd w) := by
  refine decodeCmd_byOpcode w
    ?reset ?param ?midi ?process ?setkey ?qactive ?qkey ?rdreg ?clrstat ?reserved <;> intro hopc
  case reserved => simp [AnswersByRow, find?_commandRows_of_reserved hopc]
  case reset => exact answersByRow_ite 0 hopc (by simp [reservedFields]) rfl
  case param =>
    rw [AnswersByRow, find?_commandRows 1 hopc]
    rcases decodeParam_cases w with ⟨hr, e⟩ | ⟨hr, -, e⟩ | ⟨hr, pid, -, e⟩ <;> simp [reservedFields, hr, e]
    rfl
  case midi => exact answersByRow_ite 2 hopc (by simp [reservedFields]) rfl
  case process => exact answersByRow_ite 3 hopc (by simp [reservedFields]) rfl
  case setkey =>
    rw [AnswersByRow, find?_commandRows 4 hopc]
    rcases decodeSetkey_cases w with ⟨hr, e⟩ | ⟨hr, -, e⟩ | ⟨hr, key, -, e⟩ <;> simp [reservedFields, hr, e]
    rfl
  case qactive => exact answersByRow_ite 5 hopc (by simp [reservedFields]) rfl
  case qkey => exact answersByRow_ite 6 hopc (by simp [reservedFields]) rfl
  case rdreg => exact answersByRow_ite 7 hopc (by simp [reservedFields]) rfl
  case clrstat => exact answersByRow_ite 8 hopc (by simp [reservedFields]) rfl

/-- Settles O12: a command word by the row of its opcode, a message row by row. -/
theorem decodeFollowsTheOpcodeTable : Obligations.DecodeFollowsTheOpcodeTable :=
  ⟨fun w => (decodeCmd_answersByRow w).1, fun w => (decodeCmd_answersByRow w).2, find?_messageRows⟩

end Sys2Proof.Machine
end

