-- ==== Sys2Proof/Proofs/Messages.lean ====
section
/-! The class of a message by its three bytes, and what its dispatch does (R114, R115, R252). The idea: the fields the
decoder reads of a message are fields of its bytes, so each class is a range of the bytes. -/

namespace Sys2Proof.Machine

/-! ## The fields of a message are fields of its bytes -/

theorem bits_msgWord_status (st d1 d2 : BitVec 8) (lo len : Nat) :
    bits (msgWord st d1 d2) (16 + lo) len = bits st lo len := by
  refine BitVec.eq_of_getLsbD_eq fun i _ => ?_
  simp only [bits, msgWord, BitVec.getLsbD_extractLsb', BitVec.getLsbD_append]
  simp [show ¬16 + lo + i < 8 by omega, show ¬16 + lo + i - 8 < 8 by omega,
    show 16 + lo + i - 8 - 8 = lo + i by omega]

theorem bits_msgWord_data1 (st d1 d2 : BitVec 8) {lo len : Nat} (h : lo + len ≤ 8) :
    bits (msgWord st d1 d2) (8 + lo) len = bits d1 lo len := by
  refine BitVec.eq_of_getLsbD_eq fun i _ => ?_
  simp only [bits, msgWord, BitVec.getLsbD_extractLsb', BitVec.getLsbD_append]
  by_cases hi : i < len
  · simp [show ¬8 + lo + i < 8 by omega, show 8 + lo + i - 8 = lo + i by omega, show lo + i < 8 by omega]
  · simp [hi]

theorem bits_msgWord_data2 (st d1 d2 : BitVec 8) {lo len : Nat} (h : lo + len ≤ 8) :
    bits (msgWord st d1 d2) lo len = bits d2 lo len := by
  refine BitVec.eq_of_getLsbD_eq fun i _ => ?_
  simp only [bits, msgWord, BitVec.getLsbD_extractLsb', BitVec.getLsbD_append]
  by_cases hi : i < len
  · simp [show lo + i < 8 by omega]
  · simp [hi]

/-- R114 by bytes: the decoder with each field read from its byte. -/
theorem decodeMsg_msgWord (st d1 d2 : BitVec 8) :
    decodeMsg (msgWord st d1 d2) =
      if bits st 7 1 = 0#1 then .notStatus (bits st 0 7) d1 d2
      else if bits st 5 3 = 4#3 ∧ bits d1 7 1 = 1#1 then .noteMalformedD1 (bits st 0 5) (bits d1 0 7) d2
      else if bits st 5 3 = 4#3 ∧ bits d2 7 1 = 1#1 then
        .noteMalformedD2 (bits st 0 5) (bits d1 0 7) (bits d2 0 7)
      else if bits st 4 4 = 8#4 then .noteOff (bits st 0 4) (bits d1 0 7) (bits d2 0 7)
      else if bits st 4 4 = 9#4 ∧ bits d2 0 7 = 0#7 then .noteOnZero (bits st 0 4) (bits d1 0 7)
      else if bits st 4 4 = 9#4 then .noteOn (bits st 0 4) (bits d1 0 7) (bits d2 0 7)
      else if bits st 4 4 = 14#4 then .pitchWheel (bits st 0 4) d1 d2
      else if bits st 5 3 = 5#3 then .otherAB (bits st 0 5) d1 d2
      else if bits st 5 3 = 6#3 then .otherCD (bits st 0 5) d1 d2
      else .otherF (bits st 0 4) d1 d2 := by
  have status := bits_msgWord_status st d1 d2
  have data1 {lo len : Nat} := @bits_msgWord_data1 st d1 d2 lo len
  have data2 {lo len : Nat} := @bits_msgWord_data2 st d1 d2 lo len
  simp only [decodeMsg, status 7 1, status 5 3, status 4 4, status 0 4, status 0 5, status 0 7,
    data1 (lo := 7) (len := 1) (by decide), data1 (lo := 0) (len := 7) (by decide),
    data1 (lo := 0) (len := 8) (by decide), data2 (lo := 7) (len := 1) (by decide),
    data2 (lo := 0) (len := 7) (by decide), data2 (lo := 0) (len := 8) (by decide), bits_zero_self]

/-- R114 by ranges: the rows of the table as its text gives them. -/
theorem decodeMsg_byRange (st d1 d2 : BitVec 8) :
    decodeMsg (msgWord st d1 d2) =
      if st.toNat < 0x80 then .notStatus (bits st 0 7) d1 d2
      else if st.toNat < 0xA0 ∧ 0x80 ≤ d1.toNat then .noteMalformedD1 (bits st 0 5) (bits d1 0 7) d2
      else if st.toNat < 0xA0 ∧ 0x80 ≤ d2.toNat then
        .noteMalformedD2 (bits st 0 5) (bits d1 0 7) (bits d2 0 7)
      else if st.toNat < 0x90 then .noteOff (bits st 0 4) (bits d1 0 7) (bits d2 0 7)
      else if st.toNat < 0xA0 ∧ d2.toNat = 0 then .noteOnZero (bits st 0 4) (bits d1 0 7)
      else if st.toNat < 0xA0 then .noteOn (bits st 0 4) (bits d1 0 7) (bits d2 0 7)
      else if 0xE0 ≤ st.toNat ∧ st.toNat < 0xF0 then .pitchWheel (bits st 0 4) d1 d2
      else if st.toNat < 0xC0 then .otherAB (bits st 0 5) d1 d2
      else if st.toNat < 0xE0 then .otherCD (bits st 0 5) d1 d2
      else .otherF (bits st 0 4) d1 d2 := by
  have hst := st.isLt
  have hd1 := d1.isLt
  have hd2 := d2.isLt
  rw [decodeMsg_msgWord]
  simp only [bits_eq_iff]
  iterate 9 refine if_ctx_congr (by simp; omega) (fun _ => rfl) fun _ => ?_
  rfl

/-- Settles O15: each clause is one row, or the rows of one mnemonic, of `decodeMsg_byRange`. -/
theorem messageClassesOfR114 : Obligations.MessageClassesOfR114 := by
  intro st d1 d2 s
  dsimp only
  rw [decodeMsg_byRange]
  refine ⟨fun h => ?notStatus, fun hlo hhi hbad => ?malformed, fun hlo hhi hwell => ?noteOff,
    fun hlo hhi hwell hzero => ?noteOnZero, fun hlo hhi hwell hpos => ?noteOn, fun hlo hhi => ?pitchWheel,
    fun h => ?other⟩
  case notStatus =>
    rw [if_pos h]
    exact ⟨rfl, rfl⟩
  case malformed =>
    rw [if_neg (by omega)]
    by_cases hd1 : 0x80 ≤ d1.toNat
    · rw [if_pos ⟨hhi, hd1⟩]
      exact ⟨rfl, rfl⟩
    · rw [if_neg (by omega), if_pos (by omega)]
      exact ⟨rfl, rfl⟩
  case noteOff =>
    iterate 3 rw [if_neg (by omega)]
    rw [if_pos hhi]
    exact ⟨rfl, rfl⟩
  case noteOnZero =>
    iterate 4 rw [if_neg (by omega)]
    rw [if_pos ⟨hhi, hzero⟩]
    exact ⟨rfl, rfl⟩
  case noteOn =>
    iterate 5 rw [if_neg (by omega)]
    rw [if_pos hhi]
    exact ⟨rfl, rfl⟩
  case pitchWheel =>
    iterate 6 rw [if_neg (by omega)]
    rw [if_pos ⟨hlo, hhi⟩]
    exact ⟨rfl, rfl⟩
  case other =>
    iterate 7 rw [if_neg (by omega)]
    split_ifs <;> exact ⟨rfl, rfl⟩

end Sys2Proof.Machine
end

