-- ==== Sys2Proof/Proofs/Channels.lean ====
section
/-! That the channel of a queued message has no effect (R115). The idea: a dispatch reads the high nibble of the status
byte and the two data bytes alone, and nothing else in PROCESS reads more of a queue than its offsets and its length;
so two states that differ in channels only stay two such states through every operation of a block. -/

namespace Sys2Proof.Machine

/-! ## Messages that differ in the channel only -/

/-- Two entries with the same class nibble, data bytes and offset. -/
def SameButChannel (a b : Entry) : Prop :=
  bits a.st 4 4 = bits b.st 4 4 ∧ a.d1 = b.d1 ∧ a.d2 = b.d2 ∧ a.ofs = b.ofs

theorem bits_bits {k : Nat} (w : BitVec k) {lo n lo' m : Nat} (h : lo' + m ≤ n) :
    bits (bits w lo n) lo' m = bits w (lo + lo') m := by
  refine BitVec.eq_of_getLsbD_eq fun i hi => ?_
  simp only [bits, BitVec.getLsbD_extractLsb']
  simp [hi, show lo' + i < n by omega, Nat.add_assoc]

/-- Two messages of one class that agree in what R252 reads of them: the note and the velocity. -/
inductive SameMessage : Instr → Instr → Prop
  | notStatus (st st' d1 d2) : SameMessage (.notStatus st d1 d2) (.notStatus st' d1 d2)
  | noteMalformedD1 (st st' d1 d2) : SameMessage (.noteMalformedD1 st d1 d2) (.noteMalformedD1 st' d1 d2)
  | noteMalformedD2 (st st' d1 d2) : SameMessage (.noteMalformedD2 st d1 d2) (.noteMalformedD2 st' d1 d2)
  | noteOff (c c' n v) : SameMessage (.noteOff c n v) (.noteOff c' n v)
  | noteOnZero (c c' n) : SameMessage (.noteOnZero c n) (.noteOnZero c' n)
  | noteOn (c c' n v) : SameMessage (.noteOn c n v) (.noteOn c' n v)
  | pitchWheel (c c' d1 d2) : SameMessage (.pitchWheel c d1 d2) (.pitchWheel c' d1 d2)
  | otherAB (st st' d1 d2) : SameMessage (.otherAB st d1 d2) (.otherAB st' d1 d2)
  | otherCD (st st' d1 d2) : SameMessage (.otherCD st d1 d2) (.otherCD st' d1 d2)
  | otherF (st st' d1 d2) : SameMessage (.otherF st d1 d2) (.otherF st' d1 d2)

/-- Two decoders with one test answer alike when both branches do. -/
theorem SameMessage.ite {c : Prop} [Decidable c] {i i' j j' : Instr} (hi : SameMessage i i') (hj : SameMessage j j') :
    SameMessage (if c then i else j) (if c then i' else j') := by
  by_cases h : c
  · rwa [if_pos h, if_pos h]
  · rwa [if_neg h, if_neg h]

/-- The class of a message is read from its class nibble and its data bytes (R114). -/
theorem SameButChannel.sameMessage {a b : Entry} (h : SameButChannel a b) :
    SameMessage (decodeMsg (msgWord a.st a.d1 a.d2)) (decodeMsg (msgWord b.st b.d1 b.d2)) := by
  obtain ⟨hst, hd1, hd2, -⟩ := h
  have top (lo len : Nat) (hl : lo + len ≤ 4) : bits a.st (4 + lo) len = bits b.st (4 + lo) len := by
    rw [← bits_bits _ hl, ← bits_bits _ hl, hst]
  rw [decodeMsg_msgWord, decodeMsg_msgWord, hst, hd1, hd2, top 3 1 (by decide), top 1 3 (by decide)]
  exact .ite (.notStatus ..) <| .ite (.noteMalformedD1 ..) <| .ite (.noteMalformedD2 ..) <| .ite (.noteOff ..) <|
    .ite (.noteOnZero ..) <| .ite (.noteOn ..) <| .ite (.pitchWheel ..) <| .ite (.otherAB ..) <|
    .ite (.otherCD ..) (.otherF ..)

/-- R115: the dispatch does not read the channel. -/
theorem SameButChannel.dispatch_eq {a b : Entry} (h : SameButChannel a b) (s : State) :
    s.dispatch a = s.dispatch b := by
  have hmsg := h.sameMessage
  unfold State.dispatch
  generalize decodeMsg (msgWord a.st a.d1 a.d2) = i, decodeMsg (msgWord b.st b.d1 b.d2) = j at hmsg
  cases hmsg <;> rfl

/-! ## Queues that differ in channels only -/

theorem SameButChannel.refl (e : Entry) : SameButChannel e e := ⟨rfl, rfl, rfl, rfl⟩

theorem SameButChannel.earlier {a b : Entry} (h : SameButChannel a b) (n : Nat) :
    SameButChannel (a.earlier n) (b.earlier n) := by
  obtain ⟨hst, hd1, hd2, hofs⟩ := h
  exact ⟨hst, hd1, hd2, by rw [Entry.earlier, Entry.earlier, hofs]⟩

theorem countP_ofs_eq {q q' : List Entry} (h : List.Forall₂ SameButChannel q q') (b : Nat) :
    q.countP (fun x => decide (x.ofs.toNat ≤ b)) = q'.countP (fun x => decide (x.ofs.toNat ≤ b)) := by
  induction h with
  | nil => rfl
  | cons hab _ ih => rw [List.countP_cons, List.countP_cons, ih, hab.2.2.2]

theorem qInsert_sameButChannel {q q' : List Entry} (h : List.Forall₂ SameButChannel q q') (e : Entry) :
    List.Forall₂ SameButChannel (qInsert e q) (qInsert e q') := by
  unfold qInsert
  rw [countP_ofs_eq h]
  exact List.rel_append (List.forall₂_take _ h) (.cons (.refl e) (List.forall₂_drop _ h))

theorem flushed_sameButChannel {q q' : List Entry} (h : List.Forall₂ SameButChannel q q') (n : Nat) :
    List.Forall₂ SameButChannel (flushed n q) (flushed n q') := by
  refine List.rel_map (fun _ _ hab => hab.earlier n) (List.rel_filter (fun a b hab => ?_) h)
  simp [hab.2.2.2]

/-! ## States that differ in channels only -/

/-- The bridge by cases (R251). -/
theorem State.bridge_of_same {s : State} (h : s.curKey = s.lastKey) : s.bridge = s := if_pos h

theorem State.bridge_of_change {s : State} (h : ¬s.curKey = s.lastKey) :
    s.bridge = ((s.addForKey bridgeOff s.lastKey).addForKey (bridgeOn s.cfg.bridgeVel) s.curKey).setLastKey
      s.curKey := if_neg h

/-- `t` is `s` with a queue that differs in channels only. -/
def ChannelTwin (s t : State) : Prop := ∃ q, t = s.setQueue q ∧ List.Forall₂ SameButChannel s.queue q

namespace ChannelTwin

theorem setQueue {s t : State} (h : ChannelTwin s t) {q q' : List Entry}
    (hq : List.Forall₂ SameButChannel q q') : ChannelTwin (s.setQueue q) (t.setQueue q') := by
  obtain ⟨_, rfl, -⟩ := h
  exact ⟨q', rfl, hq⟩

/-- An operation that neither reads nor writes the queue. -/
theorem map {s t : State} (h : ChannelTwin s t) {f : State → State}
    (hf : ∀ u q, f (u.setQueue q) = (f u).setQueue q) (hq : (f s).queue = s.queue) : ChannelTwin (f s) (f t) := by
  obtain ⟨q, rfl, hs⟩ := h
  exact ⟨q, hf s q, hq ▸ hs⟩

theorem dispatch {s t : State} (h : ChannelTwin s t) {a b : Entry} (hab : SameButChannel a b) :
    ChannelTwin (s.dispatch a) (t.dispatch b) := by
  rw [hab.dispatch_eq]
  exact h.map (f := (State.dispatch b ·)) (fun u q => State.dispatch_setQueue q b u) (by rw [State.dispatch_eq]; rfl)

theorem qAdd {s t : State} (h : ChannelTwin s t) (e : Entry) : ChannelTwin (s.qAdd e) (t.qAdd e) := by
  obtain ⟨q, rfl, hq⟩ := h
  rcases State.qAdd_eq e s with ⟨hs, hr⟩ | ⟨hs, hr⟩
  · rw [hs, State.qAdd_room (by rwa [State.setQueue_queue, ← hq.length_eq])]
    exact ⟨_, rfl, qInsert_sameButChannel hq e⟩
  · rw [hs, State.qAdd_full (by rwa [State.setQueue_queue, ← hq.length_eq])]
    exact ⟨q, rfl, hq⟩

theorem addForKey {s t : State} (h : ChannelTwin s t) (make : Note → Entry) (k : Key) :
    ChannelTwin (s.addForKey make k) (t.addForKey make k) := by
  cases k with
  | none => exact h
  | some n => exact h.qAdd (make n)

theorem bridge {s t : State} (h : ChannelTwin s t) : ChannelTwin s.bridge t.bridge := by
  have hadd := (h.addForKey bridgeOff s.lastKey).addForKey (bridgeOn s.cfg.bridgeVel) s.curKey
  obtain ⟨q, rfl, hq⟩ := h
  by_cases hk : s.curKey = s.lastKey
  · rw [State.bridge_of_same hk, State.bridge_of_same (s := s.setQueue q) hk]
    exact ⟨q, rfl, hq⟩
  · rw [State.bridge_of_change hk, State.bridge_of_change (s := s.setQueue q) hk]
    exact hadd.map (f := State.setLastKey s.curKey) (fun _ _ => rfl) rfl

theorem dispatchLoop {q q' : List Entry} (hq : List.Forall₂ SameButChannel q q') (n : Nat) {s t : State}
    (h : ChannelTwin s t) : ChannelTwin (dispatchLoop n q s) (dispatchLoop n q' t) := by
  induction hq generalizing s t with
  | nil => exact h.setQueue .nil
  | @cons a b q q' hab hq ih =>
    unfold Machine.dispatchLoop
    rw [← hab.2.2.2]
    split_ifs
    · exact ih ((h.setQueue hq).dispatch hab)
    · exact h.setQueue (.cons hab hq)

theorem renderFrame {s t : State} (h : ChannelTwin s t) (n : Nat) :
    ChannelTwin (s.renderFrame n) (t.renderFrame n) := by
  have hdue : ChannelTwin (s.dispatchDue n) (t.dispatchDue n) := by
    obtain ⟨q, rfl, hq⟩ := h
    exact dispatchLoop hq n ⟨q, rfl, hq⟩
  exact hdue.map (f := State.soundFrame) (fun _ _ => rfl) rfl

theorem renderLoop {s t : State} (h : ChannelTwin s t) (k n : Nat) :
    ChannelTwin (renderLoop k n s) (renderLoop k n t) := by
  induction k generalizing n s t with
  | zero => exact h
  | succ k ih => exact ih (h.renderFrame n) (n + 1)

theorem qFlush {s t : State} (h : ChannelTwin s t) (n : Nat) : ChannelTwin (s.qFlush n) (t.qFlush n) := by
  obtain ⟨q, rfl, hq⟩ := h
  exact ⟨flushed n q, rfl, flushed_sameButChannel hq n⟩

/-- Whether the fast path is taken depends on the voices and on the queue's length (R258). -/
theorem silent_iff {s t : State} (h : ChannelTwin s t) :
    (t.activeCount = 0 ∧ t.qEmpty) ↔ (s.activeCount = 0 ∧ s.qEmpty) := by
  obtain ⟨q, rfl, hq⟩ := h
  have hlen := hq.length_eq
  simp only [State.qEmpty, List.isEmpty_iff_length_eq_zero, hlen]
  rfl

theorem render {s t : State} (h : ChannelTwin s t) (n : Nat) : ChannelTwin (s.render n) (t.render n) := by
  simp only [State.render, h.bridge.silent_iff]
  split_ifs
  · exact h.bridge.map (f := State.emit _) (fun _ _ => rfl) rfl
  · exact (h.bridge.renderLoop n 0).qFlush n

end ChannelTwin

/-- Settles O53: the state with the other queue is a twin, and a block makes twins of twins. -/
theorem channelsDoNotMatter : Obligations.ChannelsDoNotMatter := by
  intro n s q same hq
  have htwin : ChannelTwin s (s.setQueue q) := ⟨q, rfl, hq⟩
  obtain ⟨q', hu, hq'⟩ := htwin.render n.toNat
  refine ⟨s.render n.toNat, (s.setQueue q).render n.toNat, rfl, rfl, ?_, ?_⟩ <;> rw [hu]
  · exact hq'
  · rfl

end Sys2Proof.Machine
end

