-- ==== Sys2Proof/Proofs/Assembly.lean ====
section
/-! That a statement assembles to the word of R116's table or is refused, and that a pseudo-instruction is the statement
it expands to (R117). The idea: one equation per statement, which gives its word as a number when its operands are in
range and nothing otherwise; the decoder's round trip says that the word is accepted. -/

namespace Sys2Proof.Machine

/-! ## A statement and its word -/

/-- The statement assembles to the word `n` when `ok` holds, and is refused otherwise. -/
def Gives (c : CoreLine) (ok : Prop) (n : Nat) : Prop :=
  (ok → assemble (.core c) = some (BitVec.ofNat 64 n)) ∧ (¬ok → assemble (.core c) = none)

/-- A statement whose fields make the word `v`, the number `n`, when its operands fit: it is refused when they do not,
and when R112 rejects `v`. -/
theorem gives_of_word {c : CoreLine} {fits ok : Prop} {v : CmdWord} {n : Nat}
    (hword : ∀ w, coreWord c = some w ↔ fits ∧ v = w) (hok : ok ↔ fits ∧ ∃ i, decodeCmd v = .ok i)
    (hnum : fits → v.toNat = n) : Gives c ok n := by
  have hsome (w : CmdWord) : assemble (.core c) = some w ↔ ok ∧ v = w := by
    refine assembleCore_eq_some.trans ⟨?_, ?_⟩
    · rintro ⟨hw, hi⟩
      obtain ⟨hf, rfl⟩ := (hword w).1 hw
      exact ⟨hok.2 ⟨hf, hi⟩, rfl⟩
    · rintro ⟨h, rfl⟩
      obtain ⟨hf, hi⟩ := hok.1 h
      exact ⟨(hword v).2 ⟨hf, rfl⟩, hi⟩
  refine ⟨fun h => (hsome _).2 ⟨h, ?_⟩, fun h => Option.eq_none_iff_forall_ne_some.2 fun w hw => ?_⟩
  · rw [← hnum (hok.1 h).1, BitVec.ofNat_toNat, BitVec.setWidth_eq]
  · exact h ((hsome w).1 hw).1

/-- In a format without illegal fields every word of operands that fit is accepted. -/
theorem gives_of_accepted {c : CoreLine} {fits : Prop} {v : CmdWord} {i : Instr} {n : Nat}
    (hword : ∀ w, coreWord c = some w ↔ fits ∧ v = w) (hi : decodeCmd v = .ok i) (hnum : fits → v.toNat = n) :
    Gives c fits n :=
  gives_of_word hword (by simp [hi]) hnum

theorem fieldOf_bind_eq_some {α : Type} {len n : Nat} {f : BitVec len → Option α} {x : α} :
    (fieldOf len n).bind f = some x ↔ n < 2 ^ len ∧ f (BitVec.ofNat len n) = some x := by
  by_cases h : n < 2 ^ len
  · simp [fieldOf_of_lt h, h]
  · simp [fieldOf_of_ge h, h]

/-! ## The formats without illegal fields -/

theorem gives_reset (sr bs : Nat) :
    Gives (.reset sr bs) (sr < 2 ^ 24 ∧ bs < 2 ^ 16) (1 * 2 ^ 56 + bs * 2 ^ 32 + sr) := by
  refine gives_of_accepted (fun w => ?_) (decodeCmd_reset (BitVec.ofNat 16 bs) (BitVec.ofNat 24 sr)) fun h => ?_
  · simp [coreWord, fieldOf_bind_eq_some]; tauto
  · simp only [append_toNat, BitVec.toNat_ofNat]; omega

theorem gives_param (p : ParamId) (a : Nat) :
    Gives (.param p a) (a < 2 ^ 32) (2 * 2 ^ 56 + (pidOf p).toNat * 2 ^ 32 + a) := by
  refine gives_of_accepted (fun w => ?_) (decodeCmd_param p (BitVec.ofNat 32 a)) fun h => ?_
  · simp [coreWord, fieldOf_bind_eq_some]
  · simp only [append_toNat, BitVec.toNat_ofNat]; omega

theorem gives_midi (st d1 d2 ofs : Nat) :
    Gives (.midi st d1 d2 ofs) (st < 2 ^ 8 ∧ d1 < 2 ^ 8 ∧ d2 < 2 ^ 8 ∧ ofs < 2 ^ 16)
      (3 * 2 ^ 56 + ofs * 2 ^ 32 + st * 2 ^ 16 + d1 * 2 ^ 8 + d2) := by
  refine gives_of_accepted (fun w => ?_)
    (decodeCmd_midi (BitVec.ofNat 16 ofs) (BitVec.ofNat 8 st) (BitVec.ofNat 8 d1) (BitVec.ofNat 8 d2)) fun h => ?_
  · simp [coreWord, fieldOf_bind_eq_some]; tauto
  · simp only [append_toNat, BitVec.toNat_ofNat]; omega

theorem gives_process (n : Nat) : Gives (.process n) (n < 2 ^ 16) (4 * 2 ^ 56 + n) := by
  refine gives_of_accepted (fun w => ?_) (decodeCmd_process (BitVec.ofNat 16 n)) fun h => ?_
  · simp [coreWord, fieldOf_bind_eq_some]
  · simp only [append_toNat, BitVec.toNat_ofNat]; omega

theorem gives_qactive : Gives .qactive True (6 * 2 ^ 56) :=
  gives_of_accepted (fun w => by simp [coreWord]) decodeCmd_qactive fun _ => rfl

theorem gives_qkey (k : Nat) : Gives (.qkey k) (k < 0x80) (7 * 2 ^ 56 + k) := by
  refine gives_of_accepted (fun w => ?_) (decodeCmd_qkey (BitVec.ofNat 7 k)) fun h => ?_
  · simp [coreWord, fieldOf_bind_eq_some]
  · simp only [append_toNat, BitVec.toNat_ofNat]; omega

theorem gives_rdreg (r : Nat) : Gives (.rdreg r) (r < 2 ^ 24) (8 * 2 ^ 56 + r) := by
  refine gives_of_accepted (fun w => ?_) (decodeCmd_rdreg (BitVec.ofNat 24 r)) fun h => ?_
  · simp [coreWord, fieldOf_bind_eq_some]
  · simp only [append_toNat, BitVec.toNat_ofNat]; omega

/-! ## SETKEY and CLRSTAT -/

/-- A KEY byte is accepted when it holds a key (R33, R106). -/
theorem decodeCmd_setkey_isOk_iff (b : BitVec 8) :
    (∃ i, decodeCmd (0x05#8 ++ 0#48 ++ b) = .ok i) ↔ b.toNat < 0x80 ∨ b.toNat = 0xFF := by
  have hb := b.isLt
  cases hk : keyOf b with
  | none =>
    have hrange := (keyOf_eq_none b).1 hk
    have he : decodeCmd (0x05#8 ++ 0#48 ++ b) = .error .illegalField := by
      rw [decodeCmd_eq_illegalField, decodeSetkey_eq_illegalField]
      simp only [bits_toNat, append_toNat]
      simp; omega
    rw [he]
    exact iff_of_false nofun (by omega)
  | some key =>
    have hrange : ¬(0x80 ≤ b.toNat ∧ b.toNat ≤ 0xFE) := fun h => nomatch hk.symm.trans ((keyOf_eq_none b).2 h)
    rw [← keyOf_eq_some hk, decodeCmd_setkey, keyOf_eq_some hk]
    exact iff_of_true ⟨_, rfl⟩ (by omega)

/-- A mask is accepted when its bits 6:5 are clear (R111). -/
theorem decodeCmd_clrstat_isOk_iff (b : BitVec 8) :
    (∃ i, decodeCmd (0x09#8 ++ 0#48 ++ b) = .ok i) ↔ b.toNat / 2 ^ 5 % 4 = 0 := by
  have hb := b.isLt
  have hw : (0x09#8 ++ 0#48 ++ b).toNat = 9 * 2 ^ 56 + b.toNat := by simp only [append_toNat]; simp
  obtain ⟨-, -, -, -, -, -, -, -, hclrstat, -⟩ := decodeCmd_of_opc (0x09#8 ++ 0#48 ++ b)
  rw [hclrstat (by rw [bits_toNat, hw]; omega)]
  simp only [decodeClrstat, ite_eq_ok_iff, bits_eq_iff, hw]
  simp; omega

theorem gives_setkey (k : Nat) : Gives (.setkey k) (k < 0x80 ∨ k = 0xFF) (5 * 2 ^ 56 + k) := by
  refine gives_of_word (fits := k < 2 ^ 8) (v := 0x05#8 ++ 0#48 ++ BitVec.ofNat 8 k) (fun w => ?_) ?_ fun h => ?_
  · simp [coreWord, fieldOf_bind_eq_some]
  · rw [decodeCmd_setkey_isOk_iff, BitVec.toNat_ofNat]; omega
  · simp only [append_toNat, BitVec.toNat_ofNat]; omega

theorem gives_clrstat (m : Nat) : Gives (.clrstat m) (m < 2 ^ 8 ∧ m / 2 ^ 5 % 4 = 0) (9 * 2 ^ 56 + m) := by
  refine gives_of_word (fits := m < 2 ^ 8) (v := 0x09#8 ++ 0#48 ++ BitVec.ofNat 8 m) (fun w => ?_) ?_ fun h => ?_
  · simp [coreWord, fieldOf_bind_eq_some]
  · rw [decodeCmd_clrstat_isOk_iff, BitVec.toNat_ofNat]; omega
  · simp only [append_toNat, BitVec.toNat_ofNat]; omega

/-! ## Lines -/

/-- Every line but `.word64` is a statement or stands for one, and R112 accepts a statement's word (R116). -/
theorem decodeCmd_of_assemble {a : AsmLine} {w : CmdWord} (h : assemble a = some w) (hraw : ∀ n, a ≠ .word64 n) :
    ∃ i, decodeCmd w = .ok i := by
  have hbind : (expand a).bind assembleCore = some w := by
    cases a with
    | word64 n => exact absurd rfl (hraw n)
    | _ => exact h
  obtain ⟨c, -, hc⟩ := Option.bind_eq_some_iff.1 hbind
  exact (assembleCore_eq_some.1 hc).2

theorem assemble_word64 (w : CmdWord) : assemble (.word64 w.toNat) = some w :=
  (fieldOf_of_lt w.isLt).trans (by rw [BitVec.ofNat_toNat, BitVec.setWidth_eq])

/-- Settles O57: one lemma per statement, and a pseudo-instruction expands by definition. -/
theorem assemblerMakesAcceptedWords : Obligations.AssemblerMakesAcceptedWords := by
  refine ⟨?_, fun a w => decodeCmd_of_assemble, assemble_word64,
    fun k v o => ⟨rfl, rfl, rfl, rfl, rfl, rfl, rfl, rfl, rfl⟩⟩
  intro gives a b c o
  exact ⟨gives_reset a b, gives_param .attack a, gives_param .decay a, gives_param .sustain a,
    gives_param .release a, gives_midi a b c o, gives_process a, gives_setkey a, gives_qactive, gives_qkey a,
    gives_rdreg a, gives_clrstat a⟩

end Sys2Proof.Machine
end

