-- ==== Sys2Proof/Proofs/Oscillator.lean ====
section
/-! The wavetable oscillator (spec/40_oscillator.md). The idea for the pitch increment: the two tests of the model's
search are comparisons of `m` with twice the real increment, because twelfth powers keep the order of non-negative
numbers; so the search finds the floor of the doubled increment, and its parity decides the rounding. -/

namespace Sys2Proof.Machine

/-! ## The pitch increment -/

/-- The real number that R140 rounds. -/
noncomputable def realInc (n sr : Nat) : ℝ := 2 ^ 32 * (440 * (2 : ℝ) ^ (((n : ℝ) - 69) / 12)) / sr

/-- `m` is `x` rounded to nearest, ties to even (R12). -/
def RoundsToEven (x : ℝ) (m : Nat) : Prop := |x - m| ≤ 1 / 2 ∧ (|x - m| = 1 / 2 → m % 2 = 0)

theorem RoundsToEven.of_lt {x : ℝ} {m : Nat} (h : 2 * m - 1 < 2 * x) (h' : 2 * x < 2 * m + 1) :
    RoundsToEven x m := by
  have hlt : |x - m| < 1 / 2 := abs_sub_lt_iff.2 ⟨by linarith, by linarith⟩
  exact ⟨hlt.le, fun he => absurd he hlt.ne⟩

theorem RoundsToEven.of_even {x : ℝ} {m : Nat} (h : 2 * m - 1 ≤ 2 * x) (h' : 2 * x ≤ 2 * m + 1) (hm : m % 2 = 0) :
    RoundsToEven x m :=
  ⟨abs_sub_le_iff.2 ⟨by linarith, by linarith⟩, fun _ => hm⟩

theorem realInc_nonneg (n sr : Nat) : 0 ≤ realInc n sr := by
  unfold realInc
  positivity

/-- The twelfth power of a semitone ratio is a power of two: the root of R140 is gone. -/
theorem semitone_pow_twelve (n : Nat) : ((2 : ℝ) ^ (((n : ℝ) - 69) / 12)) ^ 12 * 2 ^ 69 = 2 ^ n := by
  rw [← Real.rpow_mul_natCast (by norm_num), Nat.cast_ofNat, div_mul_cancel₀ _ (by norm_num),
    ← Real.rpow_natCast 2 69, ← Real.rpow_add (by norm_num), Nat.cast_ofNat, sub_add_cancel, Real.rpow_natCast]

/-- The right-hand side of both tests of the search, in terms of the doubled increment. -/
theorem two_mul_realInc_pow_twelve (n : Nat) {sr : Nat} (hs : sr ≠ 0) :
    (2 * realInc n sr * sr) ^ 12 * 2 ^ 69 = (2 ^ 33 * 440) ^ 12 * 2 ^ n := by
  have hsr : (sr : ℝ) ≠ 0 := Nat.cast_ne_zero.2 hs
  have hcancel : 2 * realInc n sr * sr = 2 ^ 33 * 440 * (2 : ℝ) ^ (((n : ℝ) - 69) / 12) := by
    rw [realInc, mul_assoc, div_mul_cancel₀ _ hsr]
    ring
  rw [hcancel, mul_pow, mul_assoc, semitone_pow_twelve]

theorem atMostTwice_iff {n sr : Nat} (hs : sr ≠ 0) (m : Nat) :
    atMostTwice n sr m = true ↔ (m : ℝ) ≤ 2 * realInc n sr := by
  have hx := realInc_nonneg n sr
  have hsr : (0 : ℝ) < sr := by positivity
  calc atMostTwice n sr m = true
      ↔ ((m : ℝ) * sr) ^ 12 * 2 ^ 69 ≤ (2 * realInc n sr * sr) ^ 12 * 2 ^ 69 := by
        rw [two_mul_realInc_pow_twelve n hs, atMostTwice, decide_eq_true_iff]
        exact_mod_cast Iff.rfl
    _ ↔ (m : ℝ) * sr ≤ 2 * realInc n sr * sr := by
        rw [mul_le_mul_iff_left₀ (by positivity), pow_le_pow_iff_left₀ (by positivity) (by positivity) (by decide)]
    _ ↔ (m : ℝ) ≤ 2 * realInc n sr := mul_le_mul_iff_left₀ hsr

theorem isTwice_iff {n sr : Nat} (hs : sr ≠ 0) (m : Nat) :
    isTwice n sr m = true ↔ (m : ℝ) = 2 * realInc n sr := by
  have hx := realInc_nonneg n sr
  have hsr : (sr : ℝ) ≠ 0 := Nat.cast_ne_zero.2 hs
  calc isTwice n sr m = true
      ↔ ((m : ℝ) * sr) ^ 12 * 2 ^ 69 = (2 * realInc n sr * sr) ^ 12 * 2 ^ 69 := by
        rw [two_mul_realInc_pow_twelve n hs, isTwice, decide_eq_true_iff]
        exact_mod_cast Iff.rfl
    _ ↔ (m : ℝ) * sr = 2 * realInc n sr * sr := by
        rw [mul_left_inj' (by positivity), pow_left_inj₀ (by positivity) (by positivity) (by decide)]
    _ ↔ (m : ℝ) = 2 * realInc n sr := mul_left_inj' hsr

/-- `pitchRne` rounds as R12 says: an even floor of the doubled increment is below a half step, an odd one at or above
it, and `isTwice` tells a tie from the rest. -/
theorem pitchRne_roundsToEven {n sr : Nat} (hn : n < 128) (hs : sr ≠ 0) :
    RoundsToEven (realInc n sr) (pitchRne n sr) := by
  obtain ⟨hle, hgt⟩ := floorTwice_spec hn hs
  rw [atMostTwice_iff hs] at hle
  rw [Bool.eq_false_iff, ne_eq, atMostTwice_iff hs, not_le, Nat.cast_succ] at hgt
  have htie := isTwice_iff (n := n) hs (floorTwice n sr)
  unfold pitchRne
  generalize floorTwice n sr = f at *
  generalize realInc n sr = x at *
  obtain ⟨q, rfl | rfl⟩ := f.even_or_odd'
  · rw [if_pos (by omega), Nat.mul_div_cancel_left q (by decide)]
    push_cast at hle hgt
    exact .of_lt (by linarith) (by linarith)
  · rw [if_neg (by omega), show (2 * q + 1) / 2 = q by omega]
    push_cast at hle hgt htie
    cases hc : isTwice n sr (2 * q + 1) with
    | true =>
      have hx := htie.1 hc
      rcases Nat.mod_two_eq_zero_or_one q with hq | hq
      · rw [if_pos (by simp [hq])]
        exact .of_even (by linarith) (by linarith) hq
      · rw [if_neg (by simp [hq])]
        exact .of_even (by push_cast; linarith) (by push_cast; linarith) (by omega)
    | false =>
      have hne : 2 * (q : ℝ) + 1 ≠ 2 * x := fun h => by simp [htie.2 h] at hc
      have hlt := lt_of_le_of_ne hle hne
      rw [if_neg (by simp)]
      exact .of_lt (by push_cast; linarith) (by push_cast; linarith)

/-- Settles O33: the rounded number is `pitchRne`, of which `incOf` keeps the low 32 bits. -/
theorem pitchIncIsTheRoundedRealIncrement : Obligations.PitchIncIsTheRoundedRealIncrement := by
  intro n sr hsr
  exact ⟨pitchRne n.toNat sr.toNat, rfl, pitchRne_roundsToEven n.isLt fun h => hsr (BitVec.eq_of_toNat_eq h)⟩

/-! ## Lookup -/

theorem tableRead_of_listed {c : Config} {i : Nat} {x : BitVec 24} (h : c.table[i]? = some x) :
    tableRead c i = x.toInt := by
  rw [tableRead, h]

theorem oscSample_nearest {c : Config} {phase : BitVec 32} (h : c.lookup = .nearest) :
    oscSample c phase = sampleNearest c phase := by
  rw [oscSample, h]

theorem oscSample_linear {c : Config} {phase : BitVec 32} (h : c.lookup = .linear) :
    oscSample c phase = sampleLinear c phase := by
  rw [oscSample, h]

/-- Settles O34: the indices are in the table by `index_lt`, and an interpolated sample lies between its neighbours. -/
theorem lookupStaysInTheTable : Obligations.LookupStaysInTheTable := by
  intro c phase hW hW' f near j a b
  obtain ⟨hlo, hhi⟩ := oscSample_bounds c phase
  have hlinear (h : c.lookup = .linear) :
      oscSample c phase = a + (b - a) * ((phase.toNat % 2 ^ f : Nat) : Int) / (2 ^ f : Nat) := by
    rw [oscSample_linear h]
    rfl
  refine ⟨index_lt hW hW' (Nat.mod_lt _ (by decide)), index_lt hW hW' phase.isLt, Nat.mod_lt _ (by positivity),
    oscSample_nearest, fun h => ⟨hlinear h, ?_⟩, hlo, hhi, fun i x => tableRead_of_listed⟩
  rw [hlinear h]
  exact interp_bounds a b (Nat.mod_lt _ (by positivity))

/-! ## The phase -/

/-- The idea of R145: addition modulo `2^32` loses nothing, so `k` steps are one step of `k * inc`. -/
theorem oscAdvance_iterate (v : Voice) (k : Nat) :
    oscAdvance^[k] v = { v with phase := v.phase + BitVec.ofNat 32 k * v.inc } := by
  induction k with
  | zero => simp
  | succ k ih =>
    rw [Function.iterate_succ_apply', ih, oscAdvance, BitVec.ofNat_add, BitVec.add_mul, BitVec.one_mul, BitVec.add_assoc]

/-- Settles O35: the closed form of `k` advances, read as a number. -/
theorem phaseNeverDrifts : Obligations.PhaseNeverDrifts := by
  intro v k
  rw [oscAdvance_iterate]
  refine ⟨?_, rfl⟩
  simp [BitVec.toNat_add, BitVec.toNat_mul]

end Sys2Proof.Machine
end

