-- ==== Sys2Proof/Proofs/Envelope.lean ====
section
/-! The envelope generator (spec/41_envelope.md). The idea for the stage lengths: the number of calls of a ramp over
distance `d` in steps of `p` is the least `m` of 1 or more with `d ≤ m * p`, and the three ramps are one induction over
the calls. -/

namespace Sys2Proof.Machine

/-! ## One call -/

/-- `v` with the number `n` as its level: what a ramp writes on every call but the last. It has a name, and its fields
are read by the lemmas below, so that no proof compares two voices field by field: that would evaluate levels modulo
`2^31` step by step. -/
def Voice.atLvl (v : Voice) (n : Nat) : Voice := { v with lvl := levelOf n }

/-- `v` on the last call of a ramp: the level `l` stands, and stage `g` begins. -/
def Voice.enter (v : Voice) (l : Level) (g : Stage) : Voice := { v with lvl := l, stage := g }

@[simp] theorem Voice.enter_lvl (v : Voice) (l : Level) (g : Stage) : (v.enter l g).lvl = l := rfl

@[simp] theorem Voice.enter_stage (v : Voice) (l : Level) (g : Stage) : (v.enter l g).stage = g := rfl

@[simp] theorem Voice.enter_atLvl (v : Voice) (n : Nat) (l : Level) (g : Stage) :
    (v.atLvl n).enter l g = v.enter l g := rfl

@[simp] theorem Voice.atLvl_stage (v : Voice) (n : Nat) : (v.atLvl n).stage = v.stage := rfl

@[simp] theorem Voice.atLvl_atLvl (v : Voice) (m n : Nat) : (v.atLvl m).atLvl n = v.atLvl n := rfl

@[simp] theorem State.releaseDec_atLvl (s : State) (v : Voice) (n : Nat) :
    s.releaseDec (v.atLvl n) = s.releaseDec v := rfl

theorem Voice.atLvl_lvl_toNat (v : Voice) {n : Nat} (h : n < 2 ^ 31) : (v.atLvl n).lvl.toNat = n := by
  rw [Voice.atLvl, levelOf, BitVec.toNat_ofNat, Nat.mod_eq_of_lt h]

theorem Voice.atLvl_toNat_lvl (v : Voice) : v.atLvl v.lvl.toNat = v := by
  rw [Voice.atLvl, levelOf, BitVec.ofNat_toNat, BitVec.setWidth_eq]

theorem envProcess_attack_end {s : State} {v : Voice} (hv : v.stage = .attack)
    (h : ONE ≤ v.lvl.toNat + s.attackInc) :
    envProcess s v = v.enter (levelOf ONE) .decay := by
  rw [envProcess_attack hv, envAttack_end h, Voice.enter]

theorem envProcess_attack_go {s : State} {v : Voice} (hv : v.stage = .attack)
    (h : v.lvl.toNat + s.attackInc < ONE) : envProcess s v = v.atLvl (v.lvl.toNat + s.attackInc) := by
  rw [envProcess_attack hv, envAttack_go h, Voice.atLvl]

theorem envProcess_decay_end {s : State} {v : Voice} (hv : v.stage = .decay)
    (h : v.lvl.toNat ≤ s.sus.toNat + s.decayDec) :
    envProcess s v = v.enter s.sus .sustain := by
  rw [envProcess_decay hv, envDecay_end h, Voice.enter]

theorem envProcess_decay_go {s : State} {v : Voice} (hv : v.stage = .decay)
    (h : s.sus.toNat + s.decayDec < v.lvl.toNat) : envProcess s v = v.atLvl (v.lvl.toNat - s.decayDec) := by
  rw [envProcess_decay hv, envDecay_go h, Voice.atLvl]

theorem envProcess_release_end {s : State} {v : Voice} (hv : v.stage = .release)
    (h : v.lvl.toNat ≤ s.releaseDec v) :
    envProcess s v = v.enter (levelOf 0) .idle := by
  rw [envProcess_release hv, envRelease_end h, Voice.enter]

theorem envProcess_release_go {s : State} {v : Voice} (hv : v.stage = .release)
    (h : s.releaseDec v < v.lvl.toNat) : envProcess s v = v.atLvl (v.lvl.toNat - s.releaseDec v) := by
  rw [envProcess_release hv, envRelease_go h, Voice.atLvl]

/-- Settles O36: the counts and steps written out are those of the model by definition, and each clause is the lemma
of its stage and case. -/
theorem envelopeStepOfEachStage : Obligations.EnvelopeStepOfEachStage := by
  intro s v _ _ count ramp aInc dDec rDec u
  have ha : aInc = s.attackInc := rfl
  have hd : dDec = s.decayDec := rfl
  have hr : rDec = s.releaseDec v := rfl
  have hone : 2 ^ 30 = ONE := rfl
  have hlt := v.lvl.isLt
  rw [ha, hd, hr, hone]
  refine ⟨envProcess_keeps s v, fun hv h => ?_, fun hv h => ?_, fun hv h => ?_, fun hv h => ?_, fun hv => ?_,
    fun hv h => ?_, fun hv h => ?_⟩
  · simp only [u, envProcess_attack_end hv h, Voice.enter_lvl, Voice.enter_stage, levelOf_toNat le_rfl, and_self]
  · simp only [u, envProcess_attack_go hv h]
    exact ⟨v.atLvl_lvl_toNat (h.trans (by decide)), (v.atLvl_stage _).trans hv⟩
  · simp only [u, envProcess_decay_end hv h, Voice.enter_lvl, Voice.enter_stage, and_self]
  · simp only [u, envProcess_decay_go hv h]
    exact ⟨v.atLvl_lvl_toNat ((Nat.sub_le ..).trans_lt hlt), (v.atLvl_stage _).trans hv⟩
  · simp only [u, envProcess_sustain hv, hv, and_self]
  · simp only [u, envProcess_release_end hv h, Voice.enter_lvl, Voice.enter_stage,
      levelOf_toNat (Nat.zero_le ONE), and_self]
  · simp only [u, envProcess_release_go hv h]
    exact ⟨v.atLvl_lvl_toNat ((Nat.sub_le ..).trans_lt hlt), (v.atLvl_stage _).trans hv⟩

/-! ## The number of calls of a ramp -/

/-- `max(1, ceil(d / p))` (R171): the calls of a ramp over distance `d` in steps of `p`. -/
def rampCalls (d p : Nat) : Nat := max 1 ((d + p - 1) / p)

theorem one_le_rampCalls (d p : Nat) : 1 ≤ rampCalls d p := le_max_left ..

theorem rampCalls_le_iff {d p m : Nat} (hp : 1 ≤ p) (hm : 1 ≤ m) : rampCalls d p ≤ m ↔ d ≤ m * p := by
  rw [rampCalls, ← Nat.ceilDiv_eq_add_pred_div, max_le_iff, ceilDiv_le_iff_le_mul hp, mul_comm]
  exact and_iff_right hm

theorem le_rampCalls_mul (d : Nat) {p : Nat} (hp : 1 ≤ p) : d ≤ rampCalls d p * p :=
  (rampCalls_le_iff hp (one_le_rampCalls d p)).1 le_rfl

theorem mul_lt_of_lt_rampCalls {d p j : Nat} (hp : 1 ≤ p) (hj : 1 ≤ j) (h : j < rampCalls d p) : j * p < d :=
  not_le.1 fun hd => h.not_ge ((rampCalls_le_iff hp hj).2 hd)

/-- Without the floor at 1 where the distance is not 0. -/
theorem rampCalls_of_pos {d p : Nat} (hd : 1 ≤ d) (hp : 1 ≤ p) : rampCalls d p = (d + p - 1) / p :=
  max_eq_right ((Nat.one_le_div_iff hp).2 (by omega))

theorem rampStep_zero (d : Nat) : rampStep d 0 = 2 ^ 30 := rfl

theorem rampStep_of_pos (d : Nat) {n : Nat} (hn : 1 ≤ n) : rampStep d n = max 1 (d / n) := if_neg (by omega)

/-- Settles O40: the number of calls is at most `m` just when `m` steps cover the distance, and each clause bounds the
step by `d / n`. -/
theorem rampDurationBounds : Obligations.RampDurationBounds := by
  intro d n hd k
  have hk : k = rampCalls d (rampStep d n) := rfl
  rw [hk]
  have hp := one_le_rampStep d n
  have hstep (hn : 1 ≤ n) (hnd : n ≤ d) : rampStep d n = d / n :=
    (rampStep_of_pos d hn).trans (max_eq_right ((Nat.one_le_div_iff hn).2 hnd))
  refine ⟨fun hn => ?_, fun hn hnd => ?_, fun hn hnd => ?_, fun hdn => ?_⟩
  · refine le_antisymm ((rampCalls_le_iff hp le_rfl).2 ?_) (one_le_rampCalls ..)
    rwa [hn, rampStep_zero, one_mul]
  · have hcover : n * rampStep d n ≤ rampCalls d (rampStep d n) * rampStep d n := calc
      n * rampStep d n = n * (d / n) := by rw [hstep hn hnd]
      _ ≤ d := Nat.mul_div_le d n
      _ ≤ rampCalls d (rampStep d n) * rampStep d n := le_rampCalls_mul d hp
    exact Nat.le_of_mul_le_mul_right hcover hp
  · have hq : n ≤ d / n := (Nat.le_div_iff_mul_le hn).2 (by rwa [← sq])
    have hnd' : n ≤ d := (Nat.le_self_pow two_ne_zero n).trans hnd
    refine (rampCalls_le_iff hp (by omega)).2 ?_
    calc
      d = n * (d / n) + d % n := (Nat.div_add_mod d n).symm
      _ ≤ n * (d / n) + d / n := Nat.add_le_add_left ((Nat.mod_lt d hn).le.trans hq) _
      _ = (n + 1) * rampStep d n := by rw [hstep hn hnd', Nat.succ_mul]
  · have hone : rampStep d n = 1 := by rw [rampStep_of_pos d (by omega), Nat.div_eq_of_lt hdn, max_eq_left zero_le_one]
    exact ⟨hone, by rw [hone, rampCalls, Nat.add_sub_cancel, Nat.div_one]⟩

/-! ## The calls of one stage -/

/-- A ramp of `f` from `v` over distance `d` in steps of `p`: while the next step stays short of the distance a call
moves the level along `lvlAt`, and the call that covers the distance gives `u`. So `u` comes on call number
`rampCalls d p`. -/
theorem iterate_ramp {f : Voice → Voice} {v u : Voice} {lvlAt : Nat → Nat} {d p : Nat} (hp : 1 ≤ p)
    (hlt : ∀ j, j * p ≤ d → lvlAt j < 2 ^ 31) (hstart : v.lvl.toNat = lvlAt 0)
    (hgo : ∀ j, (j + 1) * p < d → f (v.atLvl (lvlAt j)) = v.atLvl (lvlAt (j + 1)))
    (hend : ∀ j, j * p ≤ d → d ≤ (j + 1) * p → f (v.atLvl (lvlAt j)) = u) :
    (∀ j < rampCalls d p, (f^[j] v).lvl.toNat = lvlAt j ∧ (f^[j] v).stage = v.stage) ∧ f^[rampCalls d p] v = u := by
  have hcalls : ∀ j < rampCalls d p, j * p ≤ d ∧ f^[j] v = v.atLvl (lvlAt j) := by
    intro j
    induction j with
    | zero => exact fun _ => ⟨by omega, by rw [← hstart, v.atLvl_toNat_lvl, Function.iterate_zero_apply]⟩
    | succ j ih =>
      intro hj
      have hshort := mul_lt_of_lt_rampCalls hp (by omega) hj
      rw [Function.iterate_succ_apply', (ih (by omega)).2, hgo j hshort]
      exact ⟨hshort.le, rfl⟩
  constructor
  · intro j hj
    obtain ⟨hle, heq⟩ := hcalls j hj
    rw [heq]
    exact ⟨v.atLvl_lvl_toNat (hlt j hle), v.atLvl_stage _⟩
  · obtain ⟨m, hm⟩ := Nat.exists_eq_add_of_le' (one_le_rampCalls d p)
    obtain ⟨hle, hlast⟩ := hcalls m (by omega)
    rw [hm, Function.iterate_succ_apply', hlast, hend m hle (hm ▸ le_rampCalls_mul d hp)]

/-- A falling ramp of `f` from `v` down to `b` in steps of `p`: `f` ends it where the next step would reach `b`. -/
theorem iterate_fall {f : Voice → Voice} {v u : Voice} {b p : Nat} (hp : 1 ≤ p) (hb : b ≤ v.lvl.toNat)
    (hgo : ∀ n < 2 ^ 31, b + p < n → f (v.atLvl n) = v.atLvl (n - p))
    (hend : ∀ n < 2 ^ 31, n ≤ b + p → f (v.atLvl n) = u) :
    (∀ j < rampCalls (v.lvl.toNat - b) p,
      (f^[j] v).lvl.toNat = v.lvl.toNat - j * p ∧ (f^[j] v).stage = v.stage) ∧
    f^[rampCalls (v.lvl.toNat - b) p] v = u := by
  have hlt (j : Nat) : v.lvl.toNat - j * p < 2 ^ 31 := (Nat.sub_le ..).trans_lt v.lvl.isLt
  refine iterate_ramp (lvlAt := (v.lvl.toNat - · * p)) hp (fun j _ => hlt j) (by rw [Nat.zero_mul, Nat.sub_zero])
    (fun j h => ?_) fun j _ h => ?_
  · rw [Nat.succ_mul] at h ⊢
    rw [hgo _ (hlt j) (by omega), Nat.sub_sub]
  · rw [Nat.succ_mul] at h
    exact hend _ (hlt j) (by omega)

/-- Settles O37: the attack is the ramp over ONE whose level after `j` calls is `j * A_INC`. -/
theorem attackEndsOnItsLastCall : Obligations.AttackEndsOnItsLastCall := by
  intro s v hv hl k
  have hp : 1 ≤ s.attackInc := one_le_rampStep _ _
  have hk : rampCalls ONE s.attackInc = k := rampCalls_of_pos (by decide) hp
  have hstage (n : Nat) : (v.atLvl n).stage = .attack := (v.atLvl_stage n).trans hv
  have hlt {n : Nat} (h : n ≤ ONE) : n < 2 ^ 31 := h.trans_lt (by decide)
  obtain ⟨hbefore, hlast⟩ := iterate_ramp (f := envProcess s) (v := v) (u := v.enter (levelOf ONE) .decay)
    (lvlAt := (· * s.attackInc)) (d := ONE) hp (fun j => hlt) (by rw [hl, Nat.zero_mul, BitVec.toNat_zero])
    (fun j h => by
      rw [Nat.succ_mul] at h ⊢
      have hlvl := v.atLvl_lvl_toNat (n := j * s.attackInc) (hlt (by omega))
      rw [envProcess_attack_go (hstage _) (by rwa [hlvl]), hlvl, Voice.atLvl_atLvl])
    (fun j h h' => by
      rw [Nat.succ_mul] at h'
      rw [envProcess_attack_end (hstage _) (by rwa [v.atLvl_lvl_toNat (hlt h)]), Voice.enter_atLvl])
  rw [hv, hk] at hbefore
  rw [hk] at hlast
  exact ⟨hbefore, by rw [hlast, Voice.enter_lvl, levelOf_toNat le_rfl, ONE], by rw [hlast, Voice.enter_stage]⟩

/-- Settles O38: the decay is the fall from ONE to SUS. -/
theorem decayEndsOnItsLastCall : Obligations.DecayEndsOnItsLastCall := by
  intro s v hs hv hl k
  have hk : rampCalls (2 ^ 30 - s.sus.toNat) s.decayDec = k := rfl
  have hstage (n : Nat) : (v.atLvl n).stage = .decay := (v.atLvl_stage n).trans hv
  obtain ⟨hbefore, hlast⟩ := iterate_fall (f := envProcess s) (v := v) (u := v.enter s.sus .sustain)
    (b := s.sus.toNat) (p := s.decayDec) (one_le_rampStep _ _) (by rwa [hl])
    (fun n hn h => by
      have hlvl := v.atLvl_lvl_toNat hn
      rw [envProcess_decay_go (hstage n) (by rwa [hlvl]), hlvl, Voice.atLvl_atLvl])
    (fun n hn h => by
      rw [envProcess_decay_end (hstage n) (by rwa [v.atLvl_lvl_toNat hn]), Voice.enter_atLvl])
  rw [hv, hl, hk] at hbefore
  rw [hl, hk] at hlast
  exact ⟨hbefore, by rw [hlast, Voice.enter_lvl], by rw [hlast, Voice.enter_stage]⟩

/-- Settles O39: the release is the fall from `rel` to 0, and `R_DEC` stays the same over it, since no call writes
`rel`. -/
theorem releaseEndsOnItsLastCall : Obligations.ReleaseEndsOnItsLastCall := by
  intro s v hv hl k
  have hk : rampCalls v.rel.toNat (s.releaseDec v) = k := rfl
  have hstage (n : Nat) : (v.atLvl n).stage = .release := (v.atLvl_stage n).trans hv
  obtain ⟨hbefore, hlast⟩ := iterate_fall (f := envProcess s) (v := v) (u := v.enter (levelOf 0) .idle) (b := 0)
    (p := s.releaseDec v) (one_le_rampStep _ _) (Nat.zero_le _)
    (fun n hn h => by
      have hlvl := v.atLvl_lvl_toNat hn
      rw [Nat.zero_add] at h
      rw [envProcess_release_go (hstage n) (by rwa [hlvl, s.releaseDec_atLvl]), hlvl, s.releaseDec_atLvl,
        Voice.atLvl_atLvl])
    (fun n hn h => by
      rw [Nat.zero_add] at h
      rw [envProcess_release_end (hstage n) (by rwa [v.atLvl_lvl_toNat hn, s.releaseDec_atLvl]), Voice.enter_atLvl])
  rw [hv, hl, Nat.sub_zero, hk] at hbefore
  rw [hl, Nat.sub_zero, hk] at hlast
  exact ⟨hbefore, by rw [hlast, Voice.enter_lvl, levelOf_toNat (Nat.zero_le ONE)], by rw [hlast, Voice.enter_stage]⟩

end Sys2Proof.Machine
end

