-- ==== Sys2Proof/Proofs/VoicePool.lean ====
section
/-! The voice pool and its allocator (spec/42_voice_pool.md). The idea: in every case of R191 a note-on is one start in
a pool where no other voice is bound to its note, and where every voice bound to another note is as it was. -/

namespace Sys2Proof.Machine

/-! ## The meanings -/

@[simp] theorem exec_qkey (k : Note) (s : State) : exec (.qkey k) s = .next (s.respond (s.keyPlaying k)) := rfl

@[simp] theorem exec_noteOn (c : BitVec 4) (n : Note) (v : Velocity) (s : State) :
    exec (.noteOn c n v) s = .next (s.noteOn n v) := rfl

@[simp] theorem exec_noteOff (c : BitVec 4) (n : Note) (v : Velocity) (s : State) :
    exec (.noteOff c n v) s = .next (s.noteOff n) := rfl

@[simp] theorem exec_noteOnZero (c : BitVec 4) (n : Note) (s : State) :
    exec (.noteOnZero c n) s = .next (s.noteOff n) := rfl

/-! ## The started voice -/

@[simp] theorem startedVoice_key (n : Note) (v : Velocity) (sr : BitVec 24) : (startedVoice n v sr).key = some n := rfl

@[simp] theorem startedVoice_stage (n : Note) (v : Velocity) (sr : BitVec 24) : (startedVoice n v sr).stage = .attack :=
  rfl

@[simp] theorem startedVoice_lvl (n : Note) (v : Velocity) (sr : BitVec 24) : (startedVoice n v sr).lvl = 0#31 := rfl

/-! ## KeyPlaying -/

theorem State.keyPlaying_of_busy {n : Note} {s : State} (h : ∃ u ∈ s.voices, u.key = some n ∧ u.stage ≠ .idle) :
    s.keyPlaying n = 1#32 := by
  obtain ⟨u, hu, hkey, hbusy⟩ := h
  cases hf : firstBound n s.voices with
  | none => exact absurd (firstBound_eq_none.1 hf u hu hkey) hbusy
  | some j => rw [State.keyPlaying, hf]

theorem State.keyPlaying_of_idle {n : Note} {s : State} (h : ∀ u ∈ s.voices, u.key = some n → u.stage = .idle) :
    s.keyPlaying n = 0#32 := by
  rw [State.keyPlaying, firstBound_eq_none.2 h]

/-- Settles O22: KeyPlaying is whether FirstBound finds a voice, and FirstBound finds none exactly when every voice
bound to the key is IDLE. -/
theorem qkeyAsksForABusyBoundVoice : Obligations.QkeyAsksForABusyBoundVoice := by
  intro k s
  constructor
  · intro h
    rw [exec_qkey, State.keyPlaying_of_busy h]
    rfl
  · intro h
    rw [exec_qkey, State.keyPlaying_of_idle h]
    rfl

/-! ## FindFreeVoice -/

/-- Settles O26: the two scans of R190, by whether some voice is IDLE. -/
theorem findFreeVoicePicksFirstIdleElseQuietest : Obligations.FindFreeVoicePicksFirstIdleElseQuietest := by
  intro vs hne
  by_cases hidle : ∃ u ∈ vs, u.stage = .idle
  · obtain ⟨v, hget, hv, hfirst⟩ := findFreeVoice_of_idle hidle
    obtain ⟨w, hw, hwi⟩ := hidle
    exact ⟨v, hget, fun _ => ⟨hv, fun j u hj => hfirst j hj u⟩, fun hbusy => absurd hwi (hbusy w hw)⟩
  · have hbusy : ∀ u ∈ vs, u.stage ≠ .idle := fun u hu hi => hidle ⟨u, hu, hi⟩
    obtain ⟨v, hget, hleast, hfirst⟩ := quietest_spec hne
    rw [findFreeVoice_of_busy hbusy]
    exact ⟨v, hget, fun h => absurd h hidle, fun _ => ⟨hleast, fun j u hj => hfirst j hj u⟩⟩

/-- Behind busy voices the first IDLE voice is the one taken. -/
theorem findFreeVoice_append_idle {pre : List Voice} (hpre : ∀ u ∈ pre, u.stage ≠ .idle) {u : Voice}
    (hu : u.stage = .idle) (rest : List Voice) : findFreeVoice (pre ++ u :: rest) = pre.length := by
  obtain ⟨v, hget, hv, hfirst⟩ := findFreeVoice_of_idle (vs := pre ++ u :: rest) ⟨u, by simp, hu⟩
  rcases Nat.lt_trichotomy (findFreeVoice (pre ++ u :: rest)) pre.length with hlt | heq | hgt
  · rw [List.getElem?_append_left hlt] at hget
    exact absurd hv (hpre v (List.mem_of_getElem? hget))
  · exact heq
  · exact absurd hu (hfirst pre.length hgt u (by simp))

/-- When every voice is busy at level 0, all gains tie at 0 and voice 0 is taken. -/
theorem findFreeVoice_of_silent {vs : List Voice} (hne : vs ≠ []) (hbusy : ∀ u ∈ vs, u.stage ≠ .idle)
    (hlvl : ∀ u ∈ vs, u.lvl = 0#31) : findFreeVoice vs = 0 := by
  rw [findFreeVoice_of_busy hbusy]
  obtain ⟨v, -, -, hfirst⟩ := quietest_spec hne
  refine Nat.eq_zero_of_not_pos fun hpos => ?_
  have hquiet := hfirst 0 hpos (vs.head hne) (by rw [← List.head?_eq_getElem?, List.head?_eq_some_head hne])
  simp [Voice.gain, hlvl _ (List.head_mem hne)] at hquiet

/-! ## A note that no voice is bound to

R191 and R192 as they stand: nothing else is asked of the pool, so a voice of velocity 0 may be in it. -/

theorem firstBound_of_unbound {n : Note} {vs : List Voice} (h : ∀ u ∈ vs, u.key ≠ some n) :
    firstBound n vs = none :=
  firstBound_eq_none.2 fun u hu hkey => absurd hkey (h u hu)

theorem State.noteOn_of_unbound {n : Note} (v : Velocity) {s : State} (h : ∀ u ∈ s.voices, u.key ≠ some n) :
    s.noteOn n v = s.setVoices (s.voices.set (findFreeVoice s.voices) (startedVoice n v s.sr)) := by
  rw [State.noteOn, firstBound_of_unbound h]
  rfl

theorem State.noteOff_of_unbound {n : Note} {s : State} (h : ∀ u ∈ s.voices, u.key ≠ some n) :
    s.noteOff n = s := by
  rw [State.noteOff, firstBound_of_unbound h]

/-! ## What a note-on and a note-off write -/

/-- Settles O27: the three cases of R191; with REALLOCATE the pool searched is the one after Release (R193). -/
theorem noteOnStartsOneVoice : Obligations.NoteOnStartsOneVoice := by
  intro c n v s ⟨_, hok, _⟩
  refine ⟨fun hn => ?_, fun j u hj hu => ⟨fun hr => ?_, fun hr => ?_⟩⟩
  · rw [exec_noteOn, State.noteOn_of_unbound v hn]
    rfl
  · rw [exec_noteOn, State.noteOn_retrigger hok hj hu hr]
    rfl
  · rw [exec_noteOn, State.noteOn_reallocate hok hj hu hr, (hok.release hj hu).1]
    rfl

/-- Settles O29: by whether the note is bound; the two messages have one meaning, without channel or velocity. -/
theorem noteOffReleasesTheBoundVoice : Obligations.NoteOffReleasesTheBoundVoice := by
  intro c n v s ⟨_, hok, _⟩
  rw [exec_noteOff, exec_noteOnZero, and_self]
  constructor
  · intro hn
    rw [State.noteOff_of_unbound hn]
  · intro j u hj hu
    rw [and_self, State.noteOff_bound hok hj hu, (hok.release hj hu).1]
    rfl

/-! ## One start, whatever the case -/

/-- `pool` is `vs` made ready for a start of note `n` at voice `i`: no other voice is bound to `n`, and the voices
bound to other notes are those of `vs`. -/
structure ReadyFor (n : Note) (vs pool : List Voice) (i : Nat) : Prop where
  lt : i < pool.length
  unbound : ∀ (j : Nat) (u : Voice), pool[j]? = some u → j ≠ i → u.key ≠ some n
  bound_iff : ∀ (m : Note) (j : Nat) (u : Voice), m ≠ n → u.key = some m → (pool[j]? = some u ↔ vs[j]? = some u)

/-- Two places of a well-formed pool bound to one note are the same place (R36 (iv)). -/
theorem VoicesOk.index_unique {c : Config} {vs : List Voice} (h : VoicesOk c vs) {n : Note} {i j : Nat}
    {u w : Voice} (hi : vs[i]? = some u) (hu : u.key = some n) (hj : vs[j]? = some w) (hw : w.key = some n) : i = j := by
  obtain ⟨-, hok, hpair⟩ := h
  exact Option.some.inj ((firstBound_of_bound hok hpair hi hu).symm.trans (firstBound_of_bound hok hpair hj hw))

/-- An IDLE voice is bound to no note (R36 (ii)). -/
theorem Voice.Ok.key_of_idle {v : Voice} (h : v.Ok) (hv : v.stage = .idle) : v.key = none := by
  obtain ⟨-, -, hidle, -⟩ := h
  exact (hidle hv).2

theorem State.Inv.voices_ne_nil {s : State} (h : s.Inv) : s.voices ≠ [] := by
  obtain ⟨hcfg, ⟨hlen, -⟩, -⟩ := h
  have hP : 1 ≤ s.cfg.P := ((configLegal_iff s.cfg).1 hcfg).1
  exact List.ne_nil_of_length_pos (by omega)

/-- Releasing the voice bound to `n` leaves the voices bound to other notes. -/
theorem VoicesOk.release_getElem?_iff {c : Config} {vs : List Voice} (h : VoicesOk c vs) {j : Nat} {u : Voice}
    {n m : Note} (hj : vs[j]? = some u) (hu : u.key = some n) (hm : m ≠ n) (k : Nat) {w : Voice}
    (hw : w.key = some m) : (vs.modify j releaseVoice)[k]? = some w ↔ vs[k]? = some w := by
  rw [(h.release hj hu).1]
  by_cases hk : j = k
  · subst hk
    have hlt : j < vs.length := (List.getElem?_eq_some_iff.1 hj).1
    rw [List.getElem?_set_self hlt, hj]
    constructor
    · rintro ⟨⟩
      cases hw
    · rintro ⟨⟩
      exact absurd (Option.some.inj (hw.symm.trans hu)) hm
  · rw [List.getElem?_set_ne hk]

/-- R191: in each of its cases a note-on is one start in a pool made ready for it. -/
theorem State.Inv.noteOn_ready {s : State} (h : s.Inv) (n : Note) (v : Velocity) :
    ∃ (pool : List Voice) (i : Nat), ReadyFor n s.voices pool i ∧
      s.noteOn n v = s.setVoices (pool.set i (startedVoice n v s.sr)) := by
  have hne := h.voices_ne_nil
  obtain ⟨-, hok, -⟩ := h
  rcases unbound_or_bound n s.voices with hn | ⟨j, u, hj, hu⟩
  · exact ⟨_, _, ⟨findFreeVoice_lt hne, fun _ w hw _ => hn w (List.mem_of_getElem? hw), fun _ _ _ _ _ => Iff.rfl⟩,
      State.noteOn_of_unbound v hn⟩
  · cases hr : s.cfg.retrig with
    | retrigger =>
      exact ⟨_, j, ⟨(List.getElem?_eq_some_iff.1 hj).1,
        fun _ _ hw hkj hwn => hkj (hok.index_unique hw hwn hj hu),
        fun _ _ _ _ _ => Iff.rfl⟩, State.noteOn_retrigger hok hj hu hr⟩
    | reallocate =>
      obtain ⟨-, -, hunbound⟩ := hok.release hj hu
      exact ⟨_, _, ⟨findFreeVoice_lt (by simpa using hne), fun _ w hw _ => hunbound w (List.mem_of_getElem? hw),
        fun _ k _ hm hw => hok.release_getElem?_iff hj hu hm k hw⟩, State.noteOn_reallocate hok hj hu hr⟩

/-- A voice of the pool after a write is the one written, or a voice of the pool at another place. -/
theorem eq_or_getElem?_of_mem_set {vs : List Voice} {i : Nat} {v w : Voice} (h : w ∈ vs.set i v) :
    w = v ∨ ∃ j, j ≠ i ∧ vs[j]? = some w := by
  obtain ⟨j, hj, rfl⟩ := List.getElem_of_mem h
  rw [List.length_set] at hj
  by_cases hji : j = i
  · subst hji
    exact .inl (List.getElem_set_self _)
  · rw [List.getElem_set_ne (Ne.symm hji)]
    exact .inr ⟨j, hji, List.getElem?_eq_getElem hj⟩

/-- The started voice is the one voice bound to its note. -/
theorem ReadyFor.filter_set {n : Note} {vs pool : List Voice} {i : Nat} (h : ReadyFor n vs pool i) {v : Voice}
    (hv : v.key = some n) : (pool.set i v).filter (fun u => decide (u.key = some n)) = [v] := by
  rw [List.set_eq_take_append_cons_drop, if_pos h.lt, List.filter_append, List.filter_cons_of_pos (by simpa using hv)]
  have hbefore : ∀ u ∈ pool.take i, u.key ≠ some n := by
    intro u hu
    obtain ⟨j, hj, rfl⟩ := List.mem_take_iff_getElem.1 hu
    exact h.unbound j _ (List.getElem?_eq_getElem (by omega)) (by omega)
  have hafter : ∀ u ∈ pool.drop (i + 1), u.key ≠ some n := by
    intro u hu
    obtain ⟨j, hj, rfl⟩ := List.mem_drop_iff_getElem.1 hu
    exact h.unbound (i + 1 + j) _ (List.getElem?_eq_getElem (by omega)) (by omega)
  rw [List.filter_eq_nil_iff.2 (by simpa using hbefore), List.filter_eq_nil_iff.2 (by simpa using hafter)]
  rfl

/-- Settles O28: the start makes one voice bound to the note, in a pool where no other is. -/
theorem noteOnBindsExactlyOneVoice : Obligations.NoteOnBindsExactlyOneVoice := by
  intro c n v s h
  obtain ⟨pool, i, hready, heq⟩ := h.noteOn_ready n v
  exact ⟨_, rfl, by rw [heq]; exact hready.filter_set rfl⟩

/-! ## Stealing -/

/-- A start over the voice bound to `m` leaves no voice bound to `m` (R195). -/
theorem ReadyFor.stolen_unbound {c : Config} {n m : Note} {vs pool : List Voice} {i : Nat} (h : ReadyFor n vs pool i)
    (hok : VoicesOk c vs) (hm : m ≠ n) {u : Voice} (hi : vs[i]? = some u) (hu : u.key = some m) {v : Voice}
    (hv : v.key = some n) : ∀ x ∈ pool.set i v, x.key ≠ some m := by
  intro x hx hxm
  rcases eq_or_getElem?_of_mem_set hx with rfl | ⟨j, hji, hj⟩
  · exact hm (Option.some.inj (hxm.symm.trans hv))
  · exact hji (hok.index_unique ((h.bound_iff m j x hm hxm).1 hj) hxm hi hu)

/-- Settles O31: the start is at the voice of `m`, which steals it, or at another place, which leaves it. -/
theorem stolenNoteIsGone : Obligations.StolenNoteIsGone := by
  intro c c' n m v v' s i u h hmn hi hu
  have hok : VoicesOk s.cfg s.voices := by
    obtain ⟨-, hok, -⟩ := h
    exact hok
  refine ⟨(s.noteOn n v).voices, congrArg _ (State.noteOn_eq n v s), ?_, fun _ hn hfree => ?_⟩
  · obtain ⟨pool, k, hready, heq⟩ := h.noteOn_ready n v
    rw [heq, State.setVoices_voices]
    by_cases hk : k = i
    · subst hk
      have hgone := hready.stolen_unbound hok hmn hi hu (v := startedVoice n v s.sr) rfl
      exact .inr ⟨List.getElem?_set_self hready.lt, hgone, congrArg _ (State.noteOff_of_unbound hgone)⟩
    · refine .inl ?_
      rw [List.getElem?_set_ne hk]
      exact (hready.bound_iff m i u hmn hu).2 hi
  · rw [State.noteOn_of_unbound v hn, hfree]
    rfl

/-! ## Filling the pool -/

/-- Note-ons of distinct notes, behind busy voices bound to none of them, take the IDLE voices in order (R197). -/
theorem foldl_noteOn_fills (notes : List (Note × Velocity)) {s : State} {pre rest : List Voice}
    (hs : s.voices = pre ++ rest) (hbusy : ∀ u ∈ pre, u.stage ≠ .idle)
    (hpre : ∀ u ∈ pre, ∀ p ∈ notes, u.key ≠ some p.1)
    (hfree : ∀ u ∈ rest, u.stage = .idle ∧ u.key = none)
    (hlen : notes.length = rest.length) (hdistinct : (notes.map Prod.fst).Nodup) :
    notes.foldl (fun a p => a.noteOn p.1 p.2) s =
      s.setVoices (pre ++ notes.map (fun p => startedVoice p.1 p.2 s.sr)) := by
  induction notes generalizing s pre rest with
  | nil =>
    obtain rfl := List.length_eq_zero_iff.1 hlen.symm
    simp [← hs, State.setVoices]
  | cons p notes ih =>
    cases rest with
    | nil => cases hlen
    | cons u rest =>
      obtain ⟨⟨hidle, hkey⟩, hfree⟩ := List.forall_mem_cons.1 hfree
      obtain ⟨hpn, hdistinct⟩ := List.nodup_cons.1 hdistinct
      have hunbound : ∀ w ∈ s.voices, w.key ≠ some p.1 := by
        rw [hs]
        simp only [List.mem_append, List.mem_cons]
        rintro w (hw | rfl | hw)
        · exact hpre w hw p List.mem_cons_self
        · simp [hkey]
        · simp [(hfree w hw).2]
      have hstep : s.noteOn p.1 p.2 = s.setVoices ((pre ++ [startedVoice p.1 p.2 s.sr]) ++ rest) := by
        rw [State.noteOn_of_unbound _ hunbound, hs, findFreeVoice_append_idle hbusy hidle]
        simp
      rw [List.foldl_cons, hstep, ih (s := s.setVoices _) rfl ?_ ?_ hfree (by simpa using hlen) hdistinct]
      · simp [State.setVoices]
      · simpa [or_imp, forall_and] using hbusy
      · simp only [List.mem_append, List.mem_singleton]
        rintro w (hw | rfl) q hq
        · exact hpre w hw q (List.mem_cons_of_mem p hq)
        · exact fun hkey => hpn (Option.some.inj hkey ▸ List.mem_map_of_mem hq)

/-- Settles O32: the pool is filled in order, and then every voice is at level 0 (R191), so voice 0 is the first of
least gain (R190). -/
theorem oneNoteTooManyStealsVoiceZero : Obligations.OneNoteTooManyStealsVoiceZero := by
  intro s notes n v h hidle hlen hdistinct
  have hne := h.voices_ne_nil
  obtain ⟨-, ⟨hP, hok, -⟩, -⟩ := h
  obtain ⟨hn, hdistinct⟩ := List.nodup_cons.1 hdistinct
  have hfull := foldl_noteOn_fills notes (List.nil_append s.voices).symm (by simp) (by simp)
    (fun u hu => ⟨hidle u hu, (hok u hu).key_of_idle (hidle u hu)⟩) (hlen.trans hP.symm) hdistinct
  rw [List.nil_append] at hfull
  intro full
  have hvoices : full.voices = notes.map (fun p => startedVoice p.1 p.2 s.sr) := congrArg State.voices hfull
  have hsr : full.sr = s.sr := (congrArg State.sr hfull).trans (State.setVoices_sr s _)
  have hunbound : ∀ u ∈ full.voices, u.key ≠ some n := by
    rw [hvoices, List.forall_mem_map]
    exact fun p hp hkey => hn (Option.some.inj hkey ▸ List.mem_map_of_mem hp)
  have hzero : findFreeVoice full.voices = 0 := by
    rw [hvoices]
    refine findFreeVoice_of_silent ?_ (List.forall_mem_map.2 (by simp)) (List.forall_mem_map.2 (by simp))
    intro hnil
    rw [List.map_eq_nil_iff.1 hnil] at hlen
    exact hne (List.length_eq_zero_iff.1 (hP.trans hlen.symm))
  refine ⟨hvoices, ?_⟩
  rw [State.noteOn_of_unbound v hunbound, hzero, hsr]
  rfl

end Sys2Proof.Machine
end

