-- ==== Sys2Proof/Proofs/Queue.lean ====
section
/-! The event queue (spec/43_midi_queue.md). The ideas: a resize to at least the old block size keeps every entry, two
flushes keep the entries of one and shift them as far, and an insertion walks past the entries that are not later. -/

namespace Sys2Proof.Machine

/-! ## Resize -/

theorem exec_reset_of_ne_zero {bs : BitVec 16} {sr : BitVec 24} (s : State) (hsr : sr ≠ 0#24) (hbs : bs ≠ 0#16) :
    exec (.reset bs sr) s = .next ((s.setRates bs sr).qResize bs.toNat) := if_neg (not_or.2 ⟨hsr, hbs⟩)

/-- R226: a resize to at least the block size the queue fits in changes nothing. -/
theorem State.qResize_of_ok {s : State} {bs : BitVec 16} {n : Nat} (h : QueueOk bs s.queue) (hn : bs.toNat ≤ n) :
    s.qResize n = s := by
  have hkept : Machine.resized n s.queue = s.queue := resized_of_ok h hn
  rw [State.qResize_keeps (by rw [hkept, Nat.sub_self]), hkept]
  rfl

/-- R226, R281: such a RESET writes SR and BS only. -/
theorem State.Inv.exec_reset_of_le {s : State} (h : s.Inv) {bs : BitVec 16} {sr : BitVec 24} (hsr : sr ≠ 0#24)
    (hle : s.bs.toNat ≤ bs.toNat) : exec (.reset bs sr) s = .next (s.setRates bs sr) := by
  obtain ⟨-, -, hq, -, hb, -, -⟩ := h
  have hbs : bs ≠ 0#16 := by
    rintro rfl
    exact hb (BitVec.eq_of_toNat_eq (Nat.le_zero.1 hle))
  rw [exec_reset_of_ne_zero s hsr hbs, State.qResize_of_ok (s := s.setRates bs sr) hq hle]

/-- Settles O17: both clauses are the RESET that keeps the queue; the second writes SR and BS as they are. -/
theorem resetToALargerBlockKeepsTheQueue : Obligations.ResetToALargerBlockKeepsTheQueue := by
  intro bs sr s h hsr hle
  have ⟨_, _, _, hsr', _⟩ := h
  exact ⟨h.exec_reset_of_le hsr hle, h.exec_reset_of_le hsr' le_rfl⟩

/-! ## Flush -/

/-- R228 (a): nothing is left when every entry falls in the block. -/
theorem flushed_of_early {n : Nat} {q : List Entry} (h : ∀ e ∈ q, e.ofs.toNat < n) : flushed n q = [] := by
  rw [flushed, List.filter_eq_nil_iff.2 (by simpa using h), List.map_nil]

/-- R228 (c): an entry of offset at least `a` is at least `b` after the first flush just when it was at least
`a + b`. -/
theorem flushed_flushed (a b : Nat) (q : List Entry) : flushed b (flushed a q) = flushed (a + b) q := by
  have hkept : ∀ e ∈ q, (decide (b ≤ (e.earlier a).ofs.toNat) && decide (a ≤ e.ofs.toNat)) =
      decide (a + b ≤ e.ofs.toNat) := by
    intro e _
    rw [Entry.earlier_ofs, ← Bool.decide_and, decide_eq_decide]
    omega
  have hshift : Entry.earlier b ∘ Entry.earlier a = Entry.earlier (a + b) :=
    funext (Entry.earlier_earlier a b)
  simp only [flushed, List.filter_map, List.map_map, List.filter_filter, hshift, Function.comp_apply]
  rw [List.filter_congr hkept]

/-- Settles O42: each property is one of the flushed queue. -/
theorem flushPropertiesOfR228 : Obligations.FlushPropertiesOfR228 := by
  intro s
  refine ⟨fun n h => flushed_of_early h, ?_, fun a b => ?_⟩
  · exact congrArg (State.setQueue · s) (flushed_zero s.queue)
  · exact congrArg (State.setQueue · s) (flushed_flushed a b s.queue)

/-! ## Insertion, entry by entry -/

/-- R221: an insertion passes an entry that is not later. -/
theorem qInsert_cons_of_le {e x : Entry} (q : List Entry) (h : x.ofs.toNat ≤ e.ofs.toNat) :
    qInsert e (x :: q) = x :: qInsert e q := by
  simp [qInsert, h]

/-- R221: an entry earlier than the whole queue becomes its head. -/
theorem qInsert_of_earlier {e : Entry} {q : List Entry} (h : ∀ x ∈ q, e.ofs.toNat < x.ofs.toNat) :
    qInsert e q = e :: q := by
  have hnone : q.countP (fun x => decide (x.ofs.toNat ≤ e.ofs.toNat)) = 0 := by
    simpa [List.countP_eq_zero] using h
  simp [qInsert, hnone]

/-- R221: QAdd into a queue with room is the insertion. -/
theorem State.setQueue_qAdd {s : State} {q : List Entry} (e : Entry) (h : q.length < s.bs.toNat) :
    (s.setQueue q).qAdd e = s.setQueue (qInsert e q) :=
  State.qAdd_room (s := s.setQueue q) h

/-- Settles O41: the four insertions in turn, each into a queue of at most three entries, give the queue of offsets
2, 2, 5, 8. -/
theorem queueRoundTripOfR225 : Obligations.QueueRoundTripOfR225 := by
  intro s a b c d hempty hroom ha hb hc hd
  have hinsA : qInsert a [] = [a] := qInsert_of_earlier (by simp)
  have hinsB : qInsert b [a] = [b, a] := qInsert_of_earlier (by simp; omega)
  have hinsC : qInsert c [b, a] = [b, a, c] := by
    rw [qInsert_cons_of_le _ (by omega), qInsert_cons_of_le _ (by omega), qInsert_of_earlier (by simp)]
  have hinsD : qInsert d [b, a, c] = [b, d, a, c] := by
    rw [qInsert_cons_of_le _ (by omega), qInsert_of_earlier (by simp; omega)]
  have hfirst : s.qAdd a = s.setQueue [a] := by
    rw [State.qAdd_room (by rw [hempty, List.length_nil]; omega), hempty, hinsA]
  have hadded : (((s.qAdd a).qAdd b).qAdd c).qAdd d = s.setQueue [b, d, a, c] := by
    rw [hfirst, State.setQueue_qAdd b (by simp; omega), hinsB, State.setQueue_qAdd c (by simp; omega), hinsC,
      State.setQueue_qAdd d (by simp; omega), hinsD]
  rw [hadded]
  exact ⟨rfl, rfl, rfl, rfl, rfl⟩

end Sys2Proof.Machine
end

