-- ==== Sys2Proof/Proofs/Dispatch.lean ====
section
/-! The dispatch of queued messages (spec/44_render.md, R252, R253). The idea: a message decodes to one of the ten rows
of R114 and never to a command, so the dispatch and the meaning of the class agree row by row. -/

namespace Sys2Proof.Machine

/-! ## Dispatch and the meaning of the class -/

/-- R252: the meaning of a message's class is its dispatch. -/
theorem exec_decodeMsg (e : Entry) (s : State) :
    exec (decodeMsg (msgWord e.st e.d1 e.d2)) s = .next (s.dispatch e) := by
  rw [State.dispatch, decodeMsg_byRange]
  split_ifs <;> rfl

/-- Settles O8: the slot is read by `step`, and each row's meaning is the arm of the dispatch for it. -/
theorem dispatchIsTheMeaningOfTheClass : Obligations.DispatchIsTheMeaningOfTheClass :=
  ⟨fun _ _ hcfg hslot => step_of_slot hcfg hslot, fun s e => exec_decodeMsg e s⟩

/-- Settles O30: the meanings of these seven rows are `.next s` by definition. -/
theorem otherMessagesDoNothing : Obligations.OtherMessagesDoNothing := by
  intro s
  exact ⟨fun _ _ _ => rfl, fun _ _ _ => rfl, fun _ _ _ => rfl, fun _ _ _ => rfl, fun _ _ _ => rfl, fun _ _ _ => rfl,
    fun _ _ _ => rfl⟩

/-! ## The dispatch loop -/

@[simp] theorem State.setQueue_self (s : State) : s.setQueue s.queue = s := rfl

@[simp] theorem State.dispatch_queue (e : Entry) (s : State) : (s.dispatch e).queue = s.queue := by
  rw [State.dispatch_eq, State.setVoices_queue]

theorem State.qEmpty_iff (s : State) : s.qEmpty = true ↔ s.queue = [] := List.isEmpty_iff

/-- R253 on an empty queue. -/
theorem State.dispatchDue_of_nil {s : State} (h : s.queue = []) (t : Nat) : s.dispatchDue t = s := by
  rw [State.dispatchDue, h, dispatchLoop, ← h, State.setQueue_self]

/-- R253: a head that is due is removed and dispatched, and the loop goes on. -/
theorem State.dispatchDue_of_due {s : State} {e : Entry} {q : List Entry} (h : s.queue = e :: q) {t : Nat}
    (he : e.ofs.toNat ≤ t) : s.dispatchDue t = ((s.setQueue q).dispatch e).dispatchDue t := by
  rw [State.dispatchDue, State.dispatchDue, h, dispatchLoop, if_pos he, State.dispatch_queue, State.setQueue_queue]

/-- R253: a head that is not due ends the loop. -/
theorem State.dispatchDue_of_not_due {s : State} {e : Entry} {q : List Entry} (h : s.queue = e :: q) {t : Nat}
    (he : t < e.ofs.toNat) : s.dispatchDue t = s := by
  rw [State.dispatchDue, h, dispatchLoop, if_neg (Nat.not_le.2 he), ← h, State.setQueue_self]

/-- Settles O43: the loop on an empty queue, and on a queue whose head is due or not. -/
theorem dispatchDueIsTheLoopOfR253 : Obligations.DispatchDueIsTheLoopOfR253 := by
  intro s t
  refine ⟨fun hempty => State.dispatchDue_of_nil (s.qEmpty_iff.1 hempty) t, fun e hpeek => ?_⟩
  obtain ⟨q, hq⟩ := List.head?_eq_some_iff.1 hpeek
  have hremove : s.qRemove = s.setQueue q := by rw [State.qRemove, hq, List.tail_cons]
  rw [hremove]
  exact ⟨State.dispatchDue_of_due hq, State.dispatchDue_of_not_due hq⟩

end Sys2Proof.Machine
end

