-- ==== Sys2Proof/Proofs/Output.lean ====
section
/-! The output value of a frame (spec/44_render.md, R255, R256, R260). The ideas: only one integer meets the
specification of R12's rounding, so it is odd in the sum; and a sum of at most P terms, each a product of fields within
their formats, stays far below the output word. -/

namespace Sys2Proof.Machine

/-! ## Rounding -/

/-- One half of `rne_unique`: of two roundings of one quotient neither is the greater. -/
theorem le_of_roundings {a m m' : Int} {d : Nat} (hd : 0 < d) (h : 2 * |a - m * d| ≤ d) (h' : 2 * |a - m' * d| ≤ d)
    (htie : 2 * |a - m * d| = d → m % 2 = 0) (htie' : 2 * |a - m' * d| = d → m' % 2 = 0) : m ≤ m' := by
  by_contra hlt
  have hge : (d : Int) ≤ (m - m') * d := le_mul_of_one_le_left (by omega) (by omega)
  rw [sub_mul] at hge
  have hlo := neg_abs_le (a - m * d)
  have hhi := le_abs_self (a - m' * d)
  have hstep : (m - m') * d = 1 * d := by rw [sub_mul]; omega
  have hone : m - m' = 1 := mul_right_cancel₀ (by omega) hstep
  have heven := htie (by omega)
  have heven' := htie' (by omega)
  omega

/-- R12 determines the rounded number. -/
theorem rne_unique {a m : Int} {d : Nat} (hd : 0 < d) (h : 2 * |a - m * d| ≤ d)
    (htie : 2 * |a - m * d| = d → m % 2 = 0) : rne a d = m := by
  obtain ⟨hnear, heven⟩ := rne_spec a hd
  exact le_antisymm (le_of_roundings hd hnear h heven htie) (le_of_roundings hd h hnear htie heven)

theorem rne_neg (a : Int) {d : Nat} (hd : 0 < d) : rne (-a) d = -rne a d := by
  obtain ⟨hnear, heven⟩ := rne_spec a hd
  have hflip : |(-a) - (-rne a d) * d| = |a - rne a d * d| := by rw [← abs_neg]; ring_nf
  refine rne_unique hd (hflip ▸ hnear) fun htie => ?_
  have := heven (hflip ▸ htie)
  omega

theorem rne_zero {d : Nat} (hd : 0 < d) : rne 0 d = 0 := rne_unique hd (by simp) (by simp)

theorem abs_rne_mul_le (a : Int) {d : Nat} (hd : 0 < d) : 2 * (|rne a d| * d) ≤ 2 * |a| + d := by
  obtain ⟨hnear, -⟩ := rne_spec a hd
  have htriangle := abs_sub a (a - rne a d * d)
  rw [sub_sub_cancel, abs_mul, Nat.abs_cast] at htriangle
  omega

/-- Settles O46: the specification of the rounding, and its odd symmetry. -/
theorem outputIsRoundedToNearestEven : Obligations.OutputIsRoundedToNearestEven := by
  intro acc o den
  obtain ⟨hnear, heven⟩ := rne_spec acc (d := 2 ^ 28 * 635) (by decide)
  exact ⟨hnear, heven, rne_neg acc (by decide)⟩

/-! ## The bound of the sum -/

/-- The greatest magnitude of one voice's term: a Q2.22 sample, a level of at most ONE, a velocity of at most 127. -/
def termBound : Int := 2 ^ 23 * 2 ^ 30 * 127

theorem abs_voiceTerm_le {s : State} {v : Voice} (hsus : s.sus.toNat ≤ ONE) (hv : v.Ok) :
    |voiceTerm s v| ≤ termBound := by
  by_cases hb : v.busy
  · obtain ⟨hlo, hhi⟩ := oscSample_bounds s.cfg v.phase
    obtain ⟨hlvl, -⟩ := stepVoice_ok hsus hv
    have hvel : v.vel.toNat < 2 ^ 7 := v.vel.isLt
    have hsample : |oscSample s.cfg v.phase| ≤ 2 ^ 23 := abs_le.2 ⟨hlo, hhi.le⟩
    have hlevel : ((stepVoice s v).lvl.toNat : Int) ≤ 2 ^ 30 := by exact_mod_cast hlvl
    have hvelocity : (v.vel.toNat : Int) ≤ 127 := by omega
    rw [voiceTerm, if_pos hb, abs_mul, abs_mul, Nat.abs_cast, Nat.abs_cast, termBound]
    gcongr
  · rw [voiceTerm, if_neg hb, abs_zero]
    decide

theorem abs_sum_le_length_mul {b : Int} {xs : List Int} (h : ∀ x ∈ xs, |x| ≤ b) : |xs.sum| ≤ xs.length * b := by
  induction xs with
  | nil => simp
  | cons x xs ih =>
    obtain ⟨hx, hxs⟩ := List.forall_mem_cons.1 h
    rw [List.sum_cons, List.length_cons, Nat.cast_succ, add_mul, one_mul, add_comm _ b]
    exact (abs_add_le x xs.sum).trans (add_le_add hx (ih hxs))

/-- R255: the sum of at most P voices. -/
theorem State.Inv.abs_voiceSum_le {s : State} (h : s.Inv) : |voiceSum s| ≤ s.cfg.P * termBound := by
  obtain ⟨-, ⟨hlen, hok, -⟩, -, -, -, hsus, -⟩ := h
  rw [← hlen, ← List.length_map (f := voiceTerm s)]
  exact abs_sum_le_length_mul (List.forall_mem_map.2 fun v hv => abs_voiceTerm_le hsus (hok v hv))

/-- R260 in numbers: a bound of the sum bounds the output value. -/
theorem abs_outValue_le {acc : Int} {p : Nat} (h : |acc| ≤ p * termBound) :
    10 * |outValue acc| ≤ (p : Int) * 67108864 + 5 := by
  have hround : 2 * (|outValue acc| * (2 ^ 28 * 635 : Nat)) ≤ 2 * |acc| + (2 ^ 28 * 635 : Nat) :=
    abs_rne_mul_le acc (by decide)
  rw [termBound] at h
  omega

/-- Settles O47: the bound of the sum gives that of the output, and with at most 32 voices it is far below `2^31`. -/
theorem outputAlwaysFits : Obligations.OutputAlwaysFits := by
  intro s h o
  have hbound : 10 * |o| ≤ (s.cfg.P : Int) * 67108864 + 5 := abs_outValue_le h.abs_voiceSum_le
  obtain ⟨hcfg, -⟩ := h
  obtain ⟨-, hP, -⟩ := (configLegal_iff s.cfg).1 hcfg
  obtain ⟨hlo, hhi⟩ := abs_le.1 (le_refl |o|)
  have hword : (BitVec.ofInt 32 o).toInt = o := BitVec.toInt_ofInt_eq_self (by decide) (by omega) (by omega)
  exact ⟨hbound, hword, hword⟩

end Sys2Proof.Machine
end

