-- ==== Sys2Proof/Proofs/Render.lean ====
section
/-! A block (spec/44_render.md, R250 to R264). The ideas: with every voice IDLE and no message due a frame only emits
silence, so the fast path is the frame loop and PROCESS is always bridge, loop and flush; and a frame on an ordered
queue dispatches the messages due and keeps the others, so what the flush leaves depends on the queue before the loop
alone. -/

namespace Sys2Proof.Machine

/-! ## Frames on the audio port -/

@[simp] theorem State.emit_nil (s : State) : s.emit [] = s := by simp [State.emit]

@[simp] theorem State.emit_emit (s : State) (fs gs : List Frame) : (s.emit fs).emit gs = s.emit (fs ++ gs) := by
  simp [State.emit]

theorem outFrame_zero : outFrame 0 = silence := by
  have hzero : outValue 0 = 0 := rne_zero (by decide)
  rw [outFrame, hzero]
  rfl

/-! ## One voice in one frame -/

/-- R254 by stage. -/
theorem stepVoice_eq (s : State) (v : Voice) :
    stepVoice s v = if v.stage = .idle then v else envProcess s { v with phase := v.phase + v.inc } := by
  by_cases hv : v.stage = .idle
  · rw [stepVoice_idle hv, if_pos hv]
  · rw [stepVoice, if_pos (v.busy_iff.2 hv), if_neg hv, oscAdvance]

theorem voiceTerm_of_idle (s : State) {v : Voice} (h : v.stage = .idle) : voiceTerm s v = 0 := by
  simp [voiceTerm, Voice.busy, h]

theorem voiceTerm_of_busy (s : State) {v : Voice} (h : v.stage ≠ .idle) :
    voiceTerm s v = oscSample s.cfg v.phase * (stepVoice s v).lvl.toNat * v.vel.toNat :=
  if_pos (v.busy_iff.2 h)

/-- The voice file of a frame is stepped with the registers of the state it stands in; the queue is not read. -/
theorem State.soundFrame_setVoices_setQueue (s : State) (vs : List Voice) (q : List Entry) :
    ((s.setVoices vs).setQueue q).soundFrame =
      ((s.setVoices (vs.map (stepVoice s))).setQueue q).emit [outFrame (vs.map (voiceTerm s)).sum] := rfl

/-! ## Silence -/

theorem State.soundFrame_of_idle {s : State} (h : ∀ v ∈ s.voices, v.stage = .idle) :
    s.soundFrame = s.emit [silence] := by
  have hsum : voiceSum s = 0 := List.sum_eq_zero (List.forall_mem_map.2 fun v hv => voiceTerm_of_idle s (h v hv))
  have hvoices : s.voices.map (stepVoice s) = s.voices :=
    (List.map_congr_left fun v hv => stepVoice_idle (h v hv)).trans (List.map_id _)
  rw [State.soundFrame, hsum, hvoices, outFrame_zero]
  rfl

theorem State.dispatchDue_of_late {s : State} {t : Nat} (h : ∀ e ∈ s.queue, t < e.ofs.toNat) : s.dispatchDue t = s := by
  cases hq : s.queue with
  | nil => exact State.dispatchDue_of_nil hq t
  | cons e q => exact State.dispatchDue_of_not_due hq (h e (by simp [hq]))

/-- Frames with every voice IDLE and no message due are silent and change nothing (R258, R262). -/
theorem renderLoop_of_silent {s : State} {k t : Nat} (hidle : ∀ v ∈ s.voices, v.stage = .idle)
    (hlate : ∀ e ∈ s.queue, t + k ≤ e.ofs.toNat) : renderLoop k t s = s.emit (List.replicate k silence) := by
  induction k generalizing t s with
  | zero => rw [renderLoop, List.replicate_zero, State.emit_nil]
  | succ k ih =>
    have hnone : ∀ e ∈ s.queue, t < e.ofs.toNat := fun e he => by have := hlate e he; omega
    rw [renderLoop, State.renderFrame, State.dispatchDue_of_late hnone, State.soundFrame_of_idle hidle,
      ih (s := s.emit [silence]) hidle fun e he => by have := hlate e he; omega,
      State.emit_emit, List.singleton_append, List.replicate_succ]

theorem State.qFlush_of_nil {s : State} (h : s.queue = []) (n : Nat) : s.qFlush n = s := by
  have hflushed : flushed n s.queue = s.queue := by rw [h]; rfl
  rw [State.qFlush, hflushed, State.setQueue_self]

theorem State.fastPath_iff (s : State) :
    (s.activeCount = 0 ∧ s.qEmpty = true) ↔ (∀ v ∈ s.voices, v.stage = .idle) ∧ s.queue = [] := by
  rw [State.qEmpty_iff, State.activeCount, List.countP_eq_zero]
  simp [Voice.busy_iff]

/-- The frame loop and the flush of a silent pool with an empty queue. -/
theorem qFlush_renderLoop_of_silent {s : State} (hidle : ∀ v ∈ s.voices, v.stage = .idle) (hq : s.queue = [])
    (n : Nat) : (renderLoop n 0 s).qFlush n = s.emit (List.replicate n silence) := by
  rw [renderLoop_of_silent hidle (by simp [hq]), State.qFlush_of_nil (by exact hq)]

/-- R250, R258: the fast path is the loop. -/
theorem State.render_eq_loop (n : Nat) (s : State) : s.render n = (renderLoop n 0 s.bridge).qFlush n := by
  unfold State.render
  dsimp only
  split_ifs with hfast
  · obtain ⟨hidle, hq⟩ := s.bridge.fastPath_iff.1 hfast
    exact (qFlush_renderLoop_of_silent hidle hq n).symm
  · rfl

theorem exec_process (n : BitVec 16) (s : State) :
    exec (.process n) s = .next ((renderLoop n.toNat 0 s.bridge).qFlush n.toNat) :=
  congrArg _ (s.render_eq_loop n.toNat)

/-! ## What the bridge can write -/

theorem State.bridge_frame (s : State) :
    s.bridge = { s with
      queue := s.bridge.queue, lastKey := s.curKey, status := s.bridge.status, dropCount := s.bridge.dropCount } := by
  obtain ⟨q, k, -, h | h⟩ := s.bridge_cases <;> rw [h] <;> rfl

theorem State.bridge_status (s : State) : s.bridge.status = s.status ∨ s.bridge.status = s.status ||| 0x1#32 := by
  obtain ⟨q, k, -, h | h⟩ := s.bridge_cases <;> rw [h]
  · exact .inl rfl
  · exact .inr rfl

@[simp] theorem State.bridge_voices (s : State) : s.bridge.voices = s.voices := by rw [State.bridge_frame]

@[simp] theorem State.addForKey_bs (make : Note → Entry) (k : Key) (s : State) : (s.addForKey make k).bs = s.bs := by
  cases k with
  | none => rfl
  | some n => rcases State.qAdd_eq (make n) s with ⟨h, -⟩ | ⟨h, -⟩ <;> rw [State.addForKey, h] <;> rfl

/-- A message made from a key is in the queue, or the queue is full. -/
theorem State.eq_none_of_addForKey_nil {make : Note → Entry} {k : Key} {s : State} (hbs : s.bs ≠ 0#16)
    (h : (s.addForKey make k).queue = []) : k = none ∧ s.queue = [] := by
  cases k with
  | none => exact ⟨rfl, h⟩
  | some n =>
    rcases State.qAdd_eq (make n) s with ⟨hadd, -⟩ | ⟨hadd, hfull⟩ <;> rw [State.addForKey, hadd] at h
    · have hlen := qInsert_length (make n) s.queue
      rw [State.setQueue_queue] at h
      simp [h] at hlen
    · have hq : s.queue = [] := h
      rw [hq] at hfull
      exact absurd (BitVec.eq_of_toNat_eq (Nat.le_zero.1 hfull)) hbs

/-- An empty queue after the bridge means that no key has changed. -/
theorem State.bridge_of_nil {s : State} (hbs : s.bs ≠ 0#16) (h : s.bridge.queue = []) : s.bridge = s := by
  by_cases hkey : s.curKey = s.lastKey
  · exact State.bridge_of_same hkey
  · rw [State.bridge_of_change hkey] at h
    obtain ⟨hcur, hoff⟩ := State.eq_none_of_addForKey_nil (by simpa using hbs) h
    obtain ⟨hlast, -⟩ := State.eq_none_of_addForKey_nil hbs hoff
    exact absurd (hcur.trans hlast.symm) hkey

/-- Settles O48: with nothing to dispatch the bridge changed nothing, and the loop is silent. -/
theorem fastPathEqualsTheLoop : Obligations.FastPathEqualsTheLoop := by
  intro n s hbs hidle hq
  have hloop := qFlush_renderLoop_of_silent hidle hq n.toNat
  rw [exec_process, hloop, State.bridge_of_nil hbs hq]
  exact ⟨rfl, rfl⟩

/-! ## The length of the voice file -/

theorem State.noteOn_voices_length (n : Note) (v : Velocity) (s : State) :
    (s.noteOn n v).voices.length = s.voices.length := by
  unfold State.noteOn
  split
  · simp [State.allocate, State.startAt]
  · split <;> simp [State.allocate, State.startAt, State.releaseAt]

theorem State.noteOff_voices_length (n : Note) (s : State) : (s.noteOff n).voices.length = s.voices.length := by
  unfold State.noteOff
  split
  · rfl
  · simp [State.releaseAt]

theorem State.dispatch_voices_length (e : Entry) (s : State) : (s.dispatch e).voices.length = s.voices.length := by
  rcases State.dispatch_cases e with ⟨n, v, -, h⟩ | ⟨n, h⟩ | h <;> rw [h s]
  · exact s.noteOn_voices_length n v
  · exact s.noteOff_voices_length n

theorem State.dispatchAll_voices_length (es : List Entry) (s : State) :
    (s.dispatchAll es).voices.length = s.voices.length := by
  induction es generalizing s with
  | nil => rfl
  | cons e es ih => exact (ih (s.dispatch e)).trans (s.dispatch_voices_length e)

theorem State.renderFrame_voices_length (t : Nat) (s : State) :
    (s.renderFrame t).voices.length = s.voices.length := by
  have hsound : (s.renderFrame t).voices.length = (s.dispatchDue t).voices.length := List.length_map _
  rw [hsound, State.dispatchDue, dispatchLoop_eq]
  exact s.dispatchAll_voices_length _

theorem renderLoop_voices_length (k t : Nat) (s : State) : (renderLoop k t s).voices.length = s.voices.length := by
  induction k generalizing t s with
  | zero => rfl
  | succ k ih => exact (ih (t + 1) (s.renderFrame t)).trans (s.renderFrame_voices_length t)

/-- Settles O44: the loop writes the voices, the queue and the frames, the flush the queue, and the bridge the rest. -/
theorem processEmitsExactlyNFrames : Obligations.ProcessEmitsExactlyNFrames := by
  intro n s
  obtain ⟨out, hlen, hchannels, hloop⟩ := renderLoop_eq n.toNat 0 s.bridge
  have hvoices : (renderLoop n.toNat 0 s.bridge).voices.length = s.voices.length :=
    (renderLoop_voices_length ..).trans (congrArg List.length s.bridge_voices)
  generalize (renderLoop n.toNat 0 s.bridge).voices = vs,
    (renderLoop n.toNat 0 s.bridge).queue = q at hloop hvoices
  refine ⟨_, out, exec_process n s, hlen, hchannels, ?_, ?_, ?_⟩ <;> rw [hloop]
  · rw [State.bridge_frame s]
    rfl
  · exact hvoices
  · exact s.bridge_status

/-! ## Frames on an ordered queue -/

theorem State.renderFrame_of_sorted {s : State} (h : Sorted s.queue) (t : Nat) :
    s.renderFrame t = ((s.dispatchAll (s.queue.filter fun e => decide (e.ofs.toNat ≤ t))).setQueue
      (s.queue.filter fun e => decide (t < e.ofs.toNat))).soundFrame :=
  congrArg State.soundFrame (State.dispatchDue_of_sorted h t)

theorem State.renderFrame_queue {s : State} (h : Sorted s.queue) (t : Nat) :
    (s.renderFrame t).queue = s.queue.filter fun e => decide (t < e.ofs.toNat) := by
  rw [State.renderFrame_of_sorted h]
  rfl

/-- What a flush keeps was kept by the frames before it. -/
theorem flushed_filter {t n : Nat} (h : t < n) (q : List Entry) :
    flushed n (q.filter fun e => decide (t < e.ofs.toNat)) = flushed n q := by
  rw [flushed, flushed, List.filter_filter, List.filter_congr fun e _ => ?_]
  rw [← Bool.decide_and, decide_eq_decide]
  omega

theorem flushed_renderLoop {s : State} (h : Sorted s.queue) {k t n : Nat} (hn : t + k ≤ n) :
    flushed n (renderLoop k t s).queue = flushed n s.queue := by
  induction k generalizing t s with
  | zero => rfl
  | succ k ih =>
    have hq := State.renderFrame_queue h t
    rw [renderLoop, ih (hq ▸ h.filter _) (by omega), hq, flushed_filter (by omega)]

/-- R227 in the block's own width. -/
theorem flushed_toNat (n : BitVec 16) (q : List Entry) :
    flushed n.toNat q =
      (q.filter fun e => decide (n.toNat ≤ e.ofs.toNat)).map fun e => { e with ofs := e.ofs - n } := by
  refine List.map_congr_left fun e he => ?_
  have hle : n.toNat ≤ e.ofs.toNat := by simpa using (List.mem_filter.1 he).2
  have hofs : BitVec.ofNat 16 (e.ofs.toNat - n.toNat) = e.ofs - n :=
    BitVec.eq_of_toNat_eq (by rw [BitVec.toNat_sub_of_le hle, BitVec.toNat_ofNat]; omega)
  rw [Entry.earlier, hofs]

/-- Settles O45: one frame on an ordered queue, written out; the flush drops what the frame dispatched. -/
theorem processOneRendersOneFrame : Obligations.ProcessOneRendersOneFrame := by
  intro s h hkey d stepped term o
  obtain ⟨-, -, ⟨-, -, hsorted⟩, -⟩ := h
  have hstepped : stepVoice s = stepped := funext fun v => stepVoice_eq s v
  have hterm : voiceTerm s = term := by
    funext v
    by_cases hv : v.stage = .idle
    · exact (voiceTerm_of_idle s hv).trans (if_pos hv).symm
    · rw [voiceTerm_of_busy s hv, hstepped]
      exact (if_neg hv).symm
  have hdue : s.dispatchAll (s.queue.filter fun e => decide (e.ofs.toNat ≤ 0)) = s.setVoices d.voices := by
    simp only [Nat.le_zero]
    exact State.dispatchAll_eq _ s
  have hqueue : flushed 1 s.queue =
      (s.queue.filter fun e => decide (e.ofs.toNat ≠ 0)).map fun e => { e with ofs := e.ofs - 1#16 } := by
    simp only [← Nat.one_le_iff_ne_zero]
    exact flushed_toNat 1#16 s.queue
  have hframe := State.renderFrame_of_sorted hsorted 0
  rw [hdue, State.soundFrame_setVoices_setQueue, hstepped, hterm] at hframe
  have hloop : renderLoop (1#16).toNat 0 s = s.renderFrame 0 := rfl
  rw [exec_process, State.bridge_of_same hkey, hloop, hframe, ← hqueue, ← flushed_filter Nat.zero_lt_one]
  rfl

/-! ## The queue after a block -/

theorem flushed_qInsert_of_early {n : Nat} {e : Entry} (h : e.ofs.toNat < n) (q : List Entry) :
    flushed n (qInsert e q) = flushed n q := by
  rw [flushed, qInsert, List.filter_append, List.filter_cons_of_neg (by simpa using h), ← List.filter_append,
    List.take_append_drop, flushed]

theorem flushed_addForKey {n : Nat} (hn : 0 < n) {make : Note → Entry} (hmake : ∀ k, (make k).ofs = 0#16) (k : Key)
    (s : State) : flushed n (s.addForKey make k).queue = flushed n s.queue := by
  cases k with
  | none => rfl
  | some k =>
    rcases State.qAdd_eq (make k) s with ⟨h, -⟩ | ⟨h, -⟩ <;> rw [State.addForKey, h]
    · exact flushed_qInsert_of_early (by rw [hmake]; exact hn) s.queue
    · rfl

/-- The bridge's messages are due in the first frame (R251). -/
theorem flushed_bridge {n : Nat} (hn : 0 < n) (s : State) : flushed n s.bridge.queue = flushed n s.queue := by
  by_cases hkey : s.curKey = s.lastKey
  · rw [State.bridge_of_same hkey]
  · rw [State.bridge_of_change hkey, State.setLastKey_queue, flushed_addForKey hn (fun _ => rfl),
      flushed_addForKey hn (fun _ => rfl)]

/-- Settles O50: neither the bridge nor the frames change what the flush leaves. -/
theorem queueAfterABlock : Obligations.QueueAfterABlock := by
  intro n s h hn
  obtain ⟨-, -, ⟨-, -, hsorted⟩, -⟩ := h.bridge
  obtain ⟨-, -, ⟨-, hlt, -⟩, -⟩ := h
  have hpos : 0 < n.toNat := Nat.pos_of_ne_zero fun hzero => hn (BitVec.eq_of_toNat_eq hzero)
  have hqueue : flushed n.toNat (renderLoop n.toNat 0 s.bridge).queue = flushed n.toNat s.queue :=
    (flushed_renderLoop hsorted (by omega)).trans (flushed_bridge hpos s)
  refine ⟨_, exec_process n s, hqueue.trans (flushed_toNat n s.queue), fun hle => ?_⟩
  exact hqueue.trans (flushed_of_early fun e he => (hlt e he).trans_le hle)

/-! ## The first note -/

theorem msgWord_noteOn (c : BitVec 4) (n : Note) (v : Velocity) :
    msgWord (9#4 ++ c) (n.setWidth 8) (v.setWidth 8) = 9#4 ++ c ++ 0#1 ++ n ++ 0#1 ++ v := by
  have hn := n.isLt
  have hv := v.isLt
  refine BitVec.eq_of_toNat_eq ?_
  simp only [msgWord, append_toNat, BitVec.toNat_setWidth, BitVec.reduceToNat]
  omega

theorem State.dispatch_noteOn (c : BitVec 4) (n : Note) {v : Velocity} (hv : v ≠ 0#7) (ofs : BitVec 16) (s : State) :
    s.dispatch ⟨9#4 ++ c, n.setWidth 8, v.setWidth 8, ofs⟩ = s.noteOn n v := by
  rw [State.dispatch, msgWord_noteOn, decodeMsg_noteOn c n v hv]

/-- At phase 0 both lookups read `TABLE[0]` (R142, R143). -/
theorem oscSample_zero {c : Config} (h : c.W ≤ 16) : oscSample c 0#32 = tableRead c 0 := by
  cases hl : c.lookup with
  | nearest =>
    have hhalf : 2 ^ (fracBits c - 1) < 2 ^ fracBits c :=
      Nat.pow_lt_pow_right (by decide) (by rw [fracBits]; omega)
    rw [oscSample_nearest hl, sampleNearest, Nat.div_eq_of_lt]
    exact (Nat.mod_le ..).trans_lt (by simpa using hhalf)
  | linear => simp [oscSample_linear hl, sampleLinear]

/-- The first attack step from level 0 (R163). -/
theorem envAttack_lvl_of_zero {s : State} {v : Voice} (h : v.lvl = 0#31) :
    (envAttack s v).lvl.toNat = min ONE s.attackInc := by
  have hzero : v.lvl.toNat = 0 := by rw [h]; rfl
  by_cases hend : ONE ≤ v.lvl.toNat + s.attackInc
  · rw [envAttack_end hend, levelOf_toNat le_rfl]
    omega
  · rw [envAttack_go (by omega), levelOf_toNat (by omega)]
    omega

/-- The first sample of a note (R262). -/
theorem voiceTerm_of_first {s : State} (hW : s.cfg.W ≤ 16) {v : Voice} (hstage : v.stage = .attack)
    (hphase : v.phase = 0#32) (hlvl : v.lvl = 0#31) :
    voiceTerm s v = tableRead s.cfg 0 * (min ONE s.attackInc : Nat) * v.vel.toNat := by
  have hbusy : v.stage ≠ .idle := by simp [hstage]
  rw [voiceTerm_of_busy s hbusy, stepVoice_eq, if_neg hbusy, envProcess_attack (by exact hstage),
    envAttack_lvl_of_zero (by exact hlvl), hphase, oscSample_zero hW]

theorem sum_map_set {f : Voice → Int} {vs : List Voice} (h : ∀ u ∈ vs, f u = 0) {i : Nat} (hi : i < vs.length)
    (v : Voice) : ((vs.set i v).map f).sum = f v := by
  have hbefore : ((vs.take i).map f).sum = 0 :=
    List.sum_eq_zero (List.forall_mem_map.2 fun u hu => h u (List.mem_of_mem_take hu))
  have hafter : ((vs.drop (i + 1)).map f).sum = 0 :=
    List.sum_eq_zero (List.forall_mem_map.2 fun u hu => h u (List.mem_of_mem_drop hu))
  rw [List.set_eq_take_append_cons_drop, if_pos hi, List.map_append, List.map_cons, List.sum_append, List.sum_cons,
    hbefore, hafter, zero_add, add_zero]

/-- R262: the frame of a first note-on, from an all-IDLE pool. -/
theorem State.Inv.renderFrame_noteOn {s : State} (h : s.Inv) (hidle : ∀ u ∈ s.voices, u.stage = .idle)
    {k : BitVec 16} {c : BitVec 4} {n : Note} {v : Velocity} (hv : v ≠ 0#7)
    (hq : s.queue = [⟨9#4 ++ c, n.setWidth 8, v.setWidth 8, k⟩]) :
    (s.renderFrame k.toNat).frames =
      s.frames ++ [outFrame (tableRead s.cfg 0 * (min ONE s.attackInc : Nat) * v.toNat)] := by
  have hne := h.voices_ne_nil
  obtain ⟨hcfg, ⟨-, hok, -⟩, -⟩ := h
  obtain ⟨-, -, -, hW, -⟩ := (configLegal_iff s.cfg).1 hcfg
  have hunbound : ∀ u ∈ s.voices, u.key ≠ some n := fun u hu => by simp [(hok u hu).key_of_idle (hidle u hu)]
  have hdue : s.dispatchDue k.toNat =
      (s.setVoices (s.voices.set (findFreeVoice s.voices) (startedVoice n v s.sr))).setQueue [] := by
    rw [State.dispatchDue_of_due hq le_rfl, State.dispatch_noteOn c n hv,
      State.noteOn_of_unbound (s := s.setQueue []) v hunbound, State.dispatchDue_of_nil rfl]
    rfl
  have hsum := sum_map_set (fun u hu => voiceTerm_of_idle s (hidle u hu)) (findFreeVoice_lt hne)
    (startedVoice n v s.sr)
  rw [voiceTerm_of_first hW rfl rfl rfl] at hsum
  rw [State.renderFrame, hdue, State.soundFrame_setVoices_setQueue, hsum]
  rfl

/-- Settles O51: silent frames before the note's, its frame, and whatever the frames after it emit. -/
theorem noteSoundsFromItsFrame : Obligations.NoteSoundsFromItsFrame := by
  intro s k n c note v h hidle hkey hv hq hkn
  have hsplit : n.toNat = k.toNat + ((n.toNat - k.toNat - 1) + 1) := by omega
  have hsilent : renderLoop k.toNat 0 s = s.emit (List.replicate k.toNat silence) :=
    renderLoop_of_silent hidle (by simp [hq])
  have hfirst := (h.emit (List.replicate k.toNat silence)).renderFrame_noteOn hidle hv hq
  obtain ⟨rest, -, -, hrest⟩ := renderLoop_eq (n.toNat - k.toNat - 1) (k.toNat + 1)
    ((s.emit (List.replicate k.toNat silence)).renderFrame k.toNat)
  refine ⟨_, rest, exec_process n s, ?_⟩
  have hframes : (renderLoop n.toNat 0 s.bridge).frames =
      ((s.emit (List.replicate k.toNat silence)).renderFrame k.toNat).frames ++ rest := by
    rw [State.bridge_of_same hkey, hsplit, renderLoop_add, hsilent, Nat.zero_add, renderLoop, hrest]
    rfl
  refine hframes.trans ?_
  rw [hfirst, List.append_assoc]
  rfl

end Sys2Proof.Machine
end

