-- ==== Sys2Proof/Proofs/Bridge.lean ====
section
/-! The bridge (spec/44_render.md, R251). The idea: its messages, at most two, are a list of messages at offset 0, and
adding such a list to an ordered queue puts what fits behind the messages already at offset 0 and loses the rest. -/

namespace Sys2Proof.Machine

/-! ## Losses -/

/-- QOVF set and `k` messages counted, if any is lost (R41, R221). -/
def State.overflow (k : Nat) (s : State) : State := if 0 < k then (s.setFlag .qovf).lose k else s

theorem State.overflow_eq (k : Nat) (s : State) :
    s.overflow k = { s with
      status := if 0 < k then s.status ||| 0x1#32 else s.status
      dropCount := BitVec.ofNat 32 (min (s.dropCount.toNat + k) (2 ^ 32 - 1)) } := by
  cases k with
  | zero => exact (lose_zero s).symm
  | succ k => rfl

@[simp] theorem State.overflow_zero (s : State) : s.overflow 0 = s := rfl

/-- Losses add up, and QOVF is set once. -/
theorem State.overflow_overflow_one (k : Nat) (s : State) : (s.overflow 1).overflow k = s.overflow (k + 1) := by
  cases k with
  | zero => rfl
  | succ k =>
    have hflag : ((s.setFlag .qovf).lose 1).setFlag .qovf = (s.setFlag .qovf).lose 1 :=
      congrArg (State.lose 1) (setFlag_setFlag .qovf s)
    have hsum : ((s.setFlag .qovf).lose 1).lose (k + 1) = (s.setFlag .qovf).lose (k + 1 + 1) := by
      rw [lose_lose, Nat.add_comm 1]
    rw [State.overflow, State.overflow, State.overflow, if_pos k.succ_pos, if_pos Nat.one_pos, if_pos (k + 1).succ_pos,
      hflag, hsum]

@[simp] theorem State.overflow_queue (k : Nat) (s : State) : (s.overflow k).queue = s.queue := by
  rw [State.overflow_eq]

@[simp] theorem State.overflow_bs (k : Nat) (s : State) : (s.overflow k).bs = s.bs := by rw [State.overflow_eq]

/-! ## Messages at offset 0 -/

/-- Adding messages in turn. -/
def State.addAll (es : List Entry) (s : State) : State := es.foldl (fun a e => a.qAdd e) s

/-- The queue with `es` behind the messages at offset 0. -/
def behindFirst (es q : List Entry) : List Entry :=
  q.filter (fun e => decide (e.ofs.toNat = 0)) ++ es ++ q.filter (fun e => decide (e.ofs.toNat ≠ 0))

theorem behindFirst_nil {q : List Entry} (h : Sorted q) : behindFirst [] q = q := by
  obtain ⟨htake, hdrop⟩ := take_countP_of_sorted h 0
  have happend := List.take_append_drop (q.countP fun e => decide (e.ofs.toNat ≤ 0)) q
  rw [htake, hdrop] at happend
  simpa only [behindFirst, List.append_nil, Nat.le_zero, Nat.pos_iff_ne_zero] using happend

/-- An insertion at offset 0 into an ordered queue (R221). -/
theorem qInsert_of_first {e : Entry} (he : e.ofs = 0#16) {q : List Entry} (h : Sorted q) :
    qInsert e q = behindFirst [e] q := by
  have hzero : e.ofs.toNat = 0 := by rw [he]; rfl
  simp only [qInsert_of_sorted h, hzero, behindFirst, Nat.le_zero, Nat.pos_iff_ne_zero, List.append_assoc,
    List.singleton_append]

theorem behindFirst_behindFirst {es : List Entry} (hes : ∀ e ∈ es, e.ofs = 0#16) (fs q : List Entry) :
    behindFirst fs (behindFirst es q) = behindFirst (es ++ fs) q := by
  have hfirst : es.filter (fun e => decide (e.ofs.toNat = 0)) = es :=
    List.filter_eq_self.2 fun e he => by simp [hes e he]
  have hlater : es.filter (fun e => decide (e.ofs.toNat ≠ 0)) = [] :=
    List.filter_eq_nil_iff.2 fun e he => by simp [hes e he]
  simp only [behindFirst, List.filter_append, hfirst, hlater, List.filter_filter]
  simp

/-- R221, R251: messages at offset 0 stand behind those already there, as many as there is room for. -/
theorem State.addAll_first {es : List Entry} (hes : ∀ e ∈ es, e.ofs = 0#16) {s : State} (h : Sorted s.queue) :
    s.addAll es = (s.overflow (es.length - (s.bs.toNat - s.queue.length))).setQueue
      (behindFirst (es.take (s.bs.toNat - s.queue.length)) s.queue) := by
  induction es generalizing s with
  | nil => simp [State.addAll, behindFirst_nil h]
  | cons e es ih =>
    obtain ⟨he, hes⟩ := List.forall_mem_cons.1 hes
    have hfold : s.addAll (e :: es) = (s.qAdd e).addAll es := rfl
    rcases State.qAdd_eq e s with ⟨hadd, hroom⟩ | ⟨hadd, hfull⟩
    · have hqueue := qInsert_of_first he h
      obtain ⟨room, hr⟩ : ∃ room, s.bs.toNat - s.queue.length = room + 1 := ⟨_, (Nat.succ_pred (by omega)).symm⟩
      have hroom' : s.bs.toNat - (qInsert e s.queue).length = room := by rw [qInsert_length]; omega
      rw [hfold, hadd, ih hes (h.qInsert e), State.setQueue_queue, State.setQueue_bs, hroom', hqueue,
        behindFirst_behindFirst (by simpa using he), hr, List.length_cons, Nat.add_sub_add_right, List.take_succ_cons]
      rw [State.overflow_eq, State.overflow_eq]
      rfl
    · have hr : s.bs.toNat - s.queue.length = 0 := Nat.sub_eq_zero_of_le hfull
      have hlost : s.qAdd e = s.overflow 1 := hadd
      rw [hfold, hlost, ih hes (by simpa using h)]
      simp only [State.overflow_queue, State.overflow_bs, hr, Nat.sub_zero, List.take_zero, List.length_cons,
        State.overflow_overflow_one]

/-! ## A key change -/

theorem State.addForKey_eq_addAll (make : Note → Entry) (k : Key) (s : State) :
    s.addForKey make k = s.addAll (k.toList.map make) := by
  cases k <;> rfl

theorem State.addAll_addAll (es fs : List Entry) (s : State) : (s.addAll es).addAll fs = s.addAll (es ++ fs) :=
  List.foldl_append.symm

/-- R250: PROCESS 0 is the bridge alone. -/
theorem exec_process_zero (s : State) : exec (.process 0#16) s = .next s.bridge := by
  have hflush : s.bridge.qFlush 0 = s.bridge := congrArg (State.setQueue · s.bridge) (flushed_zero s.bridge.queue)
  exact (exec_process 0#16 s).trans (congrArg _ hflush)

/-- Settles O49: the bridge adds the messages of the two keys, all at offset 0, and writes LAST_KEY. -/
theorem bridgeQueuesAKeyChange : Obligations.BridgeQueuesAKeyChange := by
  intro s h
  obtain ⟨-, -, ⟨-, -, hsorted⟩, -⟩ := h
  rw [exec_process_zero]
  refine ⟨fun hkey => by rw [State.bridge_of_same hkey], fun hkey => ?_⟩
  intro off on room lost
  have hfirst : ∀ e ∈ off ++ on, e.ofs = 0#16 := by
    intro e he
    rcases List.mem_append.1 he with he | he <;> obtain ⟨k, -, rfl⟩ := List.mem_map.1 he <;> rfl
  have hadded : (s.addForKey bridgeOff s.lastKey).addForKey (bridgeOn s.cfg.bridgeVel) s.curKey =
      s.addAll (off ++ on) := by
    rw [State.addForKey_eq_addAll, State.addForKey_eq_addAll, State.addAll_addAll]
    rfl
  rw [State.bridge_of_change hkey, hadded, State.addAll_first hfirst hsorted, State.overflow_eq]
  rfl

end Sys2Proof.Machine
end

