-- ==== Sys2Proof/Proofs/IgnoredMessages.lean ====
section
/-! That a message of no note class has no effect but its place in the queue (spec/44_render.md, R252, R261, R324 (b)).
The idea: leaving such messages out of an ordered queue commutes with every operation of a block. -/

namespace Sys2Proof.Machine

/-! ## Messages that act -/

/-- The message is a well-made note message (R114). -/
def Entry.acts (e : Entry) : Bool :=
  decide (0x80 ≤ e.st.toNat ∧ e.st.toNat < 0xA0 ∧ e.d1.toNat < 0x80 ∧ e.d2.toNat < 0x80)

/-- R252, R261: any other message is dispatched without effect. -/
theorem State.dispatch_of_not_acts {e : Entry} (h : e.acts = false) (s : State) : s.dispatch e = s := by
  have hne : ¬(0x80 ≤ e.st.toNat ∧ e.st.toNat < 0xA0 ∧ e.d1.toNat < 0x80 ∧ e.d2.toNat < 0x80) := of_decide_eq_false h
  obtain ⟨hnotStatus, hmalformed, -, -, -, hpitchWheel, hother⟩ := messageClassesOfR114 e.st e.d1 e.d2 s
  have hnext : exec (decodeMsg (msgWord e.st e.d1 e.d2)) s = .next s := by
    by_cases hstatus : e.st.toNat < 0x80
    · exact (hnotStatus hstatus).2
    by_cases hnote : e.st.toNat < 0xA0
    · exact (hmalformed (by omega) hnote (by omega)).2
    by_cases hwheel : 0xE0 ≤ e.st.toNat ∧ e.st.toNat < 0xF0
    · obtain ⟨hlo, hhi⟩ := hwheel
      exact (hpitchWheel hlo hhi).2
    · exact (hother (by omega)).2
  exact Host.Outcome.next.inj ((exec_decodeMsg e s).symm.trans hnext)

theorem State.dispatchAll_filter_acts (es : List Entry) (s : State) :
    s.dispatchAll (es.filter Entry.acts) = s.dispatchAll es := by
  induction es generalizing s with
  | nil => rfl
  | cons e es ih =>
    have hcons (es : List Entry) : s.dispatchAll (e :: es) = (s.dispatch e).dispatchAll es := rfl
    cases he : e.acts with
    | true => rw [List.filter_cons_of_pos he, hcons, hcons, ih]
    | false => rw [List.filter_cons_of_neg (by simp [he]), hcons, State.dispatch_of_not_acts he, ih]

/-! ## A block without the messages that do not act -/

/-- The state with only the messages that act. -/
def State.onlyActing (s : State) : State := s.setQueue (s.queue.filter Entry.acts)

theorem filter_acts_comm (p : Entry → Bool) (q : List Entry) :
    (q.filter Entry.acts).filter p = (q.filter p).filter Entry.acts := by
  simp only [List.filter_filter, Bool.and_comm]

theorem State.renderFrame_onlyActing {s : State} (h : Sorted s.queue) (t : Nat) :
    s.onlyActing.renderFrame t = (s.renderFrame t).onlyActing := by
  have hsorted : Sorted s.onlyActing.queue := h.filter Entry.acts
  rw [State.renderFrame_of_sorted hsorted, State.renderFrame_of_sorted h, State.onlyActing, State.setQueue_queue,
    filter_acts_comm, filter_acts_comm, State.dispatchAll_filter_acts, State.dispatchAll_setQueue]
  rfl

theorem renderLoop_onlyActing {s : State} (h : Sorted s.queue) (k t : Nat) :
    renderLoop k t s.onlyActing = (renderLoop k t s).onlyActing := by
  induction k generalizing t s with
  | zero => rfl
  | succ k ih =>
    have hsorted : Sorted (s.renderFrame t).queue := State.renderFrame_queue h t ▸ h.filter _
    rw [renderLoop, State.renderFrame_onlyActing h, ih hsorted, renderLoop]

theorem flushed_filter_acts (n : Nat) (q : List Entry) :
    flushed n (q.filter Entry.acts) = (flushed n q).filter Entry.acts := by
  have hacts : Entry.acts ∘ Entry.earlier n = Entry.acts := rfl
  rw [flushed, flushed, filter_acts_comm, List.filter_map, hacts]

/-- Settles O54: with no key change the loop and the flush commute with leaving out the messages that do not act. -/
theorem ignoredMessagesAreSilent : Obligations.IgnoredMessagesAreSilent := by
  intro n s h hkey acts
  obtain ⟨-, -, ⟨-, -, hsorted⟩, -⟩ := h
  refine ⟨_, exec_process n s, (exec_process n s.onlyActing).trans (congrArg _ ?_)⟩
  rw [State.bridge_of_same (s := s.onlyActing) hkey, State.bridge_of_same hkey, renderLoop_onlyActing hsorted]
  exact congrArg (State.setQueue · (renderLoop n.toNat 0 s)) (flushed_filter_acts ..)

end Sys2Proof.Machine
end

