-- ==== Sys2Proof/Proofs/Commands.lean ====
section
/-! A command word's step, and the host commands that neither render nor read the register map
(spec/45_commands.md, R280 to R283, R285, R287, R288). The idea: each meaning is one or two of the state's named
writes; what is left is the queue's own arithmetic for RESET and MIDI. -/

namespace Sys2Proof.Machine

/-! ## The meanings -/

@[simp] theorem exec_qactive (s : State) :
    exec .qactive s = .next (s.respond (BitVec.ofNat 32 s.activeCount)) := rfl

theorem exec_reset_of_zero {bs : BitVec 16} {sr : BitVec 24} (s : State) (h : sr = 0#24 ∨ bs = 0#16) :
    exec (.reset bs sr) s = .next (s.setFlag .cfgerr) := if_pos h

theorem exec_midi_of_late {ofs : BitVec 16} {s : State} (st d1 d2 : BitVec 8) (h : s.bs.toNat ≤ ofs.toNat) :
    exec (.midi ofs st d1 d2) s = .next ((s.setFlag .ofserr).lose 1) := if_pos h

theorem exec_midi_of_lt {ofs : BitVec 16} {s : State} (st d1 d2 : BitVec 8) (h : ofs.toNat < s.bs.toNat) :
    exec (.midi ofs st d1 d2) s = .next (s.qAdd ⟨st, d1, d2, ofs⟩) := if_neg (Nat.not_le.2 h)

/-! ## A step -/

theorem runCommand_of_ok {w : CmdWord} {i : Instr} (h : decodeCmd w = .ok i) (s : State) :
    runCommand w s = exec i s := by
  simp only [runCommand, h]

/-- Settles O6: the step takes the word, and a word that decodes runs as its instruction. -/
theorem stepRunsTheDecodedInstruction : Obligations.StepRunsTheDecodedInstruction := by
  intro s t w i hcfg hslot htake hdecode
  rw [step_of_command hcfg hslot htake, runCommand_of_ok hdecode]

/-! ## The registers -/

/-- Settles O18: each parameter has its own register; the level SUSTAIN stores is `susOf`. -/
theorem paramWritesOneEnvelopeRegister : Obligations.ParamWritesOneEnvelopeRegister := by
  intro value s
  exact ⟨rfl, rfl, rfl, susOf value, susOf_toNat value, rfl⟩

/-- Settles O20: CUR_KEY is overwritten whole, so an earlier SETKEY leaves no trace. -/
theorem setkeyWritesOnlyCurKey : Obligations.SetkeyWritesOnlyCurKey := by
  intro k s
  refine ⟨rfl, fun j t ht => ?_⟩
  cases ht
  rfl

/-- R287: bit by bit, a flag is left unless the mask selects it; bits 31:5 are outside the mask. -/
theorem State.clearFlags_getLsbD (flags : BitVec 5) (s : State) (b : Nat) :
    (s.clearFlags flags).status.getLsbD b = (s.status.getLsbD b && !flags.getLsbD b) := by
  rw [State.clearFlags_status, BitVec.getLsbD_and, BitVec.getLsbD_not, BitVec.getLsbD_setWidth]
  by_cases hb : b < 32
  · simp [hb]
  · simp [BitVec.getLsbD_of_ge s.status b (Nat.le_of_not_lt hb)]

/-- Settles O25: the STATUS written is that of `clearFlags`. -/
theorem clrstatClearsWhatItSelects : Obligations.ClrstatClearsWhatItSelects := by
  intro flags drops s
  exact ⟨(s.clearFlags flags).status, s.clearFlags_getLsbD flags, rfl⟩

/-! ## QACTIVE -/

/-- R49: ACTIVE counts the voices whose stage is not IDLE. -/
theorem State.activeCount_eq (s : State) :
    s.activeCount = (s.voices.filter fun v => decide (v.stage ≠ .idle)).length := by
  have hbusy : Voice.busy = fun v => decide (v.stage ≠ .idle) :=
    funext fun v => Bool.eq_iff_iff.2 (by rw [Voice.busy_iff, decide_eq_true_iff])
  rw [State.activeCount, List.countP_eq_length_filter, hbusy]

theorem State.Inv.length_voices {s : State} (h : s.Inv) : s.voices.length = s.cfg.P ∧ s.cfg.P ≤ 32 := by
  obtain ⟨hcfg, ⟨hlen, -⟩, -⟩ := h
  obtain ⟨-, hP, -⟩ := (configLegal_iff s.cfg).1 hcfg
  exact ⟨hlen, hP⟩

/-- Settles O21: the busy voices are some of at most 32, so their number fits the response word. -/
theorem qactiveCountsTheBusyVoices : Obligations.QactiveCountsTheBusyVoices := by
  intro s h busy
  obtain ⟨hlen, hP⟩ := h.length_voices
  have hbusy : busy ≤ s.cfg.P := hlen ▸ List.length_filter_le ..
  refine ⟨hbusy, (BitVec.toNat_ofNat ..).trans (Nat.mod_eq_of_lt (by omega)), ?_⟩
  rw [exec_qactive, State.activeCount_eq]
  rfl

/-! ## RESET -/

/-- R226: what a resize writes, whether or not it discards an entry. -/
theorem State.qResize_eq (n : Nat) (s : State) :
    s.qResize n = { s with
      queue := resized n s.queue
      status := if 0 < s.queue.length - (resized n s.queue).length then s.status ||| 0x4#32 else s.status
      dropCount := BitVec.ofNat 32
        (min (s.dropCount.toNat + (s.queue.length - (resized n s.queue).length)) (2 ^ 32 - 1)) } := by
  rcases Nat.eq_zero_or_pos (s.queue.length - (resized n s.queue).length) with hk | hk
  · rw [State.qResize_keeps hk, hk]
    exact congrArg (State.setQueue _) (lose_zero s).symm
  · rw [State.qResize_drops hk, if_pos hk]
    rfl

/-- Settles O16: the guard of RESET, then the resize of the queue under the new rates. -/
theorem resetReconfiguresRatesAndQueue : Obligations.ResetReconfiguresRatesAndQueue := by
  intro bs sr s
  refine ⟨fun h => exec_reset_of_zero s h, fun hsr hbs => ?_⟩
  intro keep kept k
  have hkept : kept = resized bs.toNat s.queue := by
    rw [resized, List.take_eq_take_min, Nat.min_comm]
  rw [exec_reset_of_ne_zero s hsr hbs, State.qResize_eq]
  simp only [k, hkept]
  rfl

/-! ## MIDI -/

/-- Settles O19: the offset is checked first, then QAdd finds the queue full or with room. -/
theorem midiQueuesOrDropsOneMessage : Obligations.MidiQueuesOrDropsOneMessage := by
  intro ofs st d1 d2 s lost
  refine ⟨fun hlate => exec_midi_of_late st d1 d2 hlate, fun hlt hfull => ?_, fun hlt hroom hq => ?_⟩
  · rw [exec_midi_of_lt st d1 d2 hlt, State.qAdd_full hfull]
    rfl
  · obtain ⟨-, -, hsorted⟩ := hq
    rw [exec_midi_of_lt st d1 d2 hlt, State.qAdd_room hroom, qInsert_of_sorted hsorted]
    rfl

end Sys2Proof.Machine
end

