-- ==== Sys2Proof/Proofs/Registers.lean ====
section
/-! The register map that RDREG reads (spec/20_memory.md, R83; spec/45_commands.md, R286). The idea: a number lies in
one of three blocks, and in the voice and queue blocks it is a base, an index times the block's stride and a field. -/

namespace Sys2Proof.Machine

/-! ## RDREG by the answer of the map -/

theorem exec_rdreg_of_some {s : State} {r : Nat} (hr : r < 2 ^ 24) {v : BitVec 32} (h : readReg s r = some v) :
    exec (.rdreg (BitVec.ofNat 24 r)) s = .next (s.respond v) := by
  have hreg : readReg s (BitVec.ofNat 24 r).toNat = some v := by rwa [BitVec.toNat_ofNat, Nat.mod_eq_of_lt hr]
  simp only [exec, execRdreg, hreg]

theorem exec_rdreg_of_none {s : State} {reg : BitVec 24} (h : readReg s reg.toNat = none) :
    exec (.rdreg reg) s = .next ((s.setFlag .badcmd).respond 0#32) := by
  simp only [exec, execRdreg, h]

/-! ## The three blocks of numbers -/

theorem readReg_global {r : Nat} (s : State) (h : r < 0x100) : readReg s r = globalReg s r := by
  rw [readReg, if_pos h]

theorem readReg_voice {r : Nat} (s : State) (h : 0x100 ≤ r) (h' : r < 0x100000) :
    readReg s r = s.voices[(r - 0x100) / 8]?.bind fun v => voiceField v ((r - 0x100) % 8) := by
  rw [readReg, if_neg (Nat.not_lt.2 h), if_pos h']
  split
  next v hv => rw [hv, Option.bind_some]
  next hv => rw [hv, Option.bind_none]

theorem readReg_entry {r : Nat} (s : State) (h : 0x100000 ≤ r) :
    readReg s r = s.queue[(r - 0x100000) / 2]?.map fun e => entryField e ((r - 0x100000) % 2) := by
  rw [readReg, if_neg (by omega), if_neg (Nat.not_lt.2 h)]
  cases s.queue[(r - 0x100000) / 2]? <;> rfl

theorem globalReg_of_ge {r : Nat} (s : State) (h : 0xD ≤ r) : globalReg s r = none := by
  obtain ⟨k, rfl⟩ := Nat.exists_eq_add_of_le' h
  rfl

/-! ## The registers of a voice and of a queue entry -/

/-- Register `f` of voice `i`; with at most 32 voices its number is in the voice block. -/
theorem State.Inv.readReg_voice_field {s : State} (h : s.Inv) {i f : Nat} {v : Voice} (hv : s.voices[i]? = some v)
    (hf : f < 8) : 0x100 + 8 * i + f < 2 ^ 24 ∧ readReg s (0x100 + 8 * i + f) = voiceField v f := by
  obtain ⟨hlen, hP⟩ := h.length_voices
  obtain ⟨hi, -⟩ := List.getElem?_eq_some_iff.1 hv
  have hindex : (0x100 + 8 * i + f - 0x100) / 8 = i := by omega
  have hfield : (0x100 + 8 * i + f - 0x100) % 8 = f := by omega
  refine ⟨by omega, ?_⟩
  rw [readReg_voice s (by omega) (by omega), hindex, hfield, hv, Option.bind_some]

/-- Word `f` of queue entry `j`; with at most BS entries its number has 24 bits. -/
theorem State.Inv.readReg_entry_field {s : State} (h : s.Inv) {j f : Nat} {e : Entry} (he : s.queue[j]? = some e)
    (hf : f < 2) : 0x100000 + 2 * j + f < 2 ^ 24 ∧ readReg s (0x100000 + 2 * j + f) = some (entryField e f) := by
  obtain ⟨-, -, ⟨hlen, -⟩, -⟩ := h
  obtain ⟨hj, -⟩ := List.getElem?_eq_some_iff.1 he
  have hbs := s.bs.isLt
  have hindex : (0x100000 + 2 * j + f - 0x100000) / 2 = j := by omega
  have hfield : (0x100000 + 2 * j + f - 0x100000) % 2 = f := by omega
  refine ⟨by omega, ?_⟩
  rw [readReg_entry s (by omega), hindex, hfield, he, Option.map_some]

/-! ## The words -/

theorem keyByte_some_setWidth (n : Note) : (keyByte (some n)).setWidth 32 = n.setWidth 32 := by
  apply BitVec.eq_of_toNat_eq
  rw [BitVec.toNat_setWidth, BitVec.toNat_setWidth, keyByte, append_toNat, BitVec.toNat_zero, Nat.zero_mul,
    Nat.zero_add]

/-- R83: the first word of an entry is `{0x00, ST, D1, D2}`. -/
theorem entryField_message (e : Entry) :
    entryField e 0 = BitVec.ofNat 32 (e.st.toNat * 2 ^ 16 + e.d1.toNat * 2 ^ 8 + e.d2.toNat) := by
  apply BitVec.eq_of_toNat_eq
  rw [entryField, if_pos rfl, BitVec.toNat_setWidth, BitVec.toNat_ofNat, msgWord, append_toNat, append_toNat]
  omega

/-- R48: with a legal configuration every field of CFGID holds its parameter. -/
theorem cfgId_eq {c : Config} (h : configLegal c = true) :
    cfgId c = BitVec.ofNat 32 (c.P + c.W * 2 ^ 8 + (if c.lookup = .linear then 2 ^ 16 else 0) +
      (if c.retrig = .retrigger then 2 ^ 17 else 0) + c.bridgeVel.toNat * 2 ^ 24) := by
  obtain ⟨-, hP, -, hW, -, hvel⟩ := (configLegal_iff c).1 h
  have hlookup : (if c.lookup = .linear then 2 ^ 16 else 0) = (lookupBit c.lookup).toNat * 2 ^ 16 := by
    cases c.lookup <;> rfl
  have hretrig : (if c.retrig = .retrigger then 2 ^ 17 else 0) = (retrigBit c.retrig).toNat * 2 ^ 17 := by
    cases c.retrig <;> rfl
  apply BitVec.eq_of_toNat_eq
  simp only [cfgId, append_toNat, hlookup, hretrig, BitVec.toNat_ofNat]
  omega

/-! ## RDREG -/

/-- Settles O23: each clause is the map's answer at a number of its block, and the word of the register's value. -/
theorem rdregReadsTheRegisterMap : Obligations.RdregReadsTheRegisterMap := by
  intro s h reads keyWord stageWord
  have hkey : ∀ k, (keyByte k).setWidth 32 = keyWord k
    | none => rfl
    | some n => keyByte_some_setWidth n
  have hstage : ∀ g, BitVec.ofNat 32 (stageCode g) = stageWord g := by
    intro g
    cases g <;> rfl
  have hglobal : ∀ r v, r < 0x100 → globalReg s r = some v → reads r v := fun r v hr hv =>
    exec_rdreg_of_some (by omega) ((readReg_global s hr).trans hv)
  have ⟨hlegal, _⟩ := h
  refine ⟨hglobal _ _ (by decide) rfl, hglobal _ _ (by decide) rfl, hglobal _ _ (by decide) rfl,
    hglobal _ _ (by decide) rfl, hglobal _ _ (by decide) rfl, hglobal _ _ (by decide) rfl,
    hglobal _ _ (by decide) rfl, hglobal _ _ (by decide) rfl, hglobal _ _ (by decide) rfl,
    hglobal _ _ (by decide) ?_, hglobal _ _ (by decide) ?_, hglobal _ _ (by decide) ?_,
    hglobal _ _ (by decide) ?_, fun i v hv => ?_, fun j e he => ?_⟩
  · rw [← State.activeCount_eq]
    rfl
  · rw [← hkey]
    rfl
  · rw [← hkey]
    rfl
  · rw [← cfgId_eq hlegal]
    rfl
  · have hvoice : ∀ f w, f < 8 → voiceField v f = some w → reads (0x100 + 8 * i + f) w := by
      intro f w hf hw
      obtain ⟨hr, hread⟩ := h.readReg_voice_field hv hf
      exact exec_rdreg_of_some hr (hread.trans hw)
    rw [← hkey, ← hstage]
    exact ⟨hvoice 0 _ (by decide) rfl, hvoice 1 _ (by decide) rfl, hvoice 2 _ (by decide) rfl,
      hvoice 3 _ (by decide) rfl, hvoice 4 _ (by decide) rfl, hvoice 5 _ (by decide) rfl,
      hvoice 6 _ (by decide) rfl⟩
  · have hentry : ∀ f, f < 2 → reads (0x100000 + 2 * j + f) (entryField e f) := by
      intro f hf
      obtain ⟨hr, hread⟩ := h.readReg_entry_field he hf
      exact exec_rdreg_of_some hr hread
    rw [← entryField_message]
    exact ⟨hentry 0 (by decide), hentry 1 (by decide)⟩

/-- Settles O24: in each range the map has no entry: no such global number, no field 7, no such voice, no such
queue entry. -/
theorem rdregRejectsUnmappedNumbers : Obligations.RdregRejectsUnmappedNumbers := by
  intro reg s h r hr
  obtain ⟨hlen, -⟩ := h.length_voices
  refine exec_rdreg_of_none (?_ : readReg s r = none)
  rcases hr with ⟨hlo, hhi⟩ | ⟨hlo, hhi, hfield | hindex⟩ | ⟨hlo, hindex⟩
  · rw [readReg_global s hhi, globalReg_of_ge s hlo]
  · rw [readReg_voice s hlo hhi, hfield]
    exact Option.bind_fun_none _
  · rw [readReg_voice s hlo hhi, List.getElem?_eq_none (hlen ▸ hindex), Option.bind_none]
  · rw [readReg_entry s hlo, List.getElem?_eq_none hindex, Option.map_none]

end Sys2Proof.Machine
end

