-- ==== Sys2Proof/Proofs/CommandFrames.lean ====
section
/-! What each instruction leaves as it was (spec/45_commands.md, R290). The idea: RESET, MIDI, RDREG and PROCESS, which
answer by cases or run the render engine, each write a fixed set of fields whatever the case; every other meaning is one
or two of the state's named writes. -/

namespace Sys2Proof.Machine

/-- R281: RESET writes SR, BS, the queue, STATUS and the drop counter. -/
theorem exec_reset_frame (bs : BitVec 16) (sr : BitVec 24) (s : State) : ∃ bs' sr' q st k,
    exec (.reset bs sr) s = .next { s with bs := bs', sr := sr', queue := q, status := st, dropCount := k } := by
  by_cases hz : sr = 0#24 ∨ bs = 0#16
  · exact ⟨_, _, _, _, _, exec_reset_of_zero s hz⟩
  · obtain ⟨hsr, hbs⟩ := not_or.1 hz
    exact ⟨_, _, _, _, _, (exec_reset_of_ne_zero s hsr hbs).trans (congrArg _ (State.qResize_eq ..))⟩

/-- R283: MIDI writes the queue, STATUS and the drop counter. -/
theorem exec_midi_frame (ofs : BitVec 16) (st d1 d2 : BitVec 8) (s : State) : ∃ q st' k,
    exec (.midi ofs st d1 d2) s = .next { s with queue := q, status := st', dropCount := k } := by
  by_cases hlate : s.bs.toNat ≤ ofs.toNat
  · exact ⟨_, _, _, exec_midi_of_late st d1 d2 hlate⟩
  · rw [exec_midi_of_lt st d1 d2 (Nat.lt_of_not_le hlate)]
    rcases State.qAdd_eq ⟨st, d1, d2, ofs⟩ s with ⟨hadd, -⟩ | ⟨hadd, -⟩ <;> rw [hadd] <;> exact ⟨_, _, _, rfl⟩

/-- R286: RDREG responds, and writes STATUS. -/
theorem exec_rdreg_frame (reg : BitVec 24) (s : State) : ∃ st out,
    exec (.rdreg reg) s = .next { s with status := st, resp := out } := by
  cases hread : readReg s reg.toNat with
  | none => exact ⟨_, _, exec_rdreg_of_none hread⟩
  | some v => exact ⟨_, _, BitVec.ofNat_toNat 24 reg ▸ exec_rdreg_of_some reg.isLt hread⟩

/-- R250, R284: PROCESS writes the voices, the queue, LAST_KEY, STATUS, the drop counter and the frames. -/
theorem exec_process_frame (n : BitVec 16) (s : State) : ∃ vs q st k fs,
    exec (.process n) s = .next
      { s with voices := vs, queue := q, lastKey := s.curKey, status := st, dropCount := k, frames := fs } := by
  obtain ⟨out, -, -, hloop⟩ := renderLoop_eq n.toNat 0 s.bridge
  rw [exec_process, hloop, State.bridge_frame]
  exact ⟨_, _, _, _, _, rfl⟩

/-- Settles O55: by instruction, from the fields it writes. -/
theorem whatEachCommandWrites : Obligations.WhatEachCommandWrites := by
  intro i s t h
  cases i with
  | reset bs sr =>
    obtain ⟨_, _, _, _, _, hw⟩ := exec_reset_frame bs sr s
    cases hw.symm.trans h
    simp
  | param p x =>
    cases h
    simp
  | midi ofs st d1 d2 =>
    obtain ⟨_, _, _, hw⟩ := exec_midi_frame ofs st d1 d2 s
    cases hw.symm.trans h
    simp
  | process n =>
    obtain ⟨_, _, _, _, _, hw⟩ := exec_process_frame n s
    cases hw.symm.trans h
    simp
  | rdreg reg =>
    obtain ⟨_, _, hw⟩ := exec_rdreg_frame reg s
    cases hw.symm.trans h
    simp
  | noteOn c n v =>
    cases h
    rw [State.noteOn_eq]
    simp
  | noteOff c n v =>
    cases h
    rw [State.noteOff_eq]
    simp
  | noteOnZero c n =>
    cases h
    rw [State.noteOff_eq]
    simp
  | _ =>
    cases h
    simp

end Sys2Proof.Machine
end

