-- ==== Sys2Proof/Proofs/Exceptions.lean ====
section
/-! What stands in the place of exceptions (spec/60_exceptions.md, R320 to R330): a run never stops, the block takes its
commands from the heads of the host streams, and a command reports its losses in STATUS and the drop counter. The idea
for the last: the drop counter after MIDI, RESET or PROCESS is that of one `lose`, however the losses came about. -/

namespace Sys2Proof.Machine

/-! ## Runs -/

/-- A run of one step more, after a step that goes on. -/
theorem RunsSafely.of_step {k : Nat} {s t : State} (hstep : step s = .next t) (hrun : RunsSafely k t) :
    RunsSafely (k + 1) s := by
  obtain ⟨u, hu, hinv⟩ := hrun
  refine ⟨u, ?_, hinv⟩
  have hcore : core.step s = .next t := hstep
  simpa only [Host.Core.run, hcore] using hu

/-- Settles O5, by induction on the number of steps: each one goes on to a state that meets the invariant. -/
theorem noWordStopsTheBlock : Obligations.NoWordStopsTheBlock := by
  intro k
  induction k with
  | zero => exact fun s h => ⟨s, rfl, h⟩
  | succ k ih =>
    intro s h
    obtain ⟨t, hstep, hinv⟩ := h.step_next
    exact .of_step hstep (ih t hinv)

/-! ## The host streams -/

/-- R330: the word taken was the head of its stream, and the other stream is left; a choice is only counted. -/
theorem State.takeCommand_head {s t : State} {w : CmdWord} (h : s.takeCommand = some (w, t)) :
    (∃ ws, s.audioIn = w :: ws ∧ t = s.setStreams ws s.controlIn t.merges) ∨
    (∃ ws, s.controlIn = w :: ws ∧ t = s.setStreams s.audioIn ws t.merges) := by
  unfold State.takeCommand at h
  split at h
  next => cases h
  next ha hc =>
    cases h
    exact .inl ⟨_, ha, by rw [hc]; rfl⟩
  next ha hc =>
    cases h
    exact .inr ⟨_, hc, by rw [ha]; rfl⟩
  next ha hc =>
    split at h <;> cases h
    · exact .inl ⟨_, ha, by rw [hc]; rfl⟩
    · exact .inr ⟨_, hc, by rw [ha]; rfl⟩

theorem State.takeCommand_eq_none_iff (s : State) : s.takeCommand = none ↔ s.audioIn = [] ∧ s.controlIn = [] := by
  unfold State.takeCommand
  split
  next ha hc => simp [ha, hc]
  next ha hc => simp [ha]
  next ha hc => simp [hc]
  next ha hc => split <;> simp [ha]

/-- Settles O7: the word taken is the head of a stream, and with both empty the step is idle. -/
theorem commandsAreTakenInStreamOrder : Obligations.CommandsAreTakenInStreamOrder :=
  ⟨fun _ _ _ h => State.takeCommand_head h, State.takeCommand_eq_none_iff, fun _ _ => ⟨rfl, rfl⟩,
    fun s hcfg hslot haudio hcontrol => step_of_idle hcfg hslot (s.takeCommand_eq_none_iff.2 ⟨haudio, hcontrol⟩)⟩

/-! ## The drop counter -/

/-- R41: the drop counter never falls. -/
theorem dropCount_le_lose (k : Nat) (s : State) : s.dropCount.toNat ≤ (s.lose k).dropCount.toNat := by
  have := s.dropCount.isLt
  rw [lose_toNat]
  omega

theorem lose_dropCount_le (k : Nat) (s : State) : (s.lose k).dropCount.toNat ≤ s.dropCount.toNat + k := by
  rw [lose_toNat]
  exact min_le_left ..

theorem lose_zero_dropCount (s : State) : (s.lose 0).dropCount = s.dropCount := congrArg State.dropCount (lose_zero s)

/-- R251: the bridge loses at most its two messages. -/
theorem State.bridge_dropCount (s : State) : ∃ k, k ≤ 2 ∧ s.bridge.dropCount = (s.lose k).dropCount := by
  obtain ⟨q, k, hk, h | h⟩ := s.bridge_cases <;> rw [h]
  · exact ⟨0, by decide, (lose_zero_dropCount s).symm⟩
  · exact ⟨k, hk, rfl⟩

/-! ## Flags and losses of the commands that have them -/

/-- R221, R283: a message is queued, or lost with one flag, QOVF or OFSERR. -/
theorem exec_midi_loss {ofs : BitVec 16} {st d1 d2 : BitVec 8} {s t : State}
    (h : exec (.midi ofs st d1 d2) s = .next t) :
    (t.status = s.status ∨ t.status = s.status ||| 0x1#32 ∨ t.status = s.status ||| 0x2#32) ∧
    ∃ k, k ≤ 1 ∧ t.dropCount = (s.lose k).dropCount := by
  by_cases hlate : s.bs.toNat ≤ ofs.toNat
  · cases (exec_midi_of_late st d1 d2 hlate).symm.trans h
    exact ⟨.inr (.inr rfl), 1, le_rfl, rfl⟩
  · cases (exec_midi_of_lt st d1 d2 (Nat.lt_of_not_le hlate)).symm.trans h
    rcases State.qAdd_eq ⟨st, d1, d2, ofs⟩ s with ⟨hadd, -⟩ | ⟨hadd, -⟩ <;> rw [hadd]
    · exact ⟨.inl rfl, 0, Nat.zero_le 1, (lose_zero_dropCount s).symm⟩
    · exact ⟨.inr (.inl rfl), 1, le_rfl, rfl⟩

/-- R226, R281: RESET sets CFGERR, RSZDROP or neither, and counts the entries its resize discards. -/
theorem exec_reset_loss {bs : BitVec 16} {sr : BitVec 24} {s t : State} (h : exec (.reset bs sr) s = .next t) :
    (t.status = s.status ∨ t.status = s.status ||| 0x4#32 ∨ t.status = s.status ||| 0x8#32) ∧
    ∃ k, t.dropCount = (s.lose k).dropCount := by
  by_cases hz : sr = 0#24 ∨ bs = 0#16
  · cases (exec_reset_of_zero s hz).symm.trans h
    exact ⟨.inr (.inr rfl), 0, (lose_zero_dropCount s).symm⟩
  · obtain ⟨hsr, hbs⟩ := not_or.1 hz
    cases (exec_reset_of_ne_zero s hsr hbs).symm.trans h
    rw [State.qResize_eq]
    refine ⟨?_, _, rfl⟩
    dsimp only
    split_ifs
    · exact .inr (.inl rfl)
    · exact .inl rfl

/-- R250, R251: in PROCESS only the bridge sets a flag or loses a message. -/
theorem exec_process_loss {n : BitVec 16} {s t : State} (h : exec (.process n) s = .next t) :
    (t.status = s.status ∨ t.status = s.status ||| 0x1#32) ∧
    ∃ k, k ≤ 2 ∧ t.dropCount = (s.lose k).dropCount := by
  obtain ⟨out, -, -, hloop⟩ := renderLoop_eq n.toNat 0 s.bridge
  cases (exec_process n s).symm.trans h
  rw [hloop]
  exact ⟨s.bridge_status, s.bridge_dropCount⟩

/-- R286: RDREG sets BADCMD or no flag. -/
theorem exec_rdreg_status {reg : BitVec 24} {s t : State} (h : exec (.rdreg reg) s = .next t) :
    t.status = s.status ∨ t.status = s.status ||| 0x10#32 := by
  cases hread : readReg s reg.toNat with
  | none =>
    cases (exec_rdreg_of_none hread).symm.trans h
    exact .inr rfl
  | some v =>
    have hnext := exec_rdreg_of_some reg.isLt hread
    rw [BitVec.ofNat_toNat, BitVec.setWidth_eq] at hnext
    cases hnext.symm.trans h
    exact .inl rfl

/-- Settles O56: MIDI, RESET, PROCESS and RDREG by their flags and losses; the others write neither STATUS nor the
drop counter (R290). -/
theorem flagsOneCommandCanSet : Obligations.FlagsOneCommandCanSet := by
  intro i s t h hclr
  obtain ⟨-, -, -, -, -, -, -, hstatus, hdrops, -, -⟩ := whatEachCommandWrites i s t h
  cases i with
  | reset bs sr =>
    obtain ⟨hflag, k, hk⟩ := exec_reset_loss h
    rw [hk]
    refine ⟨?_, dropCount_le_lose k s, nofun, nofun⟩
    rcases hflag with hnone | hsome
    · exact .inl hnone
    · exact .inr (.inr (.inr (.inl ⟨⟨bs, sr, rfl⟩, hsome⟩)))
  | midi ofs st d1 d2 =>
    obtain ⟨hflag, k, hk1, hk⟩ := exec_midi_loss h
    rw [hk]
    refine ⟨?_, dropCount_le_lose k s, nofun, fun _ => (lose_dropCount_le k s).trans (by omega)⟩
    rcases hflag with hnone | hqovf | hofserr
    · exact .inl hnone
    · exact .inr (.inl ⟨.inl ⟨ofs, st, d1, d2, rfl⟩, hqovf⟩)
    · exact .inr (.inr (.inl ⟨⟨ofs, st, d1, d2, rfl⟩, hofserr⟩))
  | process n =>
    obtain ⟨hflag, k, hk2, hk⟩ := exec_process_loss h
    rw [hk]
    refine ⟨?_, dropCount_le_lose k s, fun _ => (lose_dropCount_le k s).trans (by omega), nofun⟩
    rcases hflag with hnone | hqovf
    · exact .inl hnone
    · exact .inr (.inl ⟨.inr ⟨n, rfl⟩, hqovf⟩)
  | rdreg reg =>
    rw [hdrops nofun nofun nofun nofun]
    refine ⟨?_, le_rfl, nofun, nofun⟩
    rcases exec_rdreg_status h with hnone | hbadcmd
    · exact .inl hnone
    · exact .inr (.inr (.inr (.inr ⟨⟨reg, rfl⟩, hbadcmd⟩)))
  | clrstat flags drops => exact absurd rfl (hclr flags drops)
  | _ =>
    rw [hdrops nofun nofun nofun nofun]
    exact ⟨.inl (hstatus nofun nofun nofun nofun nofun), le_rfl, nofun, nofun⟩

end Sys2Proof.Machine
end

