-- ==== Sys2Proof/Proofs/PowerOn.lean ====
section
/-! The state at power-on (spec/70_reset_and_hazards.md, R350, R352). The idea: every voice is the one of the table,
which is unbound and IDLE at level 0, and the queue is empty, so the invariant holds entry by entry. -/

namespace Sys2Proof.Machine

theorem Voice.powerOn_ok : Voice.powerOn.Ok := by
  unfold Voice.Ok
  decide

theorem State.eq_of_mem_powerOn {c : Config} {v : Voice} (h : v ∈ (State.powerOn c).voices) : v = Voice.powerOn :=
  List.eq_of_mem_replicate h

/-- R32, R36: no two voices are bound to one key, since none is bound. -/
theorem VoicesOk.powerOn (c : Config) : VoicesOk c (State.powerOn c).voices := by
  refine ⟨List.length_replicate, fun v hv => ?_, List.pairwise_replicate.2 (.inr (.inl rfl))⟩
  exact State.eq_of_mem_powerOn hv ▸ Voice.powerOn_ok

/-- R229. -/
theorem QueueOk.nil (bs : BitVec 16) : QueueOk bs [] := ⟨Nat.zero_le _, nofun, List.Pairwise.nil⟩

/-- Settles O1: the registers are the numbers of the table by definition, each voice is the table's, and the voice
file and the queue meet their invariants. -/
theorem powerOnIsTheTableOfR350 : Obligations.PowerOnIsTheTableOfR350 := by
  refine ⟨fun c => ?_, rfl⟩
  have hvoices : ∀ v ∈ (State.powerOn c).voices, v.key = none ∧ v.stage = .idle ∧ v.vel.toNat = 0 ∧
      v.phase.toNat = 0 ∧ v.inc.toNat = 0 ∧ v.lvl.toNat = 0 ∧ v.rel.toNat = 0 := by
    intro v hv
    rw [State.eq_of_mem_powerOn hv]
    decide
  exact ⟨rfl, List.length_replicate, hvoices, rfl, rfl, rfl, rfl, rfl, rfl, rfl, rfl, rfl, rfl, rfl,
    fun _ => ⟨VoicesOk.powerOn c, QueueOk.nil 512#16⟩⟩

/-- Settles O2: the voice file and the empty queue, and four registers that are constants. -/
theorem powerOnMeetsTheInvariant : Obligations.PowerOnMeetsTheInvariant := by
  intro c hc
  have hsr : (44100#24 : BitVec 24) ≠ 0#24 := by decide
  have hbs : (512#16 : BitVec 16) ≠ 0#16 := by decide
  exact ⟨hc, VoicesOk.powerOn c, QueueOk.nil 512#16, hsr, hbs, le_rfl, Nat.zero_lt_succ 31⟩

end Sys2Proof.Machine
end

