-- ==== Sys2Proof/Proofs/SplitBlock.lean ====
section
/-! A block rendered in two pieces (spec/70_reset_and_hazards.md, R355; spec/44_render.md, R257). The idea: once every
message before frame `n` is dispatched, a flush by `n` moves the frames `n` earlier and changes nothing else, so the
flush between the pieces commutes with the second piece; and the bridge of the second piece finds no key change. -/

namespace Sys2Proof.Machine

/-! ## A flushed queue -/

theorem Sorted.flushed {q : List Entry} (h : Sorted q) (n : Nat) : Sorted (flushed n q) := by
  refine List.pairwise_map.2 ((h.filter _).imp fun hab => ?_)
  rw [Entry.earlier_ofs, Entry.earlier_ofs]
  omega

/-- A choice of the flushed entries by offset is one of the entries before the flush. -/
theorem filter_flushed {n : Nat} {p p' : Entry → Bool} (h : ∀ e, p (e.earlier n) = p' e) (q : List Entry) :
    (flushed n q).filter p = flushed n (q.filter p') := by
  have hp : p ∘ Entry.earlier n = p' := funext h
  rw [flushed, flushed, List.filter_map, hp, List.filter_filter, List.filter_filter]
  simp only [Bool.and_comm]

/-- A flush that drops no message changes no dispatch (R252: a dispatch does not read the offset). -/
theorem State.dispatchAll_flushed {n : Nat} {es : List Entry} (h : ∀ e ∈ es, n ≤ e.ofs.toNat) (s : State) :
    s.dispatchAll (flushed n es) = s.dispatchAll es := by
  rw [flushed_of_late h, State.dispatchAll, List.foldl_map]
  rfl

/-! ## Frames after a flush -/

/-- With nothing left before frame `n`, a flush by `n` moves a frame `n` earlier. -/
theorem State.renderFrame_qFlush {s : State} {n : Nat} (h : Sorted s.queue) (hlate : ∀ e ∈ s.queue, n ≤ e.ofs.toNat)
    (t : Nat) : (s.qFlush n).renderFrame t = (s.renderFrame (n + t)).qFlush n := by
  have hdue : (flushed n s.queue).filter (fun e => decide (e.ofs.toNat ≤ t)) =
      flushed n (s.queue.filter fun e => decide (e.ofs.toNat ≤ n + t)) :=
    filter_flushed (fun e => by rw [Entry.earlier_ofs, decide_eq_decide]; omega) s.queue
  have hkept : (flushed n s.queue).filter (fun e => decide (t < e.ofs.toNat)) =
      flushed n (s.queue.filter fun e => decide (n + t < e.ofs.toNat)) :=
    filter_flushed (fun e => by rw [Entry.earlier_ofs, decide_eq_decide]; omega) s.queue
  have hdispatch := s.dispatchAll_flushed (es := s.queue.filter fun e => decide (e.ofs.toNat ≤ n + t))
    fun e he => hlate e (List.mem_of_mem_filter he)
  rw [State.renderFrame_of_sorted (s := s.qFlush n) (h.flushed n), State.renderFrame_of_sorted h, State.qFlush,
    State.setQueue_queue, hdue, hkept, State.dispatchAll_setQueue, hdispatch]
  rfl

theorem renderLoop_qFlush {s : State} {n : Nat} (h : Sorted s.queue) (hlate : ∀ e ∈ s.queue, n ≤ e.ofs.toNat)
    (k t : Nat) : renderLoop k t (s.qFlush n) = (renderLoop k (n + t) s).qFlush n := by
  induction k generalizing t s with
  | zero => rfl
  | succ k ih =>
    have hq := State.renderFrame_queue h (n + t)
    have hlate' : ∀ e ∈ (s.renderFrame (n + t)).queue, n ≤ e.ofs.toNat := fun e he =>
      hlate e (List.mem_of_mem_filter (hq ▸ he))
    rw [renderLoop, State.renderFrame_qFlush h hlate, ih (hq ▸ h.filter _) hlate', renderLoop, Nat.add_assoc]

/-! ## Between the pieces -/

/-- The frames dispatch every message before the frame they reach (R253). -/
theorem le_ofs_of_mem_renderLoop {s : State} {k t : Nat} (h : Sorted s.queue)
    (hlate : ∀ e ∈ s.queue, t ≤ e.ofs.toNat) : ∀ e ∈ (renderLoop k t s).queue, t + k ≤ e.ofs.toNat := by
  induction k generalizing t s with
  | zero => exact hlate
  | succ k ih =>
    have hq := State.renderFrame_queue h t
    have hnext : ∀ e ∈ (s.renderFrame t).queue, t + 1 ≤ e.ofs.toNat := by
      intro e he
      rw [hq] at he
      simpa using (List.mem_filter.1 he).2
    rw [renderLoop, Nat.add_comm k, ← Nat.add_assoc]
    exact ih (hq ▸ h.filter _) hnext

/-- A block leaves no key change to the next (R251). -/
theorem bridge_qFlush_renderLoop (n k t : Nat) (s : State) :
    ((renderLoop k t s.bridge).qFlush n).bridge = (renderLoop k t s.bridge).qFlush n := by
  obtain ⟨out, -, -, hloop⟩ := renderLoop_eq k t s.bridge
  refine State.bridge_of_same ?_
  rw [hloop, State.bridge_frame s]
  rfl

theorem State.qFlush_qFlush (a b : Nat) (s : State) : (s.qFlush a).qFlush b = s.qFlush (a + b) :=
  congrArg (State.setQueue · s) (flushed_flushed a b s.queue)

/-- R250, R284 for a number of frames that fits the operand. -/
theorem exec_process_ofNat {n : Nat} (hn : n < 2 ^ 16) (s : State) :
    exec (.process (BitVec.ofNat 16 n)) s = .next ((renderLoop n 0 s.bridge).qFlush n) := by
  rw [exec_process, BitVec.toNat_ofNat, Nat.mod_eq_of_lt hn]

/-- Settles O52: the bridge of the second piece does nothing, its frames commute with the flush of the first, and the
two flushes are one. -/
theorem aBlockSplitsInTwo : Obligations.ABlockSplitsInTwo := by
  intro a b s h hab
  obtain ⟨-, -, ⟨-, -, hsorted⟩, -⟩ := h.bridge
  obtain ⟨-, -, ⟨-, -, hsorted'⟩, -⟩ := h.bridge.renderLoop a 0
  have hlate : ∀ e ∈ (renderLoop a 0 s.bridge).queue, a ≤ e.ofs.toNat := by
    simpa using le_ofs_of_mem_renderLoop (k := a) hsorted fun _ _ => Nat.zero_le _
  refine ⟨_, _, exec_process_ofNat (by omega) s, exec_process_ofNat (by omega) _, ?_⟩
  rw [exec_process_ofNat hab, bridge_qFlush_renderLoop, renderLoop_qFlush hsorted' hlate, State.qFlush_qFlush,
    renderLoop_add, Nat.zero_add, Nat.add_zero]

end Sys2Proof.Machine
end
